-- ==== Sys2Proof/Word.lean ====
section
/-! DEFINITION. The word types of the engine and their plainest arithmetic (00_scope.md R9, R11). -/

namespace Sys2Proof

/-- `u8` (R11): a channel of a pixel, a byte of memory, a byte of a sub-block. -/
abbrev Byte := BitVec 8

/-- `u16` (R11): an RGB565 value. -/
abbrev Half := BitVec 16

/-- A register and a bus data word: `REG_BITS` = 32 (R8). -/
abbrev Word := BitVec 32

/-- `ceil_div(a, 4) = (a + 3) div 4` (R9). -/
def ceilDiv4 (a : Nat) : Nat := (a + 3) / 4

/-- `|x|` of the difference of two naturals (R9). -/
def absDiff (x y : Nat) : Nat := (x - y) + (y - x)

end Sys2Proof
end

