-- ==== Sys2Proof/Config.lean ====
section
/-! DEFINITION. What the implementation fixes (00_scope.md R8) and the free values, which have no body. -/

namespace Sys2Proof

/-- The size of system memory in bytes, `2 ^ ADDR_WIDTH` (R8, R50). -/
abbrev Config.addressSpace : Nat := 2 ^ 32

/-- The size of the register window in bytes, `REG_WINDOW` (R8, R20). -/
abbrev Config.windowSize : Nat := 256

/-- The identification constant (R22). -/
def Config.idValue : Word := 0x42430F01#32

/-- Free values of bytes: registers after a bus error (R222), memory bytes after a reset that stopped a
command (R241). Nothing constrains them (log 5, log 10). -/
opaque Config.freeByte : Nat → Byte

/-- Free values of words: BLK_X and BLK_Y after a bus error (R222; log 5). -/
opaque Config.freeWord : Nat → Word

end Sys2Proof
end

