-- ==== Sys2Proof/Syntax.lean ====
section
/-! DEFINITION. The syntax of the engine: its instructions (the 18 command words of 30_encoding.md R74), the raw
fields of a command word (R70), bus transactions (R73), and the actions and responses of the host. -/

namespace Sys2Proof

/-- The instructions: one constructor per row of the opcode map (R74). No command has an operand field (R71). -/
inductive Instr where
  | nop
  | encColor
  | decColor
  | encAlpha
  | decAlpha
  | encBc3
  | decBc3
  | loadTile
  | storeTile
  | putBlockBc1
  | putBlockBc3
  | getBlockBc1
  | getBlockBc3
  | clearRaw
  | compressBc1
  | compressBc3
  | decompressBc1
  | decompressBc3
  deriving DecidableEq, Repr

/-- The format that the F field selects (R70). -/
inductive Format where
  | bc1
  | bc3
  deriving DecidableEq, Repr

/-- The raw fields of a command word, format C (R70): OP = bits 7:0, F = bit 8, RSV = bits 31:9. -/
structure Command where
  op : BitVec 8
  f : Bool
  rsv : BitVec 23
  deriving DecidableEq, Repr

/-- The direction of an access: of a bus transaction (R73), or of an engine access (`dir` of `BUS_FAULT`, R222). -/
inductive Dir where
  | read
  | write
  deriving DecidableEq, Repr

/-- A host access to the register window, format B (R73). -/
structure Transaction where
  dir : Dir
  offset : BitVec 8
  size : Nat
  data : Word
  deriving DecidableEq, Repr

/-- What the host and the platform do to the engine, one step each (log 1). -/
inductive HostAction where
  /-- One transaction on the register window (R73). -/
  | bus (t : Transaction)
  /-- A completed host write of one byte of system memory (R64). -/
  | memWrite (addr : Nat) (v : Byte)
  /-- A host read of one byte of system memory (R64). -/
  | memRead (addr : Nat)
  /-- Reset, asserted while no command is in progress (R240). -/
  | reset
  /-- A CMD write of `w` whose command is stopped by reset after `k` of its byte writes (R241). -/
  | resetDuring (w : Word) (k : Nat)
  deriving DecidableEq, Repr

/-- What the host gets back from an action. -/
inductive Response where
  /-- The word a register read returns (R100). -/
  | data (v : Word)
  /-- A register write has completed (R105). -/
  | written
  /-- The byte a host memory read returns. -/
  | byte (v : Byte)
  /-- A pending CMD write that the platform ended because of reset (R241). -/
  | aborted
  deriving DecidableEq, Repr

end Sys2Proof
end

