-- ==== Sys2Proof/WellFormed.lean ====
section
/-! DEFINITION. The well-formedness checks: of the raw fields of a command word (30_encoding.md R76) and of a bus
transaction (R73, 40_host_interface.md R103). -/

namespace Sys2Proof

/-- Why a command word is illegal: the three kinds R76 lists. -/
inductive Illegal where
  /-- "a nonzero RSV field". -/
  | reservedField
  /-- "OP = 0x07, 0x0D, 0x0E, 0x0F or 0x12..0xFF". -/
  | undefinedOp
  /-- "F = 1 with an OP that does not take F". -/
  | formatNotTaken
  deriving DecidableEq, Repr

/-- The operation codes of the opcode map (R74). -/
def definedOps : List (BitVec 8) :=
  [0x00#8, 0x01#8, 0x02#8, 0x03#8, 0x04#8, 0x05#8, 0x06#8, 0x08#8, 0x09#8, 0x0A#8, 0x0B#8, 0x0C#8, 0x10#8, 0x11#8]

/-- The operation codes that take F: PUT_BLOCK, GET_BLOCK, COMPRESS, DECOMPRESS (R70). -/
def formatOps : List (BitVec 8) := [0x0A#8, 0x0B#8, 0x10#8, 0x11#8]

/-- The first check a command's fields fail, if any (R76). -/
def Command.problem (c : Command) : Option Illegal :=
  if c.rsv ≠ 0#23 then some .reservedField
  else if c.op ∉ definedOps then some .undefinedOp
  else if c.f = true ∧ c.op ∉ formatOps then some .formatNotTaken
  else none

/-- A command's fields are well formed when no check fails (R76). -/
def Command.wf (c : Command) : Bool := c.problem.isNone

/-- What is wrong with a bus transaction (R103). -/
inductive IllegalTransaction where
  | narrow
  | misaligned
  deriving DecidableEq, Repr

/-- "Only `size = 4` with `offset[1:0] = 0` is a legal transaction" (R73). -/
def Transaction.problem (t : Transaction) : Option IllegalTransaction :=
  if t.size ≠ 4 then some .narrow
  else if t.offset.toNat % 4 ≠ 0 then some .misaligned
  else none

/-- A legal transaction (R73, R103). -/
def Transaction.wf (t : Transaction) : Bool := t.problem.isNone

end Sys2Proof
end

