-- ==== Sys2Proof/Decode.lean ====
section
/-! DEFINITION. The decoder of command words, total, rejecting by name (30_encoding.md R75), and the encoder, both
from the opcode map (R74). -/

namespace Sys2Proof

/-- Split a command word into its fields (R70). -/
def Command.ofWord (w : Word) : Command :=
  { op := w.extractLsb' 0 8, f := w.getLsbD 8, rsv := w.extractLsb' 9 23 }

/-- Join the fields of a command into its word (R70). -/
def Command.toWord (c : Command) : Word := c.rsv ++ (BitVec.ofBool c.f ++ c.op : BitVec 9)

/-- An operation that takes no format: F must be 0 (R75). -/
def decodePlain (f : Bool) (i : Instr) : Except Illegal Instr :=
  if f then .error .formatNotTaken else .ok i

/-- An operation with a BC1 and a BC3 form, selected by F (R70, R75). -/
def decodeFormat (f : Bool) (i₁ i₃ : Instr) : Except Illegal Instr := .ok (if f then i₃ else i₁)

/-- The opcode map, read from OP and F (R74). -/
def decodeOp (op : Nat) (f : Bool) : Except Illegal Instr :=
  match op with
  | 0x00 => decodePlain f .nop
  | 0x01 => decodePlain f .encColor
  | 0x02 => decodePlain f .decColor
  | 0x03 => decodePlain f .encAlpha
  | 0x04 => decodePlain f .decAlpha
  | 0x05 => decodePlain f .encBc3
  | 0x06 => decodePlain f .decBc3
  | 0x08 => decodePlain f .loadTile
  | 0x09 => decodePlain f .storeTile
  | 0x0A => decodeFormat f .putBlockBc1 .putBlockBc3
  | 0x0B => decodeFormat f .getBlockBc1 .getBlockBc3
  | 0x0C => decodePlain f .clearRaw
  | 0x10 => decodeFormat f .compressBc1 .compressBc3
  | 0x11 => decodeFormat f .decompressBc1 .decompressBc3
  | _ => .error .undefinedOp

/-- `decode(w)` (R75): total on all words; ILLEGAL is an error that carries its kind. -/
def decode (w : Word) : Except Illegal Instr :=
  let c := Command.ofWord w
  if c.rsv ≠ 0#23 then .error .reservedField else decodeOp c.op.toNat c.f

/-- The fields of each instruction's command word, the opcode map read the other way (R74). -/
def fieldsOf : Instr → Command
  | .nop => ⟨0x00#8, false, 0#23⟩
  | .encColor => ⟨0x01#8, false, 0#23⟩
  | .decColor => ⟨0x02#8, false, 0#23⟩
  | .encAlpha => ⟨0x03#8, false, 0#23⟩
  | .decAlpha => ⟨0x04#8, false, 0#23⟩
  | .encBc3 => ⟨0x05#8, false, 0#23⟩
  | .decBc3 => ⟨0x06#8, false, 0#23⟩
  | .loadTile => ⟨0x08#8, false, 0#23⟩
  | .storeTile => ⟨0x09#8, false, 0#23⟩
  | .putBlockBc1 => ⟨0x0A#8, false, 0#23⟩
  | .putBlockBc3 => ⟨0x0A#8, true, 0#23⟩
  | .getBlockBc1 => ⟨0x0B#8, false, 0#23⟩
  | .getBlockBc3 => ⟨0x0B#8, true, 0#23⟩
  | .clearRaw => ⟨0x0C#8, false, 0#23⟩
  | .compressBc1 => ⟨0x10#8, false, 0#23⟩
  | .compressBc3 => ⟨0x10#8, true, 0#23⟩
  | .decompressBc1 => ⟨0x11#8, false, 0#23⟩
  | .decompressBc3 => ⟨0x11#8, true, 0#23⟩

/-- The command word of an instruction (R70, R74). -/
def encode (i : Instr) : Word := (fieldsOf i).toWord

/-- The decoder on a word given as a number whose first `nbits` bits count, every bit above them 0. A command is one
32-bit word (R70), so a number that needs more bits than 32 is no command. -/
def decodeTableWord (nbits w : Nat) : Option Instr :=
  let v := w % 2 ^ nbits
  if v < 2 ^ 32 then (decode (BitVec.ofNat 32 v)).toOption else none

end Sys2Proof
end

