-- ==== Sys2Proof/Machine/State.lean ====
section
/-! DEFINITION. The state of the machine, as plain data: every register of the window (10_state.md R20 to R37), system
memory (20_memory.md R50), the host's waiting actions, the platform's parameters, and the state after reset (R42). -/

namespace Sys2Proof.Machine

/-- One RGBA8 pixel: four `u8` channels (00_scope.md R11, 10_state.md R34). -/
structure Pixel where
  r : Byte
  g : Byte
  b : Byte
  a : Byte
  deriving DecidableEq, Repr

/-- Fully transparent black: a padding pixel (43_tiler.md R183), and every entry of PIX after reset (R42). -/
abbrev Pixel.zero : Pixel := ⟨0#8, 0#8, 0#8, 0#8⟩

/-- System memory (R50): cells in ONE canonical form, addresses strictly rising and no cell holding what an unlisted
address reads as (`Memory.wf`). -/
abbrev Memory := List Host.Cell

/-- A range of byte addresses. -/
structure Region where
  base : Nat
  len : Nat
  deriving DecidableEq, Repr

/-- Addresses at which the memory system answers the engine's accesses of one direction with an error (R222). -/
structure FaultRegion where
  dir : Dir
  region : Region
  deriving DecidableEq, Repr

/-- The platform's OPEN parameters (00_scope.md R8), as data no step changes. A list of regions can hold every
predicate on the 2^32 addresses and two directions (log 3, log 4). -/
structure Platform where
  /-- `REG_BASE`: where the platform maps the register window (R20). -/
  regBase : Word
  /-- The other device registers of the address map, other engines' windows among them (R247). -/
  devices : List Region
  /-- Where `BUS_FAULT(addr, dir)` holds (R222). -/
  busFaults : List FaultRegion
  deriving DecidableEq, Repr

/-- The machine's state. -/
structure State where
  /-- STATUS.ERRCODE, bits 3:0 of STATUS (R24). -/
  errcode : BitVec 4
  /-- WIDTH (R25). -/
  width : Word
  /-- HEIGHT (R26). -/
  height : Word
  /-- RAW_BASE (R27). -/
  rawBase : Word
  /-- RAW_LEN (R28). -/
  rawLen : Word
  /-- CMP_BASE (R29). -/
  cmpBase : Word
  /-- CMP_LEN (R30). -/
  cmpLen : Word
  /-- BLK_X (R31). -/
  blkX : Word
  /-- BLK_Y (R32). -/
  blkY : Word
  /-- PIX, the block buffer (R34). -/
  pix : Vector Pixel 16
  /-- ABLK, the alpha sub-block register (R36). -/
  ablk : Vector Byte 8
  /-- CBLK, the colour sub-block register (R37). -/
  cblk : Vector Byte 8
  /-- System memory (R50). -/
  mem : Memory
  /-- The host actions that wait, oldest first (R105; log 1). -/
  pending : List HostAction
  /-- What the served actions returned, oldest first (log 15). -/
  responses : List Response
  /-- The platform's parameters (R8). -/
  platform : Platform
  /-- The model's own counter of free values drawn (log 5). -/
  draws : Nat
  deriving DecidableEq, Repr

/-- The reasons the machine stops with a fault. No rule of the spec stops the engine: its errors are codes in
STATUS.ERRCODE (60_exceptions.md R220, R225). -/
inductive Fault where
  /-- Raised by a HOST memory access at an address that does not exist: outside the 2^32 bytes of R50. Safe: the
  machine stops where nothing is defined (log 16). -/
  | outsideAddressSpace
  deriving DecidableEq, Repr

/-- The reasons a step has no meaning. -/
inductive Refusal where
  /-- Raised by an arm of `exec` whose instruction has no meaning yet; no arm is left so. Safe. -/
  | notModelled (mnemonic : String)
  /-- Raised by a register access that is narrow or misaligned: "A model refuses such a transaction" (R103, R227).
  Safe (log 7). -/
  | illegalTransaction
  /-- Raised by a command that passed its checks and whose buffer covers device registers: "A model must refuse such
  a launch" (R247). Safe (log 6). -/
  | bufferOverDevice
  /-- Raised by a HOST memory access to a device register, whose effect is the device's (R247). Safe (log 16). -/
  | hostAccessToDevice
  deriving DecidableEq, Repr

/-- The platform at `State.reset`: the window at 0x40000000, no other device, no faulting access. The spec leaves all
three OPEN (R8): DESIGN CHOICE, log 3 and log 4. -/
def Platform.initial : Platform := { regBase := 0x40000000#32, devices := [], busFaults := [] }

/-- The machine right after reset (R42, R240): every register 0, nothing waiting, memory with nothing listed. -/
def State.reset : State where
  errcode := 0#4
  width := 0#32
  height := 0#32
  rawBase := 0#32
  rawLen := 0#32
  cmpBase := 0#32
  cmpLen := 0#32
  blkX := 0#32
  blkY := 0#32
  pix := Vector.replicate 16 Pixel.zero
  ablk := Vector.replicate 8 0#8
  cblk := Vector.replicate 8 0#8
  mem := []
  pending := []
  responses := []
  platform := Platform.initial
  draws := 0

end Sys2Proof.Machine
end

