-- ==== Sys2Proof/Machine/Ops.lean ====
section
/-! DEFINITION. The named operations over memory, platform and registers that every instruction is written with:
byte reads and writes of system memory (20_memory.md), `BUS_FAULT` (60_exceptions.md R222), the end of a command
(40_host_interface.md R104, R114), the free values of a bus error, and reset (70_reset_and_hazards.md R240). -/

namespace Sys2Proof.Machine

/-! ### Fixed-size buffers -/

/-- The buffer whose entry `k` is `f k`. -/
def vecOf {α : Type} (n : Nat) (f : Nat → α) : Vector α n := ⟨⟨(List.range n).map f⟩, by simp⟩

/-- Entry `k` of PIX (R34). -/
def pixAt (p : Vector Pixel 16) (k : Nat) : Pixel := p[k]?.getD Pixel.zero

/-- Byte `j` of a sub-block register (R36, R37). -/
def byteAt (b : Vector Byte 8) (j : Nat) : Byte := b[j]?.getD 0#8

/-- Bits `8j+7 : 8j` of a number: byte `j` of its little-endian form (R52). -/
def littleByte (v : Nat) (j : Nat) : Byte := BitVec.ofNat 8 (v >>> (8 * j))

/-- The number whose field of `width` bits at `width * i` is `f i`, for `i < n` (R127, R153). -/
def packFields (width n : Nat) (f : Nat → Nat) : Nat :=
  ((List.range n).map fun i => f i <<< (width * i)).sum

/-- `first_argmin_{j in 0..n-1} f(j)` (00_scope.md R10): the scan starts at 0 and moves on a strictly smaller value. -/
def firstArgmin (n : Nat) (f : Nat → Nat) : Nat :=
  (List.range' 1 (n - 1)).foldl (fun best j => if f j < f best then j else best) 0

/-- `first_argmax_{j in 0..n-1} f(j)` (R10): the scan starts at 0 and moves on a strictly greater value. -/
def firstArgmax (n : Nat) (f : Nat → Nat) : Nat :=
  (List.range' 1 (n - 1)).foldl (fun best j => if f j > f best then j else best) 0

/-! ### System memory -/

/-- What a byte nothing has written reads as. The spec gives memory no contents ("its content is the platform's",
R42): DESIGN CHOICE 0, log 2. -/
def Memory.unlisted : Byte := 0#8

/-- `MemRead(addr, 1)` on the contents (R10): the last value written to the byte. -/
def Memory.read : Memory → Nat → Byte
  | [], _ => Memory.unlisted
  | (b, w) :: rest, a => if b = a then w else Memory.read rest a

/-- `MemWrite(addr, 1, v)` on the contents (R10), keeping the canonical form. -/
def Memory.write : Memory → Nat → Byte → Memory
  | [], a, v => if v = Memory.unlisted then [] else [(a, v)]
  | (b, w) :: rest, a, v =>
    if a < b then (if v = Memory.unlisted then (b, w) :: rest else (a, v) :: (b, w) :: rest)
    else if a = b then (if v = Memory.unlisted then rest else (a, v) :: rest)
    else (b, w) :: Memory.write rest a v

/-- The canonical form from address `lo` on: strictly rising, inside the address space, nothing listed that reads
the same unlisted. -/
def Memory.wfFrom : Nat → Memory → Bool
  | _, [] => true
  | lo, (a, v) :: rest =>
    decide (lo ≤ a) && decide (a < Config.addressSpace) && decide (v ≠ Memory.unlisted) && Memory.wfFrom (a + 1) rest

/-- The canonical form of memory. -/
def Memory.wf (m : Memory) : Bool := Memory.wfFrom 0 m

/-- A list of byte writes, in order, with no bus error. -/
def Memory.writeAll : Memory → List Host.Cell → Memory
  | m, [] => m
  | m, (a, v) :: rest => Memory.writeAll (Memory.write m a v) rest

/-! ### The platform -/

/-- The address lies in the region. -/
def Region.contains (r : Region) (a : Nat) : Bool := decide (r.base ≤ a) && decide (a < r.base + r.len)

/-- Two regions share a byte (the test of R111). -/
def Region.overlaps (r q : Region) : Bool :=
  decide (0 < r.len) && decide (0 < q.len) && decide (r.base < q.base + q.len) && decide (q.base < r.base + r.len)

/-- `BUS_FAULT(addr, dir)` (R222). -/
def Platform.busFault (p : Platform) (a : Nat) (d : Dir) : Bool :=
  p.busFaults.any fun fr => decide (fr.dir = d) && fr.region.contains a

/-- Every device register of the address map: "including any engine's own register window" (R247). -/
def Platform.deviceRegions (p : Platform) : List Region := ⟨p.regBase.toNat, Config.windowSize⟩ :: p.devices

/-- The region covers a device register (R247). -/
def Platform.coversDevice (p : Platform) (r : Region) : Bool := p.deviceRegions.any r.overlaps

/-! ### The body of a command -/

/-- How a command's body ends (R104): it completes, or it stops at a bus error with the writes made so far (R222). -/
inductive BodyResult where
  | done (s : State)
  | busError (s : State)
  deriving DecidableEq, Repr

/-- Sequencing of body parts: a bus error stops the command at once (R222). -/
def BodyResult.andThen (r : BodyResult) (f : State → BodyResult) : BodyResult :=
  match r with
  | .done s => f s
  | .busError s => .busError s

/-- Some access of a list of byte reads faults. A read has no side effect (R60), so where the list stops is
not observable; only that it stops is (log 20). -/
def readsFault (p : Platform) (addrs : List Nat) : Bool := addrs.any fun a => p.busFault a .read

/-- A list of byte writes in order: the memory after the writes made, and whether all were made. "On the first access
for which it holds, the command stops at once: that access has no effect, no later access is made" (R222). -/
def writeBytes (p : Platform) : Memory → List Host.Cell → Memory × Bool
  | m, [] => (m, true)
  | m, (a, v) :: rest => if p.busFault a .write then (m, false) else writeBytes p (m.write a v) rest

/-- A list of byte writes as a body part. -/
def storeBytes (cells : List Host.Cell) (s : State) : BodyResult :=
  let r := writeBytes s.platform s.mem cells
  if r.2 then .done { s with mem := r.1 } else .busError { s with mem := r.1 }

/-- The writes of a list before the first that faults (R222). -/
abbrev untilFault (p : Platform) (cells : List Host.Cell) : List Host.Cell :=
  cells.takeWhile fun c => !p.busFault c.1 .write

/-- One body per block, in the order of the list (R189, R190). -/
def forBlocks (body : Nat → Nat → State → BodyResult) : List (Nat × Nat) → State → BodyResult
  | [], s => .done s
  | (bx, by') :: rest, s => (body bx by' s).andThen (forBlocks body rest)

/-! ### The end of a command -/

/-- The result codes of STATUS.ERRCODE (R220). Codes 8 to 15 are never written. -/
inductive ErrCode where
  | ok
  | illegalCommand
  | invalidDimensions
  | invalidBufferSize
  | bufferRange
  | bufferOverlap
  | blockOutOfRange
  | busError
  deriving DecidableEq, Repr

/-- The value of each code (R220). -/
def ErrCode.value : ErrCode → BitVec 4
  | .ok => 0#4
  | .illegalCommand => 1#4
  | .invalidDimensions => 2#4
  | .invalidBufferSize => 3#4
  | .bufferRange => 4#4
  | .bufferOverlap => 5#4
  | .blockOutOfRange => 6#4
  | .busError => 7#4

/-- `STATUS.ERRCODE <- code`, the last effect of every command (R24, R104, R114). An error does nothing else: there is
no trap entry (R225). -/
def State.endCommand (s : State) (c : ErrCode) : State := { s with errcode := c.value }

/-- Which registers a command writes beside STATUS. -/
structure Touched where
  pix : Bool
  ablk : Bool
  cblk : Bool
  cursor : Bool
  deriving DecidableEq, Repr

/-- How many free values one bus error draws: 64 bytes of PIX, 8 of ABLK, 8 of CBLK, 2 words of cursor. -/
abbrev freeDraws : Nat := 82

/-- The registers a command writes, after a bus error: "values a model must treat as any value" (R222). Each is a free
value of its own (log 5); every other register keeps its value. -/
def State.freeRegisters (s : State) (t : Touched) : State :=
  let n := s.draws
  { s with
    pix :=
      if t.pix then
        vecOf 16 fun k =>
          { r := Config.freeByte (n + 4 * k), g := Config.freeByte (n + 4 * k + 1)
            b := Config.freeByte (n + 4 * k + 2), a := Config.freeByte (n + 4 * k + 3) }
      else s.pix
    ablk := if t.ablk then vecOf 8 fun j => Config.freeByte (n + 64 + j) else s.ablk
    cblk := if t.cblk then vecOf 8 fun j => Config.freeByte (n + 72 + j) else s.cblk
    blkX := if t.cursor then Config.freeWord (n + 80) else s.blkX
    blkY := if t.cursor then Config.freeWord (n + 81) else s.blkY
    draws := n + freeDraws }

/-! ### Host side and reset -/

/-- What an action returned goes to its master. -/
def State.respond (s : State) (r : Response) : State := { s with responses := s.responses ++ [r] }

/-- Reset: "it sets every register to the value of 10_state.md rule R42. It does not touch system memory" (R240). What
waits outside the engine stays (log 9). -/
def State.applyReset (s : State) : State :=
  { State.reset with
    mem := s.mem, pending := s.pending, responses := s.responses, platform := s.platform, draws := s.draws }

/-- A list of bytes becomes any value (R241): each byte a free value of its own (log 10). -/
def scramble : Memory → List Nat → Nat → Memory
  | m, [], _ => m
  | m, a :: rest, n => scramble (m.write a (Config.freeByte n)) rest (n + 1)

end Sys2Proof.Machine
end

