-- ==== Sys2Proof/Machine/Operands.lean ====
section
/-! DEFINITION. The operand forms of the engine: a command's operands are registers of the window
(30_encoding.md R71), read as geometry, buffers and block positions (43_tiler.md R180 to R183), and the register
words of PIX, ABLK and CBLK (10_state.md R35 to R37). -/

namespace Sys2Proof.Machine

/-! ### Geometry -/

/-- `stride = (F = 1) ? 16 : 8` (R72). -/
def strideOf : Format → Nat
  | .bc1 => 8
  | .bc3 => 16

/-- `W = sext(WIDTH)`, which is WIDTH itself wherever a command uses it, since the DIM check has passed
(43_tiler.md, opening; log 17). -/
def State.imageW (s : State) : Nat := s.width.toNat

/-- `H = sext(HEIGHT)`, as `imageW`. -/
def State.imageH (s : State) : Nat := s.height.toNat

/-- `GX <- ceil_div(W, 4)` (R180). -/
def State.gridX (s : State) : Nat := ceilDiv4 s.imageW

/-- `GY <- ceil_div(H, 4)` (R180). -/
def State.gridY (s : State) : Nat := ceilDiv4 s.imageH

/-- The blocks of the grid in row-major order, the block column fastest (R33, R180). -/
def State.blocks (s : State) : List (Nat × Nat) :=
  (List.range s.gridY).flatMap fun y => (List.range s.gridX).map fun x => (x, y)

/-- `px = 4*bx + (k mod 4)` at the block cursor (R182; the order inside a block is log 11). -/
def State.pixelX (s : State) (k : Nat) : Nat := 4 * s.blkX.toNat + k % 4

/-- `py = 4*by + (k div 4)` at the block cursor (R182). -/
def State.pixelY (s : State) (k : Nat) : Nat := 4 * s.blkY.toNat + k / 4

/-- `inb(bx, by, k) = (px < W) and (py < H)` at the block cursor (R183). -/
def State.inBounds (s : State) (k : Nat) : Bool :=
  decide (s.pixelX k < s.imageW) && decide (s.pixelY k < s.imageH)

/-! ### Addresses -/

/-- The raw image buffer (R27, R28). -/
def State.rawRegion (s : State) : Region := ⟨s.rawBase.toNat, s.rawLen.toNat⟩

/-- The compressed stream buffer (R29, R30). -/
def State.cmpRegion (s : State) : Region := ⟨s.cmpBase.toNat, s.cmpLen.toNat⟩

/-- `RAW_BASE + (py*W + px)*4`: the first byte of block-buffer entry `k` of the block at the cursor (R53, R182). -/
def State.pixelAddr (s : State) (k : Nat) : Nat :=
  s.rawBase.toNat + (s.pixelY k * s.imageW + s.pixelX k) * 4

/-- `bi <- BLK_Y*GX + BLK_X` (R180, R186). -/
def State.blockIndex (s : State) : Nat := s.blkY.toNat * s.gridX + s.blkX.toNat

/-- `CMP_BASE + bi*stride`: the first byte of the block at the cursor (R181). -/
def State.blockAddr (f : Format) (s : State) : Nat := s.cmpBase.toNat + s.blockIndex * strideOf f

/-- `BLK_X <- bx; BLK_Y <- by` (R189). -/
def State.setCursor (s : State) (x y : Nat) : State :=
  { s with blkX := BitVec.ofNat 32 x, blkY := BitVec.ofNat 32 y }

/-! ### Register words -/

/-- `A ‖ B ‖ G ‖ R` (R35). -/
def pixelWord (p : Pixel) : Word := p.a ++ (p.b ++ (p.g ++ p.r : BitVec 16) : BitVec 24)

/-- `R = v[7:0], G = v[15:8], B = v[23:16], A = v[31:24]` (R101). -/
def pixelOfWord (v : Word) : Pixel :=
  { r := v.extractLsb' 0 8, g := v.extractLsb' 8 8, b := v.extractLsb' 16 8, a := v.extractLsb' 24 8 }

/-- Word `j` of a sub-block register, little-endian (R36, R37). -/
def subBlockWord (b : Vector Byte 8) (j : Nat) : Word :=
  byteAt b (4 * j + 3) ++ (byteAt b (4 * j + 2) ++ (byteAt b (4 * j + 1) ++ byteAt b (4 * j) : BitVec 16) : BitVec 24)

/-- `BLK[4j+b] <- v[8b+7:8b]` for `b` in 0..3, the other bytes kept (R101). -/
def setSubBlockWord (b : Vector Byte 8) (j : Nat) (v : Word) : Vector Byte 8 :=
  vecOf 8 fun i => if i / 4 = j then v.extractLsb' (8 * (i % 4)) 8 else byteAt b i

end Sys2Proof.Machine
end

