-- ==== Sys2Proof/Machine/Bus.lean ====
section
/-! DEFINITION. The register window: its map (10_state.md R20), reading a register (40_host_interface.md R100) and
writing one (R101, R102). -/

namespace Sys2Proof.Machine

/-- The registers of the window (R20). -/
inductive Reg where
  | id
  | cmd
  | status
  | width
  | height
  | rawBase
  | rawLen
  | cmpBase
  | cmpLen
  | blkX
  | blkY
  | pix (k : Fin 16)
  | ablk (j : Fin 2)
  | cblk (j : Fin 2)
  deriving DecidableEq, Repr

/-- The offset of each register: the table of R20. -/
def regOffset : Reg → BitVec 8
  | .id => 0x00#8
  | .cmd => 0x04#8
  | .status => 0x08#8
  | .width => 0x0C#8
  | .height => 0x10#8
  | .rawBase => 0x14#8
  | .rawLen => 0x18#8
  | .cmpBase => 0x1C#8
  | .cmpLen => 0x20#8
  | .blkX => 0x24#8
  | .blkY => 0x28#8
  | .pix k => BitVec.ofNat 8 (0x40 + 4 * k.val)
  | .ablk j => BitVec.ofNat 8 (0x80 + 4 * j.val)
  | .cblk j => BitVec.ofNat 8 (0x88 + 4 * j.val)

/-- The register at an aligned offset, none where the window is unmapped (R20, R41). -/
def regAt (o : BitVec 8) : Option Reg :=
  match o.toNat / 4 with
  | 0 => some .id
  | 1 => some .cmd
  | 2 => some .status
  | 3 => some .width
  | 4 => some .height
  | 5 => some .rawBase
  | 6 => some .rawLen
  | 7 => some .cmpBase
  | 8 => some .cmpLen
  | 9 => some .blkX
  | 10 => some .blkY
  | n =>
    if 16 ≤ n ∧ n < 32 then some (.pix (Fin.ofNat 16 (n - 16)))
    else if 32 ≤ n ∧ n < 34 then some (.ablk (Fin.ofNat 2 (n - 32)))
    else if 34 ≤ n ∧ n < 36 then some (.cblk (Fin.ofNat 2 (n - 34)))
    else none

/-- What a read of a register returns: "CMD → 0; STATUS → zext_32(ERRCODE)" (R100). -/
def readReg (s : State) : Reg → Word
  | .id => Config.idValue
  | .cmd => 0#32
  | .status => s.errcode.setWidth 32
  | .width => s.width
  | .height => s.height
  | .rawBase => s.rawBase
  | .rawLen => s.rawLen
  | .cmpBase => s.cmpBase
  | .cmpLen => s.cmpLen
  | .blkX => s.blkX
  | .blkY => s.blkY
  | .pix k => pixelWord (pixAt s.pix k.val)
  | .ablk j => subBlockWord s.ablk j.val
  | .cblk j => subBlockWord s.cblk j.val

/-- What a write of a register other than CMD does: a write to ID or STATUS "is accepted and changes no state" (R101,
R102). A write to CMD issues a command (Machine/Issue.lean). -/
def writeReg (s : State) (v : Word) : Reg → State
  | .id => s
  | .cmd => s
  | .status => s
  | .width => { s with width := v }
  | .height => { s with height := v }
  | .rawBase => { s with rawBase := v }
  | .rawLen => { s with rawLen := v }
  | .cmpBase => { s with cmpBase := v }
  | .cmpLen => { s with cmpLen := v }
  | .blkX => { s with blkX := v }
  | .blkY => { s with blkY := v }
  | .pix k => { s with pix := s.pix.set k.val (pixelOfWord v) }
  | .ablk j => { s with ablk := setSubBlockWord s.ablk j.val v }
  | .cblk j => { s with cblk := setSubBlockWord s.cblk j.val v }

/-- An aligned 32-bit read at an offset; an unmapped offset reads 0 (R100, R41). -/
def busRead (s : State) (o : BitVec 8) : Word :=
  match regAt o with
  | some r => readReg s r
  | none => 0#32

/-- An aligned 32-bit write at an offset other than CMD's; an unmapped offset ignores it (R101, R102, R41). -/
def busWrite (s : State) (o : BitVec 8) (v : Word) : State :=
  match regAt o with
  | some r => writeReg s v r
  | none => s

end Sys2Proof.Machine
end

