-- ==== Sys2Proof/Machine/Flags.lean ====
section
/-! DEFINITION. STATUS.ERRCODE, the engine's only flag (10_state.md R24, R40): the argument checks, which command makes
which, in which order (40_host_interface.md R106 to R112, 60_exceptions.md R220, R223), and the frame every command
runs in (R104). -/

namespace Sys2Proof.Machine

/-- The argument checks, in their global order (R106). -/
inductive Check where
  | dim
  | rawSize
  | cmpSize
  | rawRange
  | cmpRange
  | overlap
  | block
  deriving DecidableEq, Repr

/-- When a check fails (R107 to R112), with the command's format. -/
def Check.fails (f : Format) (s : State) : Check → Bool
  | .dim => decide (s.width.toInt < 0) || decide (s.height.toInt < 0)
  | .rawSize => decide (s.rawLen.toNat ≠ s.imageW * s.imageH * 4)
  | .cmpSize => decide (s.cmpLen.toNat ≠ s.gridX * s.gridY * strideOf f)
  | .rawRange => decide (s.rawBase.toNat + s.rawLen.toNat > Config.addressSpace)
  | .cmpRange => decide (s.cmpBase.toNat + s.cmpLen.toNat > Config.addressSpace)
  | .overlap => s.rawRegion.overlaps s.cmpRegion
  | .block => decide (s.blkX.toNat ≥ s.gridX) || decide (s.blkY.toNat ≥ s.gridY)

/-- The code a failing check reports (R107 to R112, R220). -/
def Check.code : Check → ErrCode
  | .dim => .invalidDimensions
  | .rawSize => .invalidBufferSize
  | .cmpSize => .invalidBufferSize
  | .rawRange => .bufferRange
  | .cmpRange => .bufferRange
  | .overlap => .bufferOverlap
  | .block => .blockOutOfRange

/-- The format of an instruction: F, which only four operations take (R70, R72). -/
def formatOf : Instr → Format
  | .putBlockBc3 | .getBlockBc3 | .compressBc3 | .decompressBc3 => .bc3
  | .nop | .encColor | .decColor | .encAlpha | .decAlpha | .encBc3 | .decBc3 | .loadTile | .storeTile
  | .putBlockBc1 | .getBlockBc1 | .clearRaw | .compressBc1 | .decompressBc1 => .bc1

/-- Which checks each command makes, in order: the table of R106. -/
def checksOf : Instr → List Check
  | .nop | .encColor | .decColor | .encAlpha | .decAlpha | .encBc3 | .decBc3 => []
  | .loadTile | .storeTile => [.dim, .rawSize, .rawRange, .block]
  | .putBlockBc1 | .putBlockBc3 | .getBlockBc1 | .getBlockBc3 => [.dim, .cmpSize, .cmpRange, .block]
  | .clearRaw => [.dim, .rawSize, .rawRange]
  | .compressBc1 | .compressBc3 | .decompressBc1 | .decompressBc3 =>
    [.dim, .rawSize, .cmpSize, .rawRange, .cmpRange, .overlap]

/-- Which registers each command writes beside STATUS: the "Writes" part of each command's rule, and the list of R222
restricted to it. -/
def touchedOf : Instr → Touched
  | .nop | .storeTile | .putBlockBc1 | .putBlockBc3 | .clearRaw => ⟨false, false, false, false⟩
  | .encColor | .getBlockBc1 => ⟨false, false, true, false⟩
  | .encAlpha => ⟨false, true, false, false⟩
  | .encBc3 | .getBlockBc3 => ⟨false, true, true, false⟩
  | .decColor | .decAlpha | .decBc3 | .loadTile => ⟨true, false, false, false⟩
  | .compressBc1 | .decompressBc1 => ⟨true, false, true, true⟩
  | .compressBc3 | .decompressBc3 => ⟨true, true, true, true⟩

/-- "The first failing check decides the code" (R106, R223). -/
def firstFailure (f : Format) (s : State) : List Check → Option ErrCode
  | [] => none
  | c :: rest => if c.fails f s then some c.code else firstFailure f s rest

/-- A buffer the command uses covers a device register (R247). The buffers a command uses are the ones whose range it
checks (R106). -/
def usesDevice (i : Instr) (s : State) : Bool :=
  (decide (Check.rawRange ∈ checksOf i) && s.platform.coversDevice s.rawRegion)
    || (decide (Check.cmpRange ∈ checksOf i) && s.platform.coversDevice s.cmpRegion)

/-- The frame of every command (R104): its checks; then its body, which completes (ERRCODE 0, R114) or stops on a bus
error (ERRCODE 7, R222). A launch over device registers is refused once the checks have passed (R247; log 6). -/
def runCommand (i : Instr) (body : State → BodyResult) (s : State) : Host.Outcome State Fault Refusal :=
  match firstFailure (formatOf i) s (checksOf i) with
  | some c => .next (s.endCommand c)
  | none =>
    if usesDevice i s then .refused .bufferOverDevice
    else
      match body s with
      | .done t => .next (t.endCommand .ok)
      | .busError t => .next ((t.freeRegisters (touchedOf i)).endCommand .busError)

end Sys2Proof.Machine
end

