-- ==== Sys2Proof/Machine/Control.lean ====
section
/-! DEFINITION. The control family: NOP (40_host_interface.md R113). -/

namespace Sys2Proof.Machine

/-- NOP: no effect but ERRCODE 0 (R113, R114). -/
def execNop (s : State) : Host.Outcome State Fault Refusal := runCommand .nop .done s

end Sys2Proof.Machine
end

