-- ==== Sys2Proof/Machine/Colour.lean ====
section
/-! DEFINITION. The colour family: the colour-space helpers, the colour sub-block encoder and decoder, ENC_COLOR and
DEC_COLOR (41_color_codec.md). -/

namespace Sys2Proof.Machine

/-- An RGB888 triple (00_scope.md R11). -/
structure Rgb where
  r : Byte
  g : Byte
  b : Byte
  deriving DecidableEq, Repr

/-! ### Colour-space helpers -/

/-- `((r >> 3) << 11) | ((g >> 2) << 5) | (b >> 3)`: bits 15:11 = R, 10:5 = G, 4:0 = B (R120). -/
def rgbTo565 (r g b : Byte) : Half :=
  r.extractLsb' 3 5 ++ (g.extractLsb' 2 6 ++ b.extractLsb' 3 5 : BitVec 11)

/-- `( v[15:11] << 3, v[10:5] << 2, v[4:0] << 3 )`: the low bits are zero-filled (R121). -/
def rgb565To888 (v : Half) : Rgb :=
  { r := v.extractLsb' 11 5 ++ 0#3, g := v.extractLsb' 5 6 ++ 0#2, b := v.extractLsb' 0 5 ++ 0#3 }

/-! ### Encoder -/

/-- `2*R + 4*G + B`, exact (R123). -/
def luminance (p : Pixel) : Nat := 2 * p.r.toNat + 4 * p.g.toNat + p.b.toNat

/-- The RGB565 value of a pixel (R124). -/
def pixel565 (p : Pixel) : Half := rgbTo565 p.r p.g p.b

/-- `color0`: the pixel of minimum luminance, the first on a tie (R124; start at pixel 0, log 12). -/
def encColor0 (p : Vector Pixel 16) : Half := pixel565 (pixAt p (firstArgmin 16 fun i => luminance (pixAt p i)))

/-- `color1`: the pixel of maximum luminance, the first on a tie (R124). -/
def encColor1 (p : Vector Pixel 16) : Half := pixel565 (pixAt p (firstArgmax 16 fun i => luminance (pixAt p i)))

/-- `(2*x + y) div 3` (R125, R128). -/
def blendThird (x y : Byte) : Byte := BitVec.ofNat 8 ((2 * x.toNat + y.toNat) / 3)

/-- `(x + y) div 2` (R128). -/
def blendHalf (x y : Byte) : Byte := BitVec.ofNat 8 ((x.toNat + y.toNat) / 2)

/-- A blend per channel (R125, R128). -/
def blendRgb (f : Byte → Byte → Byte) (x y : Rgb) : Rgb := { r := f x.r y.r, g := f x.g y.g, b := f x.b y.b }

/-- `EPAL`: the encoder's palette, always the four-colour one (R125). -/
def encPalette (c0 c1 : Half) (j : Nat) : Rgb :=
  let e0 := rgb565To888 c0
  let e1 := rgb565To888 c1
  match j with
  | 0 => e0
  | 1 => e1
  | 2 => blendRgb blendThird e0 e1
  | _ => blendRgb blendThird e1 e0

/-- Squared Euclidean RGB distance, exact (R126). -/
def colourDist (p : Pixel) (q : Rgb) : Nat :=
  absDiff p.r.toNat q.r.toNat ^ 2 + absDiff p.g.toNat q.g.toNat ^ 2 + absDiff p.b.toNat q.b.toNat ^ 2

/-- The palette index of a pixel: the nearest entry, the lowest on a tie (R126). -/
def colourIndex (c0 c1 : Half) (p : Pixel) : Nat := firstArgmin 4 fun j => colourDist p (encPalette c0 c1 j)

/-- `IDX32` of a block (R127). -/
def encIdx32 (p : Vector Pixel 16) : Nat :=
  packFields 2 16 fun i => colourIndex (encColor0 p) (encColor1 p) (pixAt p i)

/-- `colour_encode(P)`: `color0`, `color1` and the index field, little-endian (R127). -/
def colourEncode (p : Vector Pixel 16) : Vector Byte 8 :=
  let c0 := (encColor0 p).toNat
  let c1 := (encColor1 p).toNat
  let idx := encIdx32 p
  #v[littleByte c0 0, littleByte c0 1, littleByte c1 0, littleByte c1 1,
     littleByte idx 0, littleByte idx 1, littleByte idx 2, littleByte idx 3]

/-! ### Decoder -/

/-- `color0 <- in[0] | (in[1] << 8)` (R128). -/
def subColor0 (c : Vector Byte 8) : Half := byteAt c 1 ++ byteAt c 0

/-- `color1 <- in[2] | (in[3] << 8)` (R128). -/
def subColor1 (c : Vector Byte 8) : Half := byteAt c 3 ++ byteAt c 2

/-- `IDX32[2k+1 : 2k]` of a colour sub-block (R128, R129). -/
def subColourIndex (c : Vector Byte 8) (k : Nat) : Nat := ((subBlockWord c 1).extractLsb' (2 * k) 2).toNat

/-- A palette colour with its alpha. -/
def Rgb.withAlpha (c : Rgb) (a : Byte) : Pixel := { r := c.r, g := c.g, b := c.b, a := a }

/-- `DPAL`: four colours when `color0 > color1` as raw 16-bit values, else three colours and transparent black
(R128). -/
def decPalette (c0 c1 : Half) (j : Nat) : Pixel :=
  let e0 := rgb565To888 c0
  let e1 := rgb565To888 c1
  match j with
  | 0 => e0.withAlpha 255#8
  | 1 => e1.withAlpha 255#8
  | 2 => (if c0.toNat > c1.toNat then blendRgb blendThird e0 e1 else blendRgb blendHalf e0 e1).withAlpha 255#8
  | _ => if c0.toNat > c1.toNat then (blendRgb blendThird e1 e0).withAlpha 255#8 else Pixel.zero

/-- `colour_decode(in)`: each pixel is the palette entry of its index, all four channels (R129). -/
def colourDecode (c : Vector Byte 8) : Vector Pixel 16 :=
  vecOf 16 fun k => decPalette (subColor0 c) (subColor1 c) (subColourIndex c k)

/-! ### Commands -/

/-- ENC_COLOR: `CBLK <- colour_encode(PIX)` (R130). -/
def execEncColor (s : State) : Host.Outcome State Fault Refusal :=
  runCommand .encColor (fun t => .done { t with cblk := colourEncode t.pix }) s

/-- DEC_COLOR: `PIX <- colour_decode(CBLK)` (R131). -/
def execDecColor (s : State) : Host.Outcome State Fault Refusal :=
  runCommand .decColor (fun t => .done { t with pix := colourDecode t.cblk }) s

end Sys2Proof.Machine
end

