-- ==== Sys2Proof/Machine/Alpha.lean ====
section
/-! DEFINITION. The alpha family: the BC3 alpha sub-block encoder and decoder, ENC_ALPHA, DEC_ALPHA, and the BC3 block
commands ENC_BC3, DEC_BC3 (42_alpha_codec.md). -/

namespace Sys2Proof.Machine

/-! ### Encoder -/

/-- The alpha of block-buffer entry `k`, as a number (R150). -/
def alphaOf (p : Vector Pixel 16) (k : Nat) : Nat := (pixAt p k).a.toNat

/-- `alpha0 <- min(a[0], ..., a[15])` (R150). -/
def encAlpha0 (p : Vector Pixel 16) : Nat := alphaOf p (firstArgmin 16 (alphaOf p))

/-- `alpha1 <- max(a[0], ..., a[15])` (R150). -/
def encAlpha1 (p : Vector Pixel 16) : Nat := alphaOf p (firstArgmax 16 (alphaOf p))

/-- `alpha_palette(alpha0, alpha1)`: eight levels when `alpha0 > alpha1`, else six levels and 0, 255 (R151). -/
def alphaPalette (a0 a1 : Nat) (j : Nat) : Nat :=
  match j with
  | 0 => a0
  | 1 => a1
  | i + 2 =>
    if a0 > a1 then ((7 - (i + 1)) * a0 + (i + 1) * a1) / 7
    else if i = 4 then 0
    else if i = 5 then 255
    else ((5 - (i + 1)) * a0 + (i + 1) * a1) / 5

/-- The palette index of an alpha: the least absolute difference, the lowest index on a tie (R152). -/
def alphaIndex (a0 a1 a : Nat) : Nat := firstArgmin 8 fun j => absDiff a (alphaPalette a0 a1 j)

/-- `IDX48` of a block (R153). -/
def encIdx48 (p : Vector Pixel 16) : Nat :=
  packFields 3 16 fun k => alphaIndex (encAlpha0 p) (encAlpha1 p) (alphaOf p k)

/-- `alpha_encode(a)`: the two endpoints and the index field in six little-endian bytes (R153). -/
def alphaEncode (p : Vector Pixel 16) : Vector Byte 8 :=
  let idx := encIdx48 p
  #v[BitVec.ofNat 8 (encAlpha0 p), BitVec.ofNat 8 (encAlpha1 p), littleByte idx 0, littleByte idx 1,
     littleByte idx 2, littleByte idx 3, littleByte idx 4, littleByte idx 5]

/-! ### Decoder -/

/-- `IDX48 <- sum over j in 0..5 of (in[2+j] << (8*j))` (R154). -/
def subIdx48 (b : Vector Byte 8) : Nat := packFields 8 6 fun j => (byteAt b (2 + j)).toNat

/-- `IDX48[3k+2 : 3k]` of an alpha sub-block (R154). -/
def subAlphaIndex (b : Vector Byte 8) (k : Nat) : Nat := (subIdx48 b >>> (3 * k)) % 8

/-- `alpha_decode(in)[k]` (R154). -/
def alphaDecode (b : Vector Byte 8) (k : Nat) : Byte :=
  BitVec.ofNat 8 (alphaPalette (byteAt b 0).toNat (byteAt b 1).toNat (subAlphaIndex b k))

/-- `for k in 0..15: PIX[k].A <- t[k]`, R, G, B unchanged (R156). -/
def overrideAlpha (p : Vector Pixel 16) (t : Nat → Byte) : Vector Pixel 16 :=
  vecOf 16 fun k => { pixAt p k with a := t k }

/-! ### Encoding and decoding the block registers, by format -/

/-- The encoders of a format: CBLK always, ABLK for BC3 only (R157, R189). -/
def encodeBlock (f : Format) (s : State) : State :=
  match f with
  | .bc1 => { s with cblk := colourEncode s.pix }
  | .bc3 => { s with ablk := alphaEncode s.pix, cblk := colourEncode s.pix }

/-- The decoders of a format: the colour decode, then for BC3 its alpha overridden (R158, R190). -/
def decodeBlock (f : Format) (s : State) : State :=
  match f with
  | .bc1 => { s with pix := colourDecode s.cblk }
  | .bc3 => { s with pix := overrideAlpha (colourDecode s.cblk) (alphaDecode s.ablk) }

/-! ### Commands -/

/-- ENC_ALPHA: `ABLK <- alpha_encode(PIX.A)` (R155). -/
def execEncAlpha (s : State) : Host.Outcome State Fault Refusal :=
  runCommand .encAlpha (fun t => .done { t with ablk := alphaEncode t.pix }) s

/-- DEC_ALPHA: `PIX.A <- alpha_decode(ABLK)` (R156). -/
def execDecAlpha (s : State) : Host.Outcome State Fault Refusal :=
  runCommand .decAlpha (fun t => .done { t with pix := overrideAlpha t.pix (alphaDecode t.ablk) }) s

/-- ENC_BC3: both encoders on the same PIX (R157). -/
def execEncBc3 (s : State) : Host.Outcome State Fault Refusal :=
  runCommand .encBc3 (fun t => .done (encodeBlock .bc3 t)) s

/-- DEC_BC3: the colour decode, then the alpha over it (R158). -/
def execDecBc3 (s : State) : Host.Outcome State Fault Refusal :=
  runCommand .decBc3 (fun t => .done (decodeBlock .bc3 t)) s

end Sys2Proof.Machine
end

