-- ==== Sys2Proof/Machine/Tiler.lean ====
section
/-! DEFINITION. The tile family: LOAD_TILE, STORE_TILE, PUT_BLOCK, GET_BLOCK and CLEAR_RAW, and their bodies
(43_tiler.md R184 to R188). -/

namespace Sys2Proof.Machine

/-! ### Tiles of the raw image -/

/-- The raw bytes LOAD_TILE reads, in order: four for each entry in bounds (R184). -/
def tileReads (s : State) : List Nat :=
  (List.range 16).flatMap fun k =>
    if s.inBounds k then
      [s.pixelAddr k, s.pixelAddr k + 1, s.pixelAddr k + 2, s.pixelAddr k + 3]
    else []

/-- What LOAD_TILE puts in entry `k`: the raw pixel, or padding where it is out of bounds (R183, R184). -/
def tilePixel (s : State) (k : Nat) : Pixel :=
  if s.inBounds k then
    { r := s.mem.read (s.pixelAddr k), g := s.mem.read (s.pixelAddr k + 1)
      b := s.mem.read (s.pixelAddr k + 2), a := s.mem.read (s.pixelAddr k + 3) }
  else Pixel.zero

/-- PIX after the loop of `load_tile` (R184). -/
def loadedTile (s : State) : State := { s with pix := vecOf 16 (tilePixel s) }

/-- `load_tile()` (R184). -/
def loadTile (s : State) : BodyResult :=
  if readsFault s.platform (tileReads s) then .busError s else .done (loadedTile s)

/-- The byte writes of `store_tile`, in order: none for an entry out of bounds (R185). -/
def tileWrites (s : State) : List Host.Cell :=
  (List.range 16).flatMap fun k =>
    if s.inBounds k then
      [(s.pixelAddr k, (pixAt s.pix k).r), (s.pixelAddr k + 1, (pixAt s.pix k).g),
       (s.pixelAddr k + 2, (pixAt s.pix k).b), (s.pixelAddr k + 3, (pixAt s.pix k).a)]
    else []

/-- `store_tile()` (R185). -/
def storeTile (s : State) : BodyResult := storeBytes (tileWrites s) s

/-! ### Blocks of the compressed stream -/

/-- Where byte `j` of the colour sub-block of the block at the cursor lies: after the alpha sub-block in BC3
(R181, R186). -/
def colourByteAddr (f : Format) (s : State) (j : Nat) : Nat :=
  match f with
  | .bc1 => s.blockAddr .bc1 + j
  | .bc3 => s.blockAddr .bc3 + 8 + j

/-- Where byte `j` of the alpha sub-block of the block at the cursor lies (R181, R186). -/
def alphaByteAddr (s : State) (j : Nat) : Nat := s.blockAddr .bc3 + j

/-- The byte writes of `put_block(F)`, in order: for BC3 the alpha sub-block first (R186). -/
def blockWrites (f : Format) (s : State) : List Host.Cell :=
  (match f with
    | .bc1 => []
    | .bc3 => (List.range 8).map fun j => (alphaByteAddr s j, byteAt s.ablk j))
    ++ (List.range 8).map fun j => (colourByteAddr f s j, byteAt s.cblk j)

/-- `put_block(F)` (R186). -/
def putBlock (f : Format) (s : State) : BodyResult := storeBytes (blockWrites f s) s

/-- The byte reads of `get_block(F)`, in order (R187). -/
def blockReads (f : Format) (s : State) : List Nat :=
  (match f with
    | .bc1 => []
    | .bc3 => (List.range 8).map (alphaByteAddr s))
    ++ (List.range 8).map (colourByteAddr f s)

/-- CBLK, and for BC3 ABLK, after the loops of `get_block` (R187). -/
def gottenBlock (f : Format) (s : State) : State :=
  match f with
  | .bc1 => { s with cblk := vecOf 8 fun j => s.mem.read (colourByteAddr .bc1 s j) }
  | .bc3 =>
    { s with
      ablk := vecOf 8 fun j => s.mem.read (alphaByteAddr s j)
      cblk := vecOf 8 fun j => s.mem.read (colourByteAddr .bc3 s j) }

/-- `get_block(F)` (R187). -/
def getBlock (f : Format) (s : State) : BodyResult :=
  if readsFault s.platform (blockReads f s) then .busError s else .done (gottenBlock f s)

/-! ### Clearing -/

/-- The byte writes of `clear_raw`, in order (R188). -/
def clearWrites (s : State) : List Host.Cell :=
  (List.range s.rawLen.toNat).map fun o => (s.rawBase.toNat + o, 0#8)

/-- `clear_raw()` (R188). -/
def clearRaw (s : State) : BodyResult := storeBytes (clearWrites s) s

/-! ### Commands -/

/-- LOAD_TILE (R184). -/
def execLoadTile (s : State) : Host.Outcome State Fault Refusal := runCommand .loadTile loadTile s

/-- STORE_TILE (R185). -/
def execStoreTile (s : State) : Host.Outcome State Fault Refusal := runCommand .storeTile storeTile s

/-- PUT_BLOCK.BC1 (R186). -/
def execPutBlockBc1 (s : State) : Host.Outcome State Fault Refusal := runCommand .putBlockBc1 (putBlock .bc1) s

/-- PUT_BLOCK.BC3 (R186). -/
def execPutBlockBc3 (s : State) : Host.Outcome State Fault Refusal := runCommand .putBlockBc3 (putBlock .bc3) s

/-- GET_BLOCK.BC1 (R187). -/
def execGetBlockBc1 (s : State) : Host.Outcome State Fault Refusal := runCommand .getBlockBc1 (getBlock .bc1) s

/-- GET_BLOCK.BC3 (R187). -/
def execGetBlockBc3 (s : State) : Host.Outcome State Fault Refusal := runCommand .getBlockBc3 (getBlock .bc3) s

/-- CLEAR_RAW (R188). -/
def execClearRaw (s : State) : Host.Outcome State Fault Refusal := runCommand .clearRaw clearRaw s

end Sys2Proof.Machine
end

