-- ==== Sys2Proof/Machine/Image.lean ====
section
/-! DEFINITION. The image family: COMPRESS and DECOMPRESS, the row processor's loops over the grid (43_tiler.md R189,
R190), and the byte writes a command makes, which a reset during it cuts short (70_reset_and_hazards.md R241). -/

namespace Sys2Proof.Machine

/-- The body of COMPRESS for one block: cursor, tile, encoders, block (R189). -/
def compressBlock (f : Format) (x y : Nat) (s : State) : BodyResult :=
  (loadTile (s.setCursor x y)).andThen fun t => putBlock f (encodeBlock f t)

/-- The body of COMPRESS (R189). -/
def compress (f : Format) (s : State) : BodyResult := forBlocks (compressBlock f) s.blocks s

/-- The body of DECOMPRESS for one block: cursor, block, decoders, tile (R190). -/
def decompressBlock (f : Format) (x y : Nat) (s : State) : BodyResult :=
  (getBlock f (s.setCursor x y)).andThen fun t => storeTile (decodeBlock f t)

/-- The body of DECOMPRESS: the raw buffer is cleared first (R190). -/
def decompress (f : Format) (s : State) : BodyResult :=
  (clearRaw s).andThen fun t => forBlocks (decompressBlock f) s.blocks t

/-- COMPRESS.BC1 (R189). -/
def execCompressBc1 (s : State) : Host.Outcome State Fault Refusal := runCommand .compressBc1 (compress .bc1) s

/-- COMPRESS.BC3 (R189). -/
def execCompressBc3 (s : State) : Host.Outcome State Fault Refusal := runCommand .compressBc3 (compress .bc3) s

/-- DECOMPRESS.BC1 (R190). -/
def execDecompressBc1 (s : State) : Host.Outcome State Fault Refusal :=
  runCommand .decompressBc1 (decompress .bc1) s

/-- DECOMPRESS.BC3 (R190). -/
def execDecompressBc3 (s : State) : Host.Outcome State Fault Refusal :=
  runCommand .decompressBc3 (decompress .bc3) s

/-! ### The writes of a command -/

/-- The byte writes COMPRESS makes for one block, read from the memory the command starts with: no block's output is an
input of another (R63, R111). -/
def compressedBlockWrites (f : Format) (s : State) (c : Nat × Nat) : List Host.Cell :=
  blockWrites f (encodeBlock f (loadedTile (s.setCursor c.1 c.2)))

/-- The byte writes DECOMPRESS makes for one block, read from the memory the command starts with (R63, R111). -/
def decompressedTileWrites (f : Format) (s : State) (c : Nat × Nat) : List Host.Cell :=
  tileWrites (decodeBlock f (gottenBlock f (s.setCursor c.1 c.2)))

/-- The blocks an image command reads whole, in order: those before the first with a read that faults, where the command
stops and "no later access is made" (60_exceptions.md R222). `reads` is what one block's body reads at the cursor. -/
def blocksRead (reads : State → List Nat) (s : State) : List (Nat × Nat) :=
  s.blocks.takeWhile fun c => !readsFault s.platform (reads (s.setCursor c.1 c.2))

/-- The byte writes of COMPRESS, in order, up to its first faulting read (R189, R222). -/
def compressWrites (f : Format) (s : State) : List Host.Cell :=
  (blocksRead tileReads s).flatMap (compressedBlockWrites f s)

/-- The byte writes of DECOMPRESS, in order, up to its first faulting read: the clear comes first (R190, R222). -/
def decompressWrites (f : Format) (s : State) : List Host.Cell :=
  clearWrites s ++ (blocksRead (blockReads f) s).flatMap (decompressedTileWrites f s)

/-- The byte writes of each command's body, in order, up to its first faulting read (R184 to R190, R222). -/
def commandWrites : Instr → State → List Host.Cell
  | .nop, _ | .encColor, _ | .decColor, _ | .encAlpha, _ | .decAlpha, _ | .encBc3, _ | .decBc3, _ => []
  | .loadTile, _ | .getBlockBc1, _ | .getBlockBc3, _ => []
  | .storeTile, s => tileWrites s
  | .putBlockBc1, s => blockWrites .bc1 s
  | .putBlockBc3, s => blockWrites .bc3 s
  | .clearRaw, s => clearWrites s
  | .compressBc1, s => compressWrites .bc1 s
  | .compressBc3, s => compressWrites .bc3 s
  | .decompressBc1, s => decompressWrites .bc1 s
  | .decompressBc3, s => decompressWrites .bc3 s

end Sys2Proof.Machine
end

