-- ==== Sys2Proof/Machine/Dispatch.lean ====
section
/-! DEFINITION. The dispatcher: one arm per instruction, one direct call of its meaning. -/

namespace Sys2Proof.Machine

/-- What an instruction does (40_host_interface.md R104). -/
def exec (i : Instr) (s : State) : Host.Outcome State Fault Refusal :=
  match i with
  | .nop => Sys2Proof.Machine.execNop s
  | .encColor => Sys2Proof.Machine.execEncColor s
  | .decColor => Sys2Proof.Machine.execDecColor s
  | .encAlpha => Sys2Proof.Machine.execEncAlpha s
  | .decAlpha => Sys2Proof.Machine.execDecAlpha s
  | .encBc3 => Sys2Proof.Machine.execEncBc3 s
  | .decBc3 => Sys2Proof.Machine.execDecBc3 s
  | .loadTile => Sys2Proof.Machine.execLoadTile s
  | .storeTile => Sys2Proof.Machine.execStoreTile s
  | .putBlockBc1 => Sys2Proof.Machine.execPutBlockBc1 s
  | .putBlockBc3 => Sys2Proof.Machine.execPutBlockBc3 s
  | .getBlockBc1 => Sys2Proof.Machine.execGetBlockBc1 s
  | .getBlockBc3 => Sys2Proof.Machine.execGetBlockBc3 s
  | .clearRaw => Sys2Proof.Machine.execClearRaw s
  | .compressBc1 => Sys2Proof.Machine.execCompressBc1 s
  | .compressBc3 => Sys2Proof.Machine.execCompressBc3 s
  | .decompressBc1 => Sys2Proof.Machine.execDecompressBc1 s
  | .decompressBc3 => Sys2Proof.Machine.execDecompressBc3 s

end Sys2Proof.Machine
end

