-- ==== Sys2Proof/Machine/Issue.lean ====
section
/-! DEFINITION. The host interface: the issue of a command (40_host_interface.md R104), register transactions (R100 to
R103), host accesses to system memory (20_memory.md R64), reset (70_reset_and_hazards.md R240) and reset during a
command (R241). -/

namespace Sys2Proof.Machine

/-- `issue(w)` (R104): an illegal word only sets ERRCODE to 1 (R76). -/
def issue (w : Word) (s : State) : Host.Outcome State Fault Refusal :=
  match decode w with
  | .error _ => .next (s.endCommand .illegalCommand)
  | .ok i => exec i s

/-- The response of an action that ends in a next state goes to its master. -/
def respondWith (r : Response) : Host.Outcome State Fault Refusal → Host.Outcome State Fault Refusal
  | .next s => .next (s.respond r)
  | .fault e => .fault e
  | .refused e => .refused e

/-- One legal transaction: a read (R100), a write to CMD, which completes when its command has ended (R104, R105), or
another write (R101, R102). -/
def transact (t : Transaction) (s : State) : Host.Outcome State Fault Refusal :=
  match t.dir with
  | .read => .next (s.respond (.data (busRead s t.offset)))
  | .write =>
    if t.offset = regOffset .cmd then respondWith .written (issue t.data s)
    else .next ((busWrite s t.offset t.data).respond .written)

/-- One transaction on the window: a narrow or misaligned one is refused (R103; log 7). -/
def serveBus (t : Transaction) (s : State) : Host.Outcome State Fault Refusal :=
  if t.wf then transact t s else .refused .illegalTransaction

/-- A device register lies at the address (R247). -/
def deviceAt (s : State) (a : Nat) : Bool := s.platform.deviceRegions.any fun r => r.contains a

/-- A completed host write of one byte of system memory (R64; log 16). -/
def hostWrite (a : Nat) (v : Byte) (s : State) : Host.Outcome State Fault Refusal :=
  if a ≥ Config.addressSpace then .fault .outsideAddressSpace
  else if deviceAt s a then .refused .hostAccessToDevice
  else .next ({ s with mem := s.mem.write a v }.respond .written)

/-- A host read of one byte of system memory (R64; log 16). -/
def hostRead (a : Nat) (s : State) : Host.Outcome State Fault Refusal :=
  if a ≥ Config.addressSpace then .fault .outsideAddressSpace
  else if deviceAt s a then .refused .hostAccessToDevice
  else .next (s.respond (.byte (s.mem.read a)))

/-- The writes a command makes from `s`: those before its first access that faults, read or write (R222). They are what
`exec` leaves in memory (`bodyOf_mem` of Laws/Exec.lean). -/
def writesUntilFault (i : Instr) (s : State) : List Host.Cell :=
  untilFault s.platform (commandWrites i s)

/-- The bytes a command stopped after `k` writes would still have written, less those it wrote (R241). -/
def unwrittenAddrs (i : Instr) (k : Nat) (s : State) : List Nat :=
  (((writesUntilFault i s).drop k).map Prod.fst).filter fun a =>
    !(((writesUntilFault i s).take k).any fun c => decide (c.1 = a))

/-- Memory after a command that reset stopped after `k` of its byte writes: "Memory bytes the command would have written
hold any value; those it wrote before reset keep what it wrote" (R241; log 10). -/
def stoppedMemory (i : Instr) (k : Nat) (s : State) : State :=
  { s with
    mem := scramble (s.mem.writeAll ((writesUntilFault i s).take k)) (unwrittenAddrs i k s) s.draws
    draws := s.draws + (unwrittenAddrs i k s).length }

/-- Reset during the command `w` (R241). A word that is illegal or fails a check writes no memory; a launch over devices
is refused as without reset. -/
def resetDuring (w : Word) (k : Nat) (s : State) : Host.Outcome State Fault Refusal :=
  match decode w with
  | .error _ => .next (s.applyReset.respond .aborted)
  | .ok i =>
    match firstFailure (formatOf i) s (checksOf i) with
    | some _ => .next (s.applyReset.respond .aborted)
    | none =>
      if usesDevice i s then .refused .bufferOverDevice
      else .next ((stoppedMemory i k s).applyReset.respond .aborted)

/-- One host action. -/
def serve (a : HostAction) (s : State) : Host.Outcome State Fault Refusal :=
  match a with
  | .bus t => serveBus t s
  | .memWrite addr v => hostWrite addr v s
  | .memRead addr => hostRead addr s
  | .reset => .next s.applyReset
  | .resetDuring w k => resetDuring w k s

/-- The transaction that writes a word to CMD (R23). -/
def cmdWrite (w : Word) : Transaction := { dir := .write, offset := regOffset .cmd, size := 4, data := w }

/-- What one step does to a machine whose oldest waiting action is taken: with nothing waiting "the engine waits for a
register transaction" (R242; log 8). -/
def serveNext (s : State) : Host.Outcome State Fault Refusal :=
  match s.pending with
  | [] => .next s
  | a :: rest => serve a { s with pending := rest }

/-- The state in which the next action is a CMD write of the word: how a command reaches the engine (R23, R33; log 1). -/
def State.withCommand (s : State) (w : Word) : State := { s with pending := .bus (cmdWrite w) :: s.pending }

end Sys2Proof.Machine
end

