-- ==== Sys2Proof/Machine/Script.lean ====
section
/-! DEFINITION. Host scripts: the lines `WR`, `RD`, `CMD` (30_encoding.md R78) and the pseudo-commands of R79, which
are other names for bus transactions. -/

namespace Sys2Proof.Machine

/-- `WR <REG>, <value>` (R78). -/
def scriptWr (r : Reg) (v : Word) : HostAction := .bus { dir := .write, offset := regOffset r, size := 4, data := v }

/-- `RD <REG>` (R78). -/
def scriptRd (r : Reg) : HostAction := .bus { dir := .read, offset := regOffset r, size := 4, data := 0#32 }

/-- `CMD <mnemonic>`: "same as WR CMD, <word of mnemonic>" (R78). -/
def scriptCmd (i : Instr) : HostAction := scriptWr .cmd (encode i)

/-- `MEM <addr>, <b0 b1 ...>`: no transaction of the engine, but bytes the host writes before the script (R78). -/
def scriptMem (a : Nat) (bytes : List Byte) : List HostAction :=
  (List.range bytes.length).map fun j => .memWrite (a + j) (bytes.getD j 0#8)

/-- `ENC_BC1` (R79). -/
def scriptEncBc1 : HostAction := scriptCmd .encColor

/-- `DEC_BC1` (R79). -/
def scriptDecBc1 : HostAction := scriptCmd .decColor

/-- `COMPRESS_BC3` (R79). -/
def scriptCompressBc3 : HostAction := scriptCmd .compressBc3

/-- `COMPRESS_BC1` (R79). -/
def scriptCompressBc1 : HostAction := scriptCmd .compressBc1

/-- `DECOMPRESS_BC1` (R79). -/
def scriptDecompressBc1 : HostAction := scriptCmd .decompressBc1

/-- `DECOMPRESS_BC3` (R79). -/
def scriptDecompressBc3 : HostAction := scriptCmd .decompressBc3

/-- `SETBLK bx, by` (R79). -/
def scriptSetBlk (x y : Word) : List HostAction := [scriptWr .blkX x, scriptWr .blkY y]

/-- The host loop that drives the tile primitives block by block as COMPRESS.BC1 does (95_test_vectors.md P3). -/
def scriptHostCompressBc1 (blocks : List (Nat × Nat)) : List HostAction :=
  blocks.flatMap fun c =>
    scriptSetBlk (BitVec.ofNat 32 c.1) (BitVec.ofNat 32 c.2)
      ++ [scriptCmd .loadTile, scriptEncBc1, scriptCmd .putBlockBc1]

end Sys2Proof.Machine
end

