-- ==== Sys2Proof/Machine/Step.lean ====
section
/-! DEFINITION. One step of the machine: the oldest waiting host action is served (40_host_interface.md R105). -/

namespace Sys2Proof.Machine

/-- One step. -/
def step (s : State) : Host.Outcome State Fault Refusal := serveNext s

/-- The state whose next step runs the command word `w`, of whose bits the first `nbits` count: a CMD write of it waits
first (R23, R104). The engine fetches nothing (R33, R68): this is how every command reaches it (log 1, log 18). -/
def State.withFetchWord (s : State) (nbits w : Nat) : State := s.withCommand (BitVec.ofNat 32 (w % 2 ^ nbits))

end Sys2Proof.Machine
end

