-- ==== Sys2Proof/Safety.lean ====
section
/-! DEFINITION. The terms claims use: the machine's invariant, and the spec's own quantities written over plain numbers,
apart from the machine's definitions (geometry, checks, block codec), so that a claim holds the machine against them. -/

namespace Sys2Proof.Machine

/-- The invariant every step keeps: memory in its canonical form, inside the address space (20_memory.md R50), and
STATUS.ERRCODE one of the codes 0 to 7 ("8..15: never written", 60_exceptions.md R220). -/
def Inv (s : State) : Prop := s.mem.wf = true ∧ s.errcode.toNat ≤ 7

end Sys2Proof.Machine

namespace Sys2Proof.Spec

open Sys2Proof.Machine

/-! ### Searches -/

/-- `first_argmin` (00_scope.md R10): the smallest index whose value is minimal. -/
def IsFirstArgmin (n : Nat) (f : Nat → Int) (i : Nat) : Prop :=
  i < n ∧ (∀ j, j < n → f i ≤ f j) ∧ ∀ j, j < i → f i < f j

/-- `first_argmax` (R10): the smallest index whose value is maximal. -/
def IsFirstArgmax (n : Nat) (f : Nat → Int) (i : Nat) : Prop :=
  i < n ∧ (∀ j, j < n → f j ≤ f i) ∧ ∀ j, j < i → f j < f i

/-! ### Geometry and addresses -/

/-- `GX` (43_tiler.md R180). -/
def gx (s : State) : Nat := (s.width.toNat + 3) / 4

/-- `GY` (R180). -/
def gy (s : State) : Nat := (s.height.toNat + 3) / 4

/-- The stride of a format (30_encoding.md R72). -/
def stride : Format → Nat
  | .bc1 => 8
  | .bc3 => 16

/-- `inb(bx, by, k)` (R182, R183). -/
def InImage (s : State) (x y k : Nat) : Prop := 4 * x + k % 4 < s.width.toNat ∧ 4 * y + k / 4 < s.height.toNat

/-- The address of channel `c` of entry `k` of block `(x, y)` in the raw buffer (R53, R182). -/
def pixelByte (s : State) (x y k c : Nat) : Nat :=
  s.rawBase.toNat + ((4 * y + k / 4) * s.width.toNat + (4 * x + k % 4)) * 4 + c

/-- The address of byte `j` of block `(x, y)` in the compressed buffer (R54, R181). -/
def blockByte (f : Format) (s : State) (x y j : Nat) : Nat := s.cmpBase.toNat + (y * gx s + x) * stride f + j

/-- `a` is a byte of the buffer at `base` of length `len`. -/
def InBuffer (base len a : Nat) : Prop := base ≤ a ∧ a < base + len

/-- `a` is a byte of the raw image buffer (R50). -/
def InRaw (s : State) (a : Nat) : Prop := InBuffer s.rawBase.toNat s.rawLen.toNat a

/-- `a` is a byte of the compressed stream buffer (R50). -/
def InCmp (s : State) (a : Nat) : Prop := InBuffer s.cmpBase.toNat s.cmpLen.toNat a

/-- No device register lies in the buffer (70_reset_and_hazards.md R247). -/
def ClearOfDevices (s : State) (base len : Nat) : Prop :=
  ∀ r, r ∈ s.platform.deviceRegions → ∀ a, InBuffer base len a → ¬ InBuffer r.base r.len a

/-- The buffer holds a byte of a device register (R247). -/
def CoversDevice (s : State) (base len : Nat) : Prop :=
  ∃ r, r ∈ s.platform.deviceRegions ∧ ∃ a, InBuffer base len a ∧ InBuffer r.base r.len a

/-! ### Checks -/

/-- DIM fails (40_host_interface.md R107). -/
def DimFails (s : State) : Prop := s.width.getLsbD 31 = true ∨ s.height.getLsbD 31 = true

/-- RAW_SIZE fails (R108). -/
def RawSizeFails (s : State) : Prop := s.rawLen.toNat ≠ s.width.toNat * s.height.toNat * 4

/-- CMP_SIZE fails (R109). -/
def CmpSizeFails (f : Format) (s : State) : Prop := s.cmpLen.toNat ≠ gx s * gy s * stride f

/-- RAW_RANGE fails (R110). -/
def RawRangeFails (s : State) : Prop := s.rawBase.toNat + s.rawLen.toNat > 2 ^ 32

/-- CMP_RANGE fails (R110). -/
def CmpRangeFails (s : State) : Prop := s.cmpBase.toNat + s.cmpLen.toNat > 2 ^ 32

/-- OVERLAP fails: "when the two buffers share a byte" (R111). -/
def OverlapFails (s : State) : Prop := ∃ a, InRaw s a ∧ InCmp s a

/-- BLOCK fails (R112). -/
def BlockFails (s : State) : Prop := s.blkX.toNat ≥ gx s ∨ s.blkY.toNat ≥ gy s

/-- What each command checks, in order, and the code each check reports: the table of R106. -/
def failures (i : Instr) (s : State) : List (Prop × BitVec 4) :=
  match i with
  | .nop | .encColor | .decColor | .encAlpha | .decAlpha | .encBc3 | .decBc3 => []
  | .loadTile | .storeTile => [(DimFails s, 2#4), (RawSizeFails s, 3#4), (RawRangeFails s, 4#4), (BlockFails s, 6#4)]
  | .putBlockBc1 | .getBlockBc1 =>
    [(DimFails s, 2#4), (CmpSizeFails .bc1 s, 3#4), (CmpRangeFails s, 4#4), (BlockFails s, 6#4)]
  | .putBlockBc3 | .getBlockBc3 =>
    [(DimFails s, 2#4), (CmpSizeFails .bc3 s, 3#4), (CmpRangeFails s, 4#4), (BlockFails s, 6#4)]
  | .clearRaw => [(DimFails s, 2#4), (RawSizeFails s, 3#4), (RawRangeFails s, 4#4)]
  | .compressBc1 | .decompressBc1 =>
    [(DimFails s, 2#4), (RawSizeFails s, 3#4), (CmpSizeFails .bc1 s, 3#4), (RawRangeFails s, 4#4),
      (CmpRangeFails s, 4#4), (OverlapFails s, 5#4)]
  | .compressBc3 | .decompressBc3 =>
    [(DimFails s, 2#4), (RawSizeFails s, 3#4), (CmpSizeFails .bc3 s, 3#4), (RawRangeFails s, 4#4),
      (CmpRangeFails s, 4#4), (OverlapFails s, 5#4)]

/-- The first of a list of checks that fails reports `c` (60_exceptions.md R223). -/
def FirstFails : List (Prop × BitVec 4) → BitVec 4 → Prop
  | [], _ => False
  | (p, d) :: rest, c => (p ∧ c = d) ∨ (¬ p ∧ FirstFails rest c)

/-- Every check of the raw buffer passes (R107, R108, R110). -/
def RawReady (s : State) : Prop := ¬ DimFails s ∧ ¬ RawSizeFails s ∧ ¬ RawRangeFails s

/-- Every check of the compressed buffer passes (R107, R109, R110). -/
def CmpReady (f : Format) (s : State) : Prop := ¬ DimFails s ∧ ¬ CmpSizeFails f s ∧ ¬ CmpRangeFails s

/-- Every check of an image command passes, and no device lies in its buffers (R106, R247). -/
def ImageReady (f : Format) (s : State) : Prop :=
  RawReady s ∧ CmpReady f s ∧ ¬ OverlapFails s ∧ ClearOfDevices s s.rawBase.toNat s.rawLen.toNat ∧
    ClearOfDevices s s.cmpBase.toNat s.cmpLen.toNat

/-- The instruction uses the raw buffer (R106: it checks its size and range). -/
def UsesRaw (i : Instr) : Prop :=
  i ∈ [Instr.loadTile, .storeTile, .clearRaw, .compressBc1, .compressBc3, .decompressBc1, .decompressBc3]

/-- The instruction uses the compressed buffer (R106). -/
def UsesCmp (i : Instr) : Prop :=
  i ∈ [Instr.putBlockBc1, .putBlockBc3, .getBlockBc1, .getBlockBc3, .compressBc1, .compressBc3, .decompressBc1,
    .decompressBc3]

/-- A buffer the command uses covers a device register (R247). -/
def LaunchOverDevice (i : Instr) (s : State) : Prop :=
  (UsesRaw i ∧ CoversDevice s s.rawBase.toNat s.rawLen.toNat) ∨ (UsesCmp i ∧ CoversDevice s s.cmpBase.toNat s.cmpLen.toNat)

/-! ### The colour codec in numbers -/

/-- Channel 0 (R), 1 (G), 2 (B) or 3 (A) of a pixel. -/
def channel (p : Pixel) (c : Nat) : Byte :=
  match c with
  | 0 => p.r
  | 1 => p.g
  | 2 => p.b
  | _ => p.a

/-- `rgb_to_565` (41_color_codec.md R120). -/
def quantize (r g b : Nat) : Nat := r / 8 * 2048 + g / 4 * 32 + b / 8

/-- Channel `c` of `rgb565_to_888` (R121). -/
def expand (v c : Nat) : Nat :=
  match c with
  | 0 => v / 2048 * 8
  | 1 => v / 32 % 64 * 4
  | _ => v % 32 * 8

/-- Channel `c` of `EPAL[j]` (R125). -/
def encEntry (c0 c1 j c : Nat) : Nat :=
  match j with
  | 0 => expand c0 c
  | 1 => expand c1 c
  | 2 => (2 * expand c0 c + expand c1 c) / 3
  | _ => (expand c0 c + 2 * expand c1 c) / 3

/-- Channel `c` of `DPAL[j]` (R128). -/
def decEntry (c0 c1 j c : Nat) : Nat :=
  if c0 > c1 then (if c = 3 then 255 else encEntry c0 c1 j c)
  else
    match j with
    | 0 => if c = 3 then 255 else expand c0 c
    | 1 => if c = 3 then 255 else expand c1 c
    | 2 => if c = 3 then 255 else (expand c0 c + expand c1 c) / 2
    | _ => 0

/-- `2*R + 4*G + B` (R123). -/
def lum (p : Pixel) : Int := 2 * p.r.toNat + 4 * p.g.toNat + p.b.toNat

/-- The squared distance of a pixel to `EPAL[j]` (R126). -/
def sqDist (p : Pixel) (c0 c1 j : Nat) : Int :=
  ((p.r.toNat : Int) - encEntry c0 c1 j 0) ^ 2 + ((p.g.toNat : Int) - encEntry c0 c1 j 1) ^ 2 +
    ((p.b.toNat : Int) - encEntry c0 c1 j 2) ^ 2

/-- Byte `j` of a sub-block, as a number. -/
def byteNum (b : Vector Byte 8) (j : Nat) : Nat := (byteAt b j).toNat

/-- `color0` of a colour sub-block (R55). -/
def color0 (b : Vector Byte 8) : Nat := byteNum b 0 + 256 * byteNum b 1

/-- `color1` of a colour sub-block (R55). -/
def color1 (b : Vector Byte 8) : Nat := byteNum b 2 + 256 * byteNum b 3

/-- Pixel `k`'s 2-bit index of a colour sub-block (R55). -/
def colourIdx (b : Vector Byte 8) (k : Nat) : Nat :=
  (byteNum b 4 + 256 * byteNum b 5 + 65536 * byteNum b 6 + 16777216 * byteNum b 7) / 4 ^ k % 4

/-- `b` is the colour encoding of the block `p` (R122 to R127). -/
def IsColourEncoding (p : Vector Pixel 16) (b : Vector Byte 8) : Prop :=
  (∃ i, IsFirstArgmin 16 (fun k => lum (pixAt p k)) i ∧
      color0 b = quantize (pixAt p i).r.toNat (pixAt p i).g.toNat (pixAt p i).b.toNat) ∧
    (∃ i, IsFirstArgmax 16 (fun k => lum (pixAt p k)) i ∧
      color1 b = quantize (pixAt p i).r.toNat (pixAt p i).g.toNat (pixAt p i).b.toNat) ∧
    ∀ k, k < 16 → IsFirstArgmin 4 (fun j => sqDist (pixAt p k) (color0 b) (color1 b) j) (colourIdx b k)

/-- The pixel `q` is what the colour sub-block `b` decodes to at `k` (R128, R129), in channels below `n`. -/
def IsColourDecoding (n : Nat) (b : Vector Byte 8) (k : Nat) (q : Pixel) : Prop :=
  ∀ c, c < n → (channel q c).toNat = decEntry (color0 b) (color1 b) (colourIdx b k) c

/-! ### The alpha codec in numbers -/

/-- `APAL[j]` (42_alpha_codec.md R151). -/
def alphaEntry (a0 a1 j : Nat) : Nat :=
  if j = 0 then a0
  else if j = 1 then a1
  else if a0 > a1 then ((8 - j) * a0 + (j - 1) * a1) / 7
  else if j = 6 then 0
  else if j = 7 then 255
  else ((6 - j) * a0 + (j - 1) * a1) / 5

/-- Pixel `k`'s 3-bit index of an alpha sub-block (R56). -/
def alphaIdx (b : Vector Byte 8) (k : Nat) : Nat :=
  (byteNum b 2 + 2 ^ 8 * byteNum b 3 + 2 ^ 16 * byteNum b 4 + 2 ^ 24 * byteNum b 5 + 2 ^ 32 * byteNum b 6 +
    2 ^ 40 * byteNum b 7) / 8 ^ k % 8

/-- `b` is the alpha encoding of the block `p` (R150 to R153). -/
def IsAlphaEncoding (p : Vector Pixel 16) (b : Vector Byte 8) : Prop :=
  ((∃ k, k < 16 ∧ byteNum b 0 = (pixAt p k).a.toNat) ∧ ∀ k, k < 16 → byteNum b 0 ≤ (pixAt p k).a.toNat) ∧
    ((∃ k, k < 16 ∧ byteNum b 1 = (pixAt p k).a.toNat) ∧ ∀ k, k < 16 → (pixAt p k).a.toNat ≤ byteNum b 1) ∧
    ∀ k, k < 16 →
      IsFirstArgmin 8 (fun j => |((pixAt p k).a.toNat : Int) - alphaEntry (byteNum b 0) (byteNum b 1) j|) (alphaIdx b k)

/-- The alpha that the sub-block `b` decodes to at `k` (R154). -/
def decodedAlpha (b : Vector Byte 8) (k : Nat) : Nat := alphaEntry (byteNum b 0) (byteNum b 1) (alphaIdx b k)

/-! ### Blocks in memory -/

/-- Entry `k` of the tile of block `(x, y)`: the raw pixel, or padding (R183, R184). -/
def IsTilePixel (s : State) (x y k : Nat) (q : Pixel) : Prop :=
  (InImage s x y k → ∀ c, c < 4 → channel q c = s.mem.read (pixelByte s x y k c)) ∧ (¬ InImage s x y k → q = Pixel.zero)

/-- `p` is the tile of block `(x, y)` (R184). -/
def IsTile (s : State) (x y : Nat) (p : Vector Pixel 16) : Prop := ∀ k, k < 16 → IsTilePixel s x y k (pixAt p k)

/-- `b` holds the eight bytes of memory from address `a`. -/
def HoldsBytes (m : Memory) (a : Nat) (b : Vector Byte 8) : Prop := ∀ j, j < 8 → byteAt b j = m.read (a + j)

/-- The instruction PUT_BLOCK of each format (R186). -/
def putBlockOf : Format → Instr
  | .bc1 => .putBlockBc1
  | .bc3 => .putBlockBc3

/-- The instruction GET_BLOCK of each format (R187). -/
def getBlockOf : Format → Instr
  | .bc1 => .getBlockBc1
  | .bc3 => .getBlockBc3

/-- The instruction COMPRESS of each format (R189). -/
def compressOf : Format → Instr
  | .bc1 => .compressBc1
  | .bc3 => .compressBc3

/-- The instruction DECOMPRESS of each format (R190). -/
def decompressOf : Format → Instr
  | .bc1 => .decompressBc1
  | .bc3 => .decompressBc3

/-- Byte `j` of a block of the format: for BC3 the alpha sub-block, then the colour sub-block (R55, R56). -/
def blockImage (f : Format) (alpha colour : Vector Byte 8) (j : Nat) : Byte :=
  match f with
  | .bc1 => byteAt colour j
  | .bc3 => if j < 8 then byteAt alpha j else byteAt colour (j - 8)

/-- `q` is what the block at `(x, y)` of the compressed buffer decodes to at `k` (R129, R154, R158, R190). -/
def IsDecodedPixel (f : Format) (s : State) (x y k : Nat) (q : Pixel) : Prop :=
  match f with
  | .bc1 => ∃ b, HoldsBytes s.mem (blockByte .bc1 s x y 0) b ∧ IsColourDecoding 4 b k q
  | .bc3 =>
    ∃ a b, HoldsBytes s.mem (blockByte .bc3 s x y 0) a ∧ HoldsBytes s.mem (blockByte .bc3 s x y 8) b ∧
      IsColourDecoding 3 b k q ∧ q.a.toNat = decodedAlpha a k

/-- No raw byte of block `(x, y)` faults on an access in the given direction (R182, R222). -/
def TileAnswers (s : State) (d : Dir) (x y : Nat) : Prop :=
  ∀ k c, k < 16 → c < 4 → InImage s x y k → s.platform.busFault (pixelByte s x y k c) d = false

/-- No compressed byte of block `(x, y)` faults on an access in the given direction (R181, R222). -/
def BlockAnswers (f : Format) (s : State) (d : Dir) (x y : Nat) : Prop :=
  ∀ j, j < stride f → s.platform.busFault (blockByte f s x y j) d = false

/-- Block `(x', y')` comes before block `(x, y)` in row-major order (R180, R189). -/
def BlockBefore (x' y' x y : Nat) : Prop := y' < y ∨ (y' = y ∧ x' < x)

/-- Byte `j` of block `(x', y')` comes before byte `n` of block `(x, y)` in the order COMPRESS writes (R186, R189). -/
def ByteBefore (x' y' j x y n : Nat) : Prop := BlockBefore x' y' x y ∨ (x' = x ∧ y' = y ∧ j < n)

/-- All registers hold their reset values (10_state.md R42). -/
def RegistersReset (t : State) : Prop :=
  t.errcode = 0#4 ∧ t.width = 0#32 ∧ t.height = 0#32 ∧ t.rawBase = 0#32 ∧ t.rawLen = 0#32 ∧ t.cmpBase = 0#32 ∧
    t.cmpLen = 0#32 ∧ t.blkX = 0#32 ∧ t.blkY = 0#32 ∧ (∀ k, k < 16 → pixAt t.pix k = ⟨0#8, 0#8, 0#8, 0#8⟩) ∧
    ∀ j, j < 8 → byteAt t.ablk j = 0#8 ∧ byteAt t.cblk j = 0#8

/-- The instruction stores to the raw buffer (R185, R188, R190). -/
def StoresRaw (i : Instr) : Prop := i = .storeTile ∨ i = .clearRaw ∨ i = .decompressBc1 ∨ i = .decompressBc3

/-- The instruction stores to the compressed buffer (R186, R189). -/
def StoresCmp (i : Instr) : Prop := i = .putBlockBc1 ∨ i = .putBlockBc3 ∨ i = .compressBc1 ∨ i = .compressBc3

end Sys2Proof.Spec
end

