-- ==== Sys2Proof/Certificates/Slice0/Obligations.lean ====
section
/-! DEFINITION. The statements for the provers. Each docstring names the rules of spec/ it formalises; a statement that
rests on a choice of the model says so. -/

open Sys2Proof Sys2Proof.Machine Sys2Proof.Spec

/-! ### Encoding -/

/-- A few command words written out field by field (RSV, F, OP) from R70 and R74 decode to their instructions. -/
def Obligations.SampleWordsDecode : Prop :=
  decode (0b00000000000000000000000_0_00000001#32) = .ok .encColor ∧
    decode (0b00000000000000000000000_0_00000110#32) = .ok .decBc3 ∧
    decode (0b00000000000000000000000_1_00001010#32) = .ok .putBlockBc3 ∧
    decode (0b00000000000000000000000_0_00001100#32) = .ok .clearRaw ∧
    decode (0b00000000000000000000000_1_00010001#32) = .ok .decompressBc3

/-- Decode and encode agree on every word: a word decodes to an instruction exactly when it is that instruction's
encoding (R70, R74, R75). -/
def Obligations.DecodeEncodeAgree : Prop := ∀ (w : Word) (i : Instr), decode w = .ok i ↔ w = encode i

/-- The opcode map: the 18 words of the table, with these values, are all the legal commands (R74). -/
def Obligations.OpcodeMapIsWhole : Prop :=
  ∀ (w : Word) (i : Instr), decode w = .ok i ↔
    (w, i) ∈ [(0x00000000#32, Instr.nop), (0x00000001#32, .encColor), (0x00000002#32, .decColor),
      (0x00000003#32, .encAlpha), (0x00000004#32, .decAlpha), (0x00000005#32, .encBc3), (0x00000006#32, .decBc3),
      (0x00000008#32, .loadTile), (0x00000009#32, .storeTile), (0x0000000A#32, .putBlockBc1),
      (0x0000010A#32, .putBlockBc3), (0x0000000B#32, .getBlockBc1), (0x0000010B#32, .getBlockBc3),
      (0x0000000C#32, .clearRaw), (0x00000010#32, .compressBc1), (0x00000110#32, .compressBc3),
      (0x00000011#32, .decompressBc1), (0x00000111#32, .decompressBc3)]

/-- Illegal words, and what writing one to CMD does: ERRCODE 1 and no other change of state (R76). -/
def Obligations.IllegalWordsOnlySetErrcode : Prop :=
  (∀ w : Word, (∃ e, decode w = .error e) ↔
      w.toNat / 512 ≠ 0 ∨
        (w.toNat % 256 = 0x07 ∨ w.toNat % 256 = 0x0D ∨ w.toNat % 256 = 0x0E ∨ w.toNat % 256 = 0x0F ∨
          0x12 ≤ w.toNat % 256) ∨
        (w.getLsbD 8 = true ∧
          (w.toNat % 256 ≤ 0x06 ∨ w.toNat % 256 = 0x08 ∨ w.toNat % 256 = 0x09 ∨ w.toNat % 256 = 0x0C))) ∧
    ∀ (w : Word) (s : State) (rest : List HostAction),
      (∃ e, decode w = .error e) →
      s.pending = .bus { dir := .write, offset := 0x04#8, size := 4, data := w } :: rest →
        step s = .next { s with pending := rest, responses := s.responses ++ [.written], errcode := 1#4 }

/-! ### Steps and the register window -/

/-- A step runs the decoded instruction: when the oldest waiting action is a CMD write of a legal word, the step is
`exec` of its instruction, with the write's response after the command has ended (R104, R105). -/
def Obligations.StepRunsDecodedCommand : Prop :=
  ∀ (s : State) (rest : List HostAction) (w : Word) (i : Instr),
    s.pending = .bus { dir := .write, offset := 0x04#8, size := 4, data := w } :: rest →
    decode w = .ok i →
      (∀ t, exec i { s with pending := rest } = .next t →
        step s = .next { t with responses := t.responses ++ [.written] }) ∧
      (∀ r, exec i { s with pending := rest } = .refused r → step s = .refused r)

/-- With no action waiting the engine waits (R242; the idle step is the model's, log 8). -/
def Obligations.IdleEngineWaits : Prop := ∀ s : State, s.pending = [] → step s = .next s

/-- Waiting actions are served in arrival order, one a step, each with at most one response (R105; the list of actions
is the model's, log 1). -/
def Obligations.ActionsServedInArrivalOrder : Prop :=
  ∀ (s t : State) (a : HostAction) (rest : List HostAction),
    s.pending = a :: rest → step s = .next t →
      t.pending = rest ∧ (t.responses = s.responses ∨ ∃ r, t.responses = s.responses ++ [r])

/-- What an aligned 32-bit read at each offset returns, with no side effect (R100; the window's map is R20). -/
def Obligations.RegisterReadReturns : Prop :=
  ∀ (s : State) (rest : List HostAction) (o : BitVec 8) (d : Word),
    s.pending = .bus { dir := .read, offset := o, size := 4, data := d } :: rest → o.toNat % 4 = 0 →
      ∃ v : Word,
        step s = .next { s with pending := rest, responses := s.responses ++ [.data v] } ∧
        (o.toNat = 0x00 → v = 0x42430F01#32) ∧ (o.toNat = 0x04 → v = 0#32) ∧
        (o.toNat = 0x08 → v.toNat = s.errcode.toNat) ∧
        (o.toNat = 0x0C → v = s.width) ∧ (o.toNat = 0x10 → v = s.height) ∧
        (o.toNat = 0x14 → v = s.rawBase) ∧ (o.toNat = 0x18 → v = s.rawLen) ∧
        (o.toNat = 0x1C → v = s.cmpBase) ∧ (o.toNat = 0x20 → v = s.cmpLen) ∧
        (o.toNat = 0x24 → v = s.blkX) ∧ (o.toNat = 0x28 → v = s.blkY) ∧
        (∀ k, k < 16 → o.toNat = 0x40 + 4 * k → v.toNat =
          (pixAt s.pix k).r.toNat + 2 ^ 8 * (pixAt s.pix k).g.toNat + 2 ^ 16 * (pixAt s.pix k).b.toNat +
            2 ^ 24 * (pixAt s.pix k).a.toNat) ∧
        (∀ j, j < 2 → o.toNat = 0x80 + 4 * j → v.toNat =
          byteNum s.ablk (4 * j) + 2 ^ 8 * byteNum s.ablk (4 * j + 1) + 2 ^ 16 * byteNum s.ablk (4 * j + 2) +
            2 ^ 24 * byteNum s.ablk (4 * j + 3)) ∧
        (∀ j, j < 2 → o.toNat = 0x88 + 4 * j → v.toNat =
          byteNum s.cblk (4 * j) + 2 ^ 8 * byteNum s.cblk (4 * j + 1) + 2 ^ 16 * byteNum s.cblk (4 * j + 2) +
            2 ^ 24 * byteNum s.cblk (4 * j + 3)) ∧
        (0x2C ≤ o.toNat ∧ o.toNat < 0x40 ∨ 0x90 ≤ o.toNat → v = 0#32)

/-- What an aligned 32-bit write at each register's offset does, and that it changes nothing else; a write to CMD issues
its word (R101). -/
def Obligations.RegisterWriteStores : Prop :=
  ∀ (s : State) (rest : List HostAction) (o : BitVec 8) (v : Word),
    s.pending = .bus { dir := .write, offset := o, size := 4, data := v } :: rest →
      let u := { s with pending := rest, responses := s.responses ++ [Response.written] }
      (o.toNat = 0x04 → (∀ e, decode v = .error e → step s = .next { u with errcode := 1#4 }) ∧
        ∀ i t, decode v = .ok i → exec i { s with pending := rest } = .next t →
          step s = .next { t with responses := t.responses ++ [.written] }) ∧
      (o.toNat = 0x0C → step s = .next { u with width := v }) ∧
      (o.toNat = 0x10 → step s = .next { u with height := v }) ∧
      (o.toNat = 0x14 → step s = .next { u with rawBase := v }) ∧
      (o.toNat = 0x18 → step s = .next { u with rawLen := v }) ∧
      (o.toNat = 0x1C → step s = .next { u with cmpBase := v }) ∧
      (o.toNat = 0x20 → step s = .next { u with cmpLen := v }) ∧
      (o.toNat = 0x24 → step s = .next { u with blkX := v }) ∧
      (o.toNat = 0x28 → step s = .next { u with blkY := v }) ∧
      (∀ k, k < 16 → o.toNat = 0x40 + 4 * k → ∃ p, step s = .next { u with pix := p } ∧
        ((pixAt p k).r.toNat = v.toNat % 256 ∧ (pixAt p k).g.toNat = v.toNat / 2 ^ 8 % 256 ∧
          (pixAt p k).b.toNat = v.toNat / 2 ^ 16 % 256 ∧ (pixAt p k).a.toNat = v.toNat / 2 ^ 24) ∧
        ∀ i, i < 16 → i ≠ k → pixAt p i = pixAt s.pix i) ∧
      (∀ j, j < 2 → o.toNat = 0x80 + 4 * j → ∃ b, step s = .next { u with ablk := b } ∧
        ∀ i, i < 8 → byteNum b i = if i / 4 = j then v.toNat / 256 ^ (i % 4) % 256 else byteNum s.ablk i) ∧
      (∀ j, j < 2 → o.toNat = 0x88 + 4 * j → ∃ b, step s = .next { u with cblk := b } ∧
        ∀ i, i < 8 → byteNum b i = if i / 4 = j then v.toNat / 256 ^ (i % 4) % 256 else byteNum s.cblk i)

/-- An aligned 32-bit write to ID, STATUS or an unmapped offset is accepted and changes no state (R102). -/
def Obligations.IgnoredWritesChangeNothing : Prop :=
  ∀ (s : State) (rest : List HostAction) (o : BitVec 8) (v : Word),
    s.pending = .bus { dir := .write, offset := o, size := 4, data := v } :: rest → o.toNat % 4 = 0 →
    (o.toNat = 0x00 ∨ o.toNat = 0x08 ∨ (0x2C ≤ o.toNat ∧ o.toNat < 0x40) ∨ 0x90 ≤ o.toNat) →
      step s = .next { s with pending := rest, responses := s.responses ++ [.written] }

/-- A narrow or misaligned transaction is refused (R103: "A model refuses such a transaction"). -/
def Obligations.IllegalTransactionsRefused : Prop :=
  ∀ (s : State) (rest : List HostAction) (t : Transaction),
    s.pending = .bus t :: rest → (t.size ≠ 4 ∨ t.offset.toNat % 4 ≠ 0) → step s = .refused .illegalTransaction

/-- A read-write register reads back the word last written to it: "All 32 bits are stored as written and read back as
written" (R25 to R32, R35 to R37). -/
def Obligations.WrittenRegisterReadsBack : Prop :=
  ∀ (s t u : State) (rest : List HostAction) (o : BitVec 8) (v d : Word),
    o.toNat % 4 = 0 → (0x0C ≤ o.toNat ∧ o.toNat < 0x2C) ∨ (0x40 ≤ o.toNat ∧ o.toNat < 0x90) →
    s.pending = .bus { dir := .write, offset := o, size := 4, data := v } ::
      .bus { dir := .read, offset := o, size := 4, data := d } :: rest →
    step s = .next t → step t = .next u → u.responses = s.responses ++ [Response.written, Response.data v]

/-- A completed host write is what memory holds at that byte, and no other byte or register changes (R64; host accesses
as actions of their own are the model's, log 16). -/
def Obligations.HostWriteIsVisible : Prop :=
  ∀ (s : State) (rest : List HostAction) (a : Nat) (v : Byte),
    s.mem.wf = true → s.pending = .memWrite a v :: rest → a < 2 ^ 32 →
    (∀ r, r ∈ s.platform.deviceRegions → ¬ InBuffer r.base r.len a) →
      ∃ m, step s = .next { s with pending := rest, mem := m, responses := s.responses ++ [.written] } ∧
        m.read a = v ∧ ∀ b, b ≠ a → m.read b = s.mem.read b

/-- A host read returns the byte memory holds and changes nothing (R64; log 16). -/
def Obligations.HostReadReturnsMemory : Prop :=
  ∀ (s : State) (rest : List HostAction) (a : Nat),
    s.pending = .memRead a :: rest → a < 2 ^ 32 →
    (∀ r, r ∈ s.platform.deviceRegions → ¬ InBuffer r.base r.len a) →
      step s = .next { s with pending := rest, responses := s.responses ++ [.byte (s.mem.read a)] }

/-! ### Reset -/

/-- The state after reset: every register at the value of R42's table (the spec's values; the values of memory, of what
waits and of the platform are the model's, logs 1 to 4, and no clause speaks of them). -/
def Obligations.ResetRegistersAreZero : Prop :=
  State.reset.errcode = 0#4 ∧ State.reset.width = 0#32 ∧ State.reset.height = 0#32 ∧ State.reset.rawBase = 0#32 ∧
    State.reset.rawLen = 0#32 ∧ State.reset.cmpBase = 0#32 ∧ State.reset.cmpLen = 0#32 ∧ State.reset.blkX = 0#32 ∧
    State.reset.blkY = 0#32 ∧ (∀ k, k < 16 → pixAt State.reset.pix k = ⟨0#8, 0#8, 0#8, 0#8⟩) ∧
    ∀ j, j < 8 → byteAt State.reset.ablk j = 0#8 ∧ byteAt State.reset.cblk j = 0#8

/-- Reset sets every register to the value of R42 and does not touch system memory, from every state (R240, R42). That
what still waits and the platform's parameters stay is the model's (log 9). -/
def Obligations.ResetActionResetsRegisters : Prop :=
  ∀ (s : State) (rest : List HostAction), s.pending = .reset :: rest →
    ∃ t, step s = .next t ∧ t.mem = s.mem ∧ t.pending = rest ∧ t.platform = s.platform ∧
      t.errcode = 0#4 ∧ t.width = 0#32 ∧ t.height = 0#32 ∧ t.rawBase = 0#32 ∧ t.rawLen = 0#32 ∧
      t.cmpBase = 0#32 ∧ t.cmpLen = 0#32 ∧ t.blkX = 0#32 ∧ t.blkY = 0#32 ∧
      (∀ k, k < 16 → pixAt t.pix k = ⟨0#8, 0#8, 0#8, 0#8⟩) ∧
      ∀ j, j < 8 → byteAt t.ablk j = 0#8 ∧ byteAt t.cblk j = 0#8

/-- Reset during a command, whatever the word and the count: registers take their reset values; and the action answers a
next state, but for a launch that has passed its checks over a device register (R241; the action and its count `k` are the
model's, log 10; when a launch is refused is log 6). -/
def Obligations.ResetDuringResetsRegisters : Prop :=
  ∀ (s : State) (rest : List HostAction) (w : Word) (k : Nat),
    s.pending = .resetDuring w k :: rest →
      (∀ t, step s = .next t → RegistersReset t) ∧
      ((∀ i, decode w = .ok i → (∃ c, FirstFails (failures i s) c) ∨ ¬ LaunchOverDevice i s) → ∃ t, step s = .next t)

/-- Reset during CLEAR_RAW after `k` of its byte writes: registers take their reset values, the bytes written before
reset keep what the command wrote, and no byte outside the raw buffer changes; of the buffer's other bytes nothing is
said (R241; the count `k` is the model's, log 10). -/
def Obligations.ResetDuringClearRaw : Prop :=
  ∀ (s : State) (rest : List HostAction) (k : Nat),
    s.pending = .resetDuring 0x0000000C#32 k :: rest → s.mem.wf = true → RawReady s →
    ClearOfDevices s s.rawBase.toNat s.rawLen.toNat →
    (∀ a, InRaw s a → s.platform.busFault a .write = false) →
      ∃ t, step s = .next t ∧ RegistersReset t ∧
        (∀ n, n < k → n < s.rawLen.toNat → t.mem.read (s.rawBase.toNat + n) = 0#8) ∧
        ∀ a, ¬ InRaw s a → t.mem.read a = s.mem.read a

/-- A reset during a command after the last of its writes leaves exactly the memory the command leaves, bus errors
included; of a reset after fewer writes nothing is said (R241, R222; the count is the model's, log 10). -/
def Obligations.ResetAfterLastWriteLeavesCommandMemory : Prop :=
  ∀ (i : Instr) (s t : State) (rest : List HostAction), exec i { s with pending := rest } = .next t →
    ∃ n, ∀ k, n ≤ k →
      ∃ u, step { s with pending := .resetDuring (encode i) k :: rest } = .next u ∧ RegistersReset u ∧ u.mem = t.mem

/-- Reset during any command changes no byte of memory the command does not store to: none outside the destination
buffer the registers held (R241, R50). -/
def Obligations.ResetDuringStaysInDestination : Prop :=
  ∀ (s t : State) (rest : List HostAction) (w : Word) (k a : Nat),
    s.pending = .resetDuring w k :: rest → step s = .next t →
    t.mem.read a ≠ s.mem.read a →
      ∃ i, decode w = .ok i ∧ ((StoresRaw i ∧ InRaw s a) ∨ (StoresCmp i ∧ InCmp s a))

/-! ### Invariant -/

/-- The invariant holds after reset. -/
def Obligations.ResetMeetsInvariant : Prop := Inv State.reset

/-- Every step keeps the invariant: memory stays canonical and inside the address space, and ERRCODE stays one of the
codes 0 to 7 (R50, R220). -/
def Obligations.StepKeepsInvariant : Prop := ∀ s t : State, Inv s → step s = .next t → Inv t

/-! ### Checks, refusal, completion in general -/

/-- The first failing check, in the order of the table, decides the code, and the command then changes nothing but
STATUS (R106 to R112, R221, R223). -/
def Obligations.FirstFailingCheckDecides : Prop :=
  ∀ (i : Instr) (s : State) (c : BitVec 4), FirstFails (failures i s) c → exec i s = .next { s with errcode := c }

/-- Once every check passes, a command ends with ERRCODE 0 or 7 alone (R104, R223). -/
def Obligations.ChecksPassedEndsOkOrBusError : Prop :=
  ∀ (i : Instr) (s t : State), (∀ c, ¬ FirstFails (failures i s) c) → exec i s = .next t →
    t.errcode = 0#4 ∨ t.errcode = 7#4

/-- A command is refused exactly when it has passed its checks and the raw or compressed buffer, of those it uses, covers
a device register; in every other state it answers a next state (R105, R247; when it is refused is log 6). -/
def Obligations.CommandAnswersUnlessOverDevice : Prop :=
  ∀ (i : Instr) (s : State),
    ((∀ c, ¬ FirstFails (failures i s) c) → LaunchOverDevice i s → exec i s = .refused .bufferOverDevice) ∧
    ((∃ c, FirstFails (failures i s) c) ∨ ¬ LaunchOverDevice i s → ∃ t, exec i s = .next t)

/-! ### Colour family -/

/-- NOP, word 0: ERRCODE 0 and no other effect (R113). -/
def Obligations.NopOnlyClearsErrcode : Prop :=
  decode 0x00000000#32 = .ok .nop ∧ ∀ s : State, exec .nop s = .next { s with errcode := 0#4 }

/-- ENC_COLOR, word 1: CBLK is the colour encoding of PIX, ERRCODE 0, nothing else changes (R123 to R127, R130). -/
def Obligations.EncColorEncodesPix : Prop :=
  decode 0x00000001#32 = .ok .encColor ∧ ∀ s : State, ∃ t, exec .encColor s = .next t ∧ t = { s with cblk := t.cblk, errcode := 0#4 } ∧
    IsColourEncoding s.pix t.cblk

/-- DEC_COLOR, word 2: every PIX entry is the palette entry of its index, in all four channels (R128, R129, R131). -/
def Obligations.DecColorDecodesCblk : Prop :=
  decode 0x00000002#32 = .ok .decColor ∧ ∀ s : State, ∃ t, exec .decColor s = .next t ∧ t = { s with pix := t.pix, errcode := 0#4 } ∧
    ∀ k, k < 16 → IsColourDecoding 4 s.cblk k (pixAt t.pix k)

/-- `rgb_to_565(rgb565_to_888(v)) = v` for every 16-bit `v` (R121 marks it as its own inference). -/
def Obligations.QuantizeAfterExpandIsIdentity : Prop :=
  ∀ v : Half, rgbTo565 (rgb565To888 v).r (rgb565To888 v).g (rgb565To888 v).b = v

/-- The expansion zero-fills: `rgb565_to_888` is the field values shifted left (R121), and quantizing is truncation
(R120). -/
def Obligations.ColourHelpersAreShifts : Prop :=
  (∀ r g b : Byte, (rgbTo565 r g b).toNat = (r.toNat / 8) * 2048 + (g.toNat / 4) * 32 + b.toNat / 8) ∧
    ∀ v : Half, (rgb565To888 v).r.toNat = v.toNat / 2048 * 8 ∧ (rgb565To888 v).g.toNat = v.toNat / 32 % 64 * 4 ∧
      (rgb565To888 v).b.toNat = v.toNat % 32 * 8

/-- Encoder and decoder palettes differ when `color0 ≤ color1`: an encoded index 3 decodes to transparent black, an
encoded index 2 to the average of the endpoints (R132). -/
def Obligations.PaletteMismatchWhenOrdered : Prop :=
  ∀ (s t u : State) (k : Nat), k < 16 → exec .encColor s = .next t → exec .decColor t = .next u →
    color0 t.cblk ≤ color1 t.cblk →
      (colourIdx t.cblk k = 3 → pixAt u.pix k = ⟨0#8, 0#8, 0#8, 0#8⟩) ∧
      (colourIdx t.cblk k = 2 → ∀ c, c < 3 → (channel (pixAt u.pix k) c).toNat =
        (expand (color0 t.cblk) c + expand (color1 t.cblk) c) / 2)

/-- Solid-colour round trip: a block of one representable colour decodes to that colour with A = 255 (R133). -/
def Obligations.SolidColourRoundTrip : Prop :=
  ∀ (s t u : State) (r g b : Byte), r.toNat % 8 = 0 → g.toNat % 4 = 0 → b.toNat % 8 = 0 →
    (∀ k, k < 16 → (pixAt s.pix k).r = r ∧ (pixAt s.pix k).g = g ∧ (pixAt s.pix k).b = b) →
    exec .encColor s = .next t → exec .decColor t = .next u →
      ∀ k, k < 16 → pixAt u.pix k = ⟨r, g, b, 255#8⟩

/-! ### Alpha family -/

/-- ENC_ALPHA, word 3: ABLK is the alpha encoding of PIX.A, ERRCODE 0, nothing else changes (R150, R152, R153, R155). -/
def Obligations.EncAlphaEncodesPix : Prop :=
  decode 0x00000003#32 = .ok .encAlpha ∧ ∀ s : State, ∃ t, exec .encAlpha s = .next t ∧ t = { s with ablk := t.ablk, errcode := 0#4 } ∧
    IsAlphaEncoding s.pix t.ablk

/-- DEC_ALPHA, word 4: only the A of every PIX entry changes, to the palette entry of its index (R151, R154, R156). -/
def Obligations.DecAlphaOverridesOnlyAlpha : Prop :=
  decode 0x00000004#32 = .ok .decAlpha ∧ ∀ s : State, ∃ t, exec .decAlpha s = .next t ∧ t = { s with pix := t.pix, errcode := 0#4 } ∧
    ∀ k, k < 16 → pixAt t.pix k = { pixAt s.pix k with a := (pixAt t.pix k).a } ∧
      (pixAt t.pix k).a.toNat = decodedAlpha s.ablk k

/-- ENC_BC3, word 5: both encodings of the same PIX (R157). -/
def Obligations.EncBc3EncodesBoth : Prop :=
  decode 0x00000005#32 = .ok .encBc3 ∧ ∀ s : State, ∃ t, exec .encBc3 s = .next t ∧ t = { s with ablk := t.ablk, cblk := t.cblk, errcode := 0#4 } ∧
    IsAlphaEncoding s.pix t.ablk ∧ IsColourEncoding s.pix t.cblk

/-- DEC_BC3, word 6: the colour decode with its A overridden by the alpha decode (R158). -/
def Obligations.DecBc3DecodesBoth : Prop :=
  decode 0x00000006#32 = .ok .decBc3 ∧ ∀ s : State, ∃ t, exec .decBc3 s = .next t ∧ t = { s with pix := t.pix, errcode := 0#4 } ∧
    ∀ k, k < 16 → IsColourDecoding 3 s.cblk k (pixAt t.pix k) ∧ (pixAt t.pix k).a.toNat = decodedAlpha s.ablk k

/-- The encoder never takes the 8-level branch (R159), and never emits index 6 or 7. -/
def Obligations.EncoderAlphaStaysSixLevel : Prop :=
  ∀ s t : State, exec .encAlpha s = .next t →
    byteNum t.ablk 0 ≤ byteNum t.ablk 1 ∧ ∀ k, k < 16 → alphaIdx t.ablk k < 6

/-- A block whose alphas are all one of two values decodes back exactly: a constant block, and a block mixing only 0 and
255 (R160). -/
def Obligations.TwoValuedAlphaRoundTrip : Prop :=
  ∀ (s t u : State) (x y : Byte), (x = y ∨ (x = 0#8 ∧ y = 255#8)) →
    (∀ k, k < 16 → (pixAt s.pix k).a = x ∨ (pixAt s.pix k).a = y) →
    exec .encAlpha s = .next t → exec .decAlpha t = .next u →
      ∀ k, k < 16 → (pixAt u.pix k).a = (pixAt s.pix k).a

/-! ### Tile family -/

/-- LOAD_TILE: each entry in bounds is the raw pixel, every other entry is padding, ERRCODE 0, nothing else changes
(R184). The faults spoken of are those of the bytes it reads. -/
def Obligations.LoadTileLoadsTile : Prop :=
  ∀ s : State, RawReady s → ¬ BlockFails s → ClearOfDevices s s.rawBase.toNat s.rawLen.toNat →
    (∀ k c, k < 16 → c < 4 → InImage s s.blkX.toNat s.blkY.toNat k →
      s.platform.busFault (pixelByte s s.blkX.toNat s.blkY.toNat k c) .read = false) →
      ∃ t, exec .loadTile s = .next t ∧ t = { s with pix := t.pix, errcode := 0#4 } ∧
        IsTile s s.blkX.toNat s.blkY.toNat t.pix

/-- STORE_TILE: the four bytes of each entry in bounds are written, no other byte and no register but STATUS changes
(R185). -/
def Obligations.StoreTileStoresTile : Prop :=
  ∀ s : State, s.mem.wf = true → RawReady s → ¬ BlockFails s → ClearOfDevices s s.rawBase.toNat s.rawLen.toNat →
    (∀ k c, k < 16 → c < 4 → InImage s s.blkX.toNat s.blkY.toNat k →
      s.platform.busFault (pixelByte s s.blkX.toNat s.blkY.toNat k c) .write = false) →
      ∃ t, exec .storeTile s = .next t ∧ t = { s with mem := t.mem, errcode := 0#4 } ∧
        (∀ k c, k < 16 → c < 4 → InImage s s.blkX.toNat s.blkY.toNat k →
          t.mem.read (pixelByte s s.blkX.toNat s.blkY.toNat k c) = channel (pixAt s.pix k) c) ∧
        ∀ a, (∀ k c, k < 16 → c < 4 → InImage s s.blkX.toNat s.blkY.toNat k →
            a ≠ pixelByte s s.blkX.toNat s.blkY.toNat k c) →
          t.mem.read a = s.mem.read a

/-- PUT_BLOCK in both formats: the block's bytes are written, the alpha sub-block first in BC3, no other byte and no
register but STATUS changes (R186). -/
def Obligations.PutBlockStoresBlock : Prop :=
  ∀ (f : Format) (s : State), s.mem.wf = true → CmpReady f s → ¬ BlockFails s →
    ClearOfDevices s s.cmpBase.toNat s.cmpLen.toNat →
    (∀ j, j < stride f → s.platform.busFault (blockByte f s s.blkX.toNat s.blkY.toNat j) .write = false) →
      ∃ t, exec (putBlockOf f) s = .next t ∧ t = { s with mem := t.mem, errcode := 0#4 } ∧
        (∀ j, j < stride f →
          t.mem.read (blockByte f s s.blkX.toNat s.blkY.toNat j) = blockImage f s.ablk s.cblk j) ∧
        ∀ a, (∀ j, j < stride f → a ≠ blockByte f s s.blkX.toNat s.blkY.toNat j) → t.mem.read a = s.mem.read a

/-- GET_BLOCK in both formats: CBLK, and for BC3 ABLK, hold the block's bytes, nothing else changes but STATUS; BC1
leaves ABLK unchanged (R187). -/
def Obligations.GetBlockLoadsBlock : Prop :=
  ∀ (f : Format) (s : State), CmpReady f s → ¬ BlockFails s → ClearOfDevices s s.cmpBase.toNat s.cmpLen.toNat →
    (∀ j, j < stride f → s.platform.busFault (blockByte f s s.blkX.toNat s.blkY.toNat j) .read = false) →
      ∃ t, exec (getBlockOf f) s = .next t ∧ t = { s with ablk := t.ablk, cblk := t.cblk, errcode := 0#4 } ∧
        (f = .bc1 → t.ablk = s.ablk) ∧
        ∀ j, j < stride f → blockImage f t.ablk t.cblk j = s.mem.read (blockByte f s s.blkX.toNat s.blkY.toNat j)

/-- CLEAR_RAW: every byte of the raw buffer is 0, no other byte and no register but STATUS changes; a buffer of length 0
succeeds too (R188). -/
def Obligations.ClearRawZeroesBuffer : Prop :=
  ∀ s : State, s.mem.wf = true → RawReady s → ClearOfDevices s s.rawBase.toNat s.rawLen.toNat →
    (∀ a, InRaw s a → s.platform.busFault a .write = false) →
      ∃ t, exec .clearRaw s = .next t ∧ t = { s with mem := t.mem, errcode := 0#4 } ∧
        (∀ a, InRaw s a → t.mem.read a = 0#8) ∧ ∀ a, ¬ InRaw s a → t.mem.read a = s.mem.read a

/-- Padding takes part in encoding: LOAD_TILE of a block with padding, then ENC_BC3, gives `color0 = 0` and `alpha0 = 0`,
so the decoder takes its 3-colour mode (R192). -/
def Obligations.PaddedBlockEncodesZeroEndpoint : Prop :=
  ∀ (s t u : State), exec .loadTile s = .next t → t.errcode = 0#4 → exec .encBc3 t = .next u →
    (∃ k, k < 16 ∧ ¬ InImage s s.blkX.toNat s.blkY.toNat k) →
      color0 u.cblk = 0 ∧ byteNum u.ablk 0 = 0 ∧ color0 u.cblk ≤ color1 u.cblk

/-! ### Image family -/

/-- COMPRESS in both formats: every block of the grid is the encoding of its tile, no byte outside the compressed buffer
changes, and the registers hold the last block's values, or are unchanged where the grid is empty (R189). -/
def Obligations.CompressEncodesEveryBlock : Prop :=
  ∀ (f : Format) (s : State), s.mem.wf = true → ImageReady f s →
    (∀ a, InRaw s a → s.platform.busFault a .read = false) →
    (∀ a, InCmp s a → s.platform.busFault a .write = false) →
      ∃ t, exec (compressOf f) s = .next t ∧
        t = { s with mem := t.mem, pix := t.pix, ablk := t.ablk, cblk := t.cblk, blkX := t.blkX, blkY := t.blkY,
                     errcode := 0#4 } ∧
        (∀ x y, x < gx s → y < gy s → ∃ p a b, IsTile s x y p ∧ IsColourEncoding p b ∧
          (f = .bc3 → IsAlphaEncoding p a) ∧
          ∀ j, j < stride f → t.mem.read (blockByte f s x y j) = blockImage f a b j) ∧
        (∀ a, ¬ InCmp s a → t.mem.read a = s.mem.read a) ∧
        (gx s * gy s = 0 → t = { s with errcode := 0#4 }) ∧
        (gx s * gy s > 0 → t.blkX.toNat = gx s - 1 ∧ t.blkY.toNat = gy s - 1 ∧ IsTile s (gx s - 1) (gy s - 1) t.pix ∧
          IsColourEncoding t.pix t.cblk ∧ (f = .bc3 → IsAlphaEncoding t.pix t.ablk)) ∧
        (f = .bc1 → t.ablk = s.ablk)

/-- DECOMPRESS in both formats: every pixel of the image is the decoding of its block, no byte outside the raw buffer
changes, and the registers hold the last block's values, or are unchanged where the grid is empty (R190). -/
def Obligations.DecompressDecodesEveryPixel : Prop :=
  ∀ (f : Format) (s : State), s.mem.wf = true → ImageReady f s →
    (∀ a, InRaw s a → s.platform.busFault a .write = false) →
    (∀ a, InCmp s a → s.platform.busFault a .read = false) →
      ∃ t, exec (decompressOf f) s = .next t ∧
        t = { s with mem := t.mem, pix := t.pix, ablk := t.ablk, cblk := t.cblk, blkX := t.blkX, blkY := t.blkY,
                     errcode := 0#4 } ∧
        (∀ x y k, x < gx s → y < gy s → k < 16 → InImage s x y k → ∃ q, IsDecodedPixel f s x y k q ∧
          ∀ c, c < 4 → t.mem.read (pixelByte s x y k c) = channel q c) ∧
        (∀ a, ¬ InRaw s a → t.mem.read a = s.mem.read a) ∧
        (gx s * gy s = 0 → t = { s with errcode := 0#4 }) ∧
        (gx s * gy s > 0 → t.blkX.toNat = gx s - 1 ∧ t.blkY.toNat = gy s - 1 ∧
          (∀ k, k < 16 → IsDecodedPixel f s (gx s - 1) (gy s - 1) k (pixAt t.pix k)) ∧
          ∀ j, j < stride f → blockImage f t.ablk t.cblk j = s.mem.read (blockByte f s (gx s - 1) (gy s - 1) j)) ∧
        (f = .bc1 → t.ablk = s.ablk)

/-- Empty images: with W = 0 or H = 0 and zero lengths the image commands and CLEAR_RAW change nothing but ERRCODE, to
0, and the tile primitives end with code 6 (R194). -/
def Obligations.EmptyImageCommands : Prop :=
  ∀ s : State, ¬ DimFails s → (s.width = 0#32 ∨ s.height = 0#32) → s.rawLen = 0#32 → s.cmpLen = 0#32 →
    (∀ i, i ∈ [Instr.compressBc1, .compressBc3, .decompressBc1, .decompressBc3, .clearRaw] →
      exec i s = .next { s with errcode := 0#4 }) ∧
    ∀ i, i ∈ [Instr.loadTile, .storeTile, .putBlockBc1, .putBlockBc3, .getBlockBc1, .getBlockBc3] →
      exec i s = .next { s with errcode := 6#4 }

/-- Decoding the same stream twice gives identical raw bytes: DECOMPRESS reads no raw byte. Two states that agree on the
geometry, the buffers, the platform and the compressed bytes give the same raw bytes, whatever else they hold (R195). -/
def Obligations.DecompressReadsNoRawByte : Prop :=
  ∀ (f : Format) (s s' t t' : State),
    s.mem.wf = true → s'.mem.wf = true → s'.width = s.width → s'.height = s.height →
    s'.rawBase = s.rawBase → s'.rawLen = s.rawLen → s'.cmpBase = s.cmpBase → s'.cmpLen = s.cmpLen → s'.platform = s.platform →
    (∀ a, InCmp s a → s'.mem.read a = s.mem.read a) →
    exec (decompressOf f) s = .next t → exec (decompressOf f) s' = .next t' → t.errcode = 0#4 →
      t'.errcode = 0#4 ∧ ∀ a, InRaw s a → t'.mem.read a = t.mem.read a

/-! ### Bus errors -/

/-- A tile or block read that faults: ERRCODE 7, memory and every register the command does not write unchanged; of the
registers it writes nothing is said (R222). -/
def Obligations.FaultingReadEndsWithBusError : Prop :=
  (∀ (s : State) (k c : Nat), RawReady s → ¬ BlockFails s → ClearOfDevices s s.rawBase.toNat s.rawLen.toNat →
    k < 16 → c < 4 → InImage s s.blkX.toNat s.blkY.toNat k →
    s.platform.busFault (pixelByte s s.blkX.toNat s.blkY.toNat k c) .read = true →
      ∃ t, exec .loadTile s = .next t ∧ t = { s with pix := t.pix, draws := t.draws, errcode := 7#4 }) ∧
  ∀ (f : Format) (s : State) (j : Nat), CmpReady f s → ¬ BlockFails s →
    ClearOfDevices s s.cmpBase.toNat s.cmpLen.toNat → j < stride f →
    s.platform.busFault (blockByte f s s.blkX.toNat s.blkY.toNat j) .read = true →
      ∃ t, exec (getBlockOf f) s = .next t ∧ (f = .bc1 → t.ablk = s.ablk) ∧
        t = { s with ablk := t.ablk, cblk := t.cblk, draws := t.draws, errcode := 7#4 }

/-- The first write that faults stops the command: the writes made before it stay done, that byte and every later one
keep their values, ERRCODE 7 (R222), for PUT_BLOCK and CLEAR_RAW. -/
def Obligations.FaultingWriteKeepsEarlierWrites : Prop :=
  (∀ (f : Format) (s : State) (n : Nat), s.mem.wf = true → CmpReady f s → ¬ BlockFails s →
    ClearOfDevices s s.cmpBase.toNat s.cmpLen.toNat → n < stride f →
    s.platform.busFault (blockByte f s s.blkX.toNat s.blkY.toNat n) .write = true →
    (∀ j, j < n → s.platform.busFault (blockByte f s s.blkX.toNat s.blkY.toNat j) .write = false) →
      ∃ t, exec (putBlockOf f) s = .next t ∧ t = { s with mem := t.mem, draws := t.draws, errcode := 7#4 } ∧
        (∀ j, j < n → t.mem.read (blockByte f s s.blkX.toNat s.blkY.toNat j) = blockImage f s.ablk s.cblk j) ∧
        ∀ a, (∀ j, j < n → a ≠ blockByte f s s.blkX.toNat s.blkY.toNat j) → t.mem.read a = s.mem.read a) ∧
  ∀ (s : State) (n : Nat), s.mem.wf = true → RawReady s → ClearOfDevices s s.rawBase.toNat s.rawLen.toNat →
    n < s.rawLen.toNat →
    s.platform.busFault (s.rawBase.toNat + n) .write = true →
    (∀ o, o < n → s.platform.busFault (s.rawBase.toNat + o) .write = false) →
      ∃ t, exec .clearRaw s = .next t ∧ t = { s with mem := t.mem, draws := t.draws, errcode := 7#4 } ∧
        (∀ o, o < n → t.mem.read (s.rawBase.toNat + o) = 0#8) ∧
        ∀ a, (∀ o, o < n → a ≠ s.rawBase.toNat + o) → t.mem.read a = s.mem.read a

/-- STORE_TILE stopped by a write that faults: ERRCODE 7, each byte of an entry before the faulting one in order is
written, each byte of a later one is not (R222, R185). -/
def Obligations.FaultingStoreTileKeepsEarlierWrites : Prop :=
  ∀ (s : State) (k c : Nat), s.mem.wf = true → RawReady s → ¬ BlockFails s →
    ClearOfDevices s s.rawBase.toNat s.rawLen.toNat →
    k < 16 → c < 4 → InImage s s.blkX.toNat s.blkY.toNat k →
    s.platform.busFault (pixelByte s s.blkX.toNat s.blkY.toNat k c) .write = true →
    (∀ k' c', k' < 16 → c' < 4 → 4 * k' + c' < 4 * k + c → InImage s s.blkX.toNat s.blkY.toNat k' →
      s.platform.busFault (pixelByte s s.blkX.toNat s.blkY.toNat k' c') .write = false) →
      ∃ t, exec .storeTile s = .next t ∧ t = { s with mem := t.mem, draws := t.draws, errcode := 7#4 } ∧
        (∀ k' c', k' < 16 → c' < 4 → 4 * k' + c' < 4 * k + c → InImage s s.blkX.toNat s.blkY.toNat k' →
          t.mem.read (pixelByte s s.blkX.toNat s.blkY.toNat k' c') = channel (pixAt s.pix k') c') ∧
        ∀ a, (∀ k' c', k' < 16 → c' < 4 → 4 * k' + c' < 4 * k + c → InImage s s.blkX.toNat s.blkY.toNat k' →
            a ≠ pixelByte s s.blkX.toNat s.blkY.toNat k' c') →
          t.mem.read a = s.mem.read a

/-- An image command that passed its checks, away from devices, answers a next state, with code 7 exactly when some access
it must make faults: COMPRESS reads every raw byte and writes every compressed byte, DECOMPRESS the other way round
(R189, R190, R222). -/
def Obligations.ImageBusErrorExactly : Prop :=
  ∀ (f : Format) (s : State), ImageReady f s →
    (∃ t, exec (compressOf f) s = .next t ∧ (t.errcode = 7#4 ↔
      ((∃ a, InRaw s a ∧ s.platform.busFault a .read = true) ∨
        ∃ a, InCmp s a ∧ s.platform.busFault a .write = true))) ∧
    ∃ t, exec (decompressOf f) s = .next t ∧ (t.errcode = 7#4 ↔
      ((∃ a, InRaw s a ∧ s.platform.busFault a .write = true) ∨
        ∃ a, InCmp s a ∧ s.platform.busFault a .read = true))

/-- COMPRESS stopped at block `(x, y)` by its first faulting access, a read of its tile (then `n` is 0) or the write of its
byte `n`: ERRCODE 7; every block before it and its own first `n` bytes hold their encodings, every other byte of memory is
as before; no register changes but those COMPRESS writes, of which nothing is said (R222, R189). -/
def Obligations.FaultingCompressKeepsEarlierWrites : Prop :=
  ∀ (f : Format) (s : State) (x y n : Nat), s.mem.wf = true → ImageReady f s → x < gx s → y < gy s →
    (∀ x' y', x' < gx s → y' < gy s → BlockBefore x' y' x y → TileAnswers s .read x' y' ∧ BlockAnswers f s .write x' y') →
    ((¬ TileAnswers s .read x y ∧ n = 0) ∨
      (TileAnswers s .read x y ∧ n < stride f ∧ s.platform.busFault (blockByte f s x y n) .write = true ∧
        ∀ j, j < n → s.platform.busFault (blockByte f s x y j) .write = false)) →
      ∃ t, exec (compressOf f) s = .next t ∧
        t = { s with mem := t.mem, pix := t.pix, ablk := t.ablk, cblk := t.cblk, blkX := t.blkX, blkY := t.blkY,
                     draws := t.draws, errcode := 7#4 } ∧
        (f = .bc1 → t.ablk = s.ablk) ∧
        (∀ x' y', x' < gx s → y' < gy s → ∃ p a b, IsTile s x' y' p ∧ IsColourEncoding p b ∧
          (f = .bc3 → IsAlphaEncoding p a) ∧
          ∀ j, j < stride f → ByteBefore x' y' j x y n → t.mem.read (blockByte f s x' y' j) = blockImage f a b j) ∧
        ∀ a, (∀ x' y' j, x' < gx s → y' < gy s → j < stride f → ByteBefore x' y' j x y n → a ≠ blockByte f s x' y' j) →
          t.mem.read a = s.mem.read a

/-- DECOMPRESS stopped by its first faulting access: ERRCODE 7, and no register changes but those DECOMPRESS writes, of
which nothing is said. Stopped in its clear at raw byte `n`, the first `n` raw bytes are 0 and every other byte of memory
is as before. Past the clear only a read of some block `(x, y)` can fault: then the pixels of every block before it are
decoded, every other raw byte is 0, and no byte outside the raw buffer changes (R222, R190). -/
def Obligations.FaultingDecompressKeepsEarlierWrites : Prop :=
  (∀ (f : Format) (s : State) (n : Nat), s.mem.wf = true → ImageReady f s → n < s.rawLen.toNat →
    s.platform.busFault (s.rawBase.toNat + n) .write = true →
    (∀ o, o < n → s.platform.busFault (s.rawBase.toNat + o) .write = false) →
      ∃ t, exec (decompressOf f) s = .next t ∧
        t = { s with mem := t.mem, pix := t.pix, ablk := t.ablk, cblk := t.cblk, blkX := t.blkX, blkY := t.blkY,
                     draws := t.draws, errcode := 7#4 } ∧
        (f = .bc1 → t.ablk = s.ablk) ∧
        (∀ o, o < n → t.mem.read (s.rawBase.toNat + o) = 0#8) ∧
        ∀ a, (∀ o, o < n → a ≠ s.rawBase.toNat + o) → t.mem.read a = s.mem.read a) ∧
  ∀ (f : Format) (s : State) (x y : Nat), s.mem.wf = true → ImageReady f s → x < gx s → y < gy s →
    (∀ a, InRaw s a → s.platform.busFault a .write = false) →
    (∀ x' y', x' < gx s → y' < gy s → BlockBefore x' y' x y → BlockAnswers f s .read x' y') →
    ¬ BlockAnswers f s .read x y →
      ∃ t, exec (decompressOf f) s = .next t ∧
        t = { s with mem := t.mem, pix := t.pix, ablk := t.ablk, cblk := t.cblk, blkX := t.blkX, blkY := t.blkY,
                     draws := t.draws, errcode := 7#4 } ∧
        (f = .bc1 → t.ablk = s.ablk) ∧
        (∀ x' y' k, x' < gx s → y' < gy s → k < 16 → InImage s x' y' k → BlockBefore x' y' x y →
          ∃ q, IsDecodedPixel f s x' y' k q ∧ ∀ c, c < 4 → t.mem.read (pixelByte s x' y' k c) = channel q c) ∧
        (∀ x' y' k c, x' < gx s → y' < gy s → k < 16 → c < 4 → InImage s x' y' k → ¬ BlockBefore x' y' x y →
          t.mem.read (pixelByte s x' y' k c) = 0#8) ∧
        ∀ a, ¬ InRaw s a → t.mem.read a = s.mem.read a

/-! ### Frames over every outcome -/

/-- No command writes WIDTH, HEIGHT, RAW_BASE, RAW_LEN, CMP_BASE or CMP_LEN, whatever its outcome (R25 to R30); nor what
waits, what was answered, or the platform's parameters. -/
def Obligations.CommandsNeverWriteGeometry : Prop :=
  ∀ (i : Instr) (s t : State), exec i s = .next t →
    t.width = s.width ∧ t.height = s.height ∧ t.rawBase = s.rawBase ∧ t.rawLen = s.rawLen ∧ t.cmpBase = s.cmpBase ∧
      t.cmpLen = s.cmpLen ∧ t.pending = s.pending ∧ t.responses = s.responses ∧ t.platform = s.platform

/-- The block registers a command leaves unchanged, whatever its outcome: PIX but for the decoders, LOAD_TILE and the
image commands; ABLK but for the alpha encoders and the BC3 moves and image commands; CBLK but for the colour encoders,
GET_BLOCK and the image commands; the cursor but for the image commands (R130, R131, R155 to R158, R184 to R190). -/
def Obligations.CommandsKeepOtherBlockRegisters : Prop :=
  ∀ (i : Instr) (s t : State), exec i s = .next t →
    (i ∉ [Instr.decColor, .decAlpha, .decBc3, .loadTile, .compressBc1, .compressBc3, .decompressBc1, .decompressBc3] →
      t.pix = s.pix) ∧
    (i ∉ [Instr.encAlpha, .encBc3, .getBlockBc3, .compressBc3, .decompressBc3] → t.ablk = s.ablk) ∧
    (i ∉ [Instr.encColor, .encBc3, .getBlockBc1, .getBlockBc3, .compressBc1, .compressBc3, .decompressBc1,
        .decompressBc3] → t.cblk = s.cblk) ∧
    (i ∉ [Instr.compressBc1, .compressBc3, .decompressBc1, .decompressBc3] → t.blkX = s.blkX ∧ t.blkY = s.blkY)

/-- Confinement: whatever its outcome, a command changes no byte of memory outside the buffer it stores to, and a command
that stores nothing changes none (R50, R59). -/
def Obligations.StoresStayInDestinationBuffer : Prop :=
  ∀ (i : Instr) (s t : State) (a : Nat), exec i s = .next t → t.mem.read a ≠ s.mem.read a →
    (StoresRaw i ∧ InRaw s a) ∨ (StoresCmp i ∧ InCmp s a)

/-- The engine never reads a byte outside the two buffers: two states that differ only in memory outside them give the
same code, the same bytes of the two buffers and, but for a bus error (whose registers hold any value, R222), the same
registers (R50). -/
def Obligations.CommandsReadOnlyTheirBuffers : Prop :=
  ∀ (i : Instr) (s t : State) (m : Memory),
    s.mem.wf = true → m.wf = true → (∀ a, InRaw s a ∨ InCmp s a → m.read a = s.mem.read a) → exec i s = .next t →
      ∃ t', exec i { s with mem := m } = .next t' ∧ t'.errcode = t.errcode ∧
        (t.errcode ≠ 7#4 → t' = { t with mem := t'.mem }) ∧
        ∀ a, InRaw s a ∨ InCmp s a → t'.mem.read a = t.mem.read a
end

