-- ==== Sys2Proof/Laws/Ops.lean ====
section
/-! SUPPORT. One lemma per shared operation: fixed-size buffers, searches, packed fields, memory, byte lists as body
parts, the frame of a command. -/

namespace Sys2Proof.Machine

/-! ### Fixed-size buffers -/

theorem vecOf_getElem? {α : Type} (n : Nat) (f : Nat → α) (k : Nat) (h : k < n) : (vecOf n f)[k]? = some (f k) := by
  simp [vecOf, h]

theorem vecOf_congr {α : Type} {n : Nat} {f g : Nat → α} (h : ∀ k, k < n → f k = g k) : vecOf n f = vecOf n g := by
  unfold vecOf
  congr 2
  exact List.map_congr_left fun k hk => h k (List.mem_range.mp hk)

@[simp] theorem pixAt_vecOf (f : Nat → Pixel) (k : Nat) (h : k < 16) : pixAt (vecOf 16 f) k = f k := by
  rw [pixAt, vecOf_getElem? _ _ _ h]
  rfl

@[simp] theorem byteAt_vecOf (f : Nat → Byte) (k : Nat) (h : k < 8) : byteAt (vecOf 8 f) k = f k := by
  rw [byteAt, vecOf_getElem? _ _ _ h]
  rfl

theorem pixAt_set (p : Vector Pixel 16) (k i : Nat) (h : k < 16) (q : Pixel) :
    pixAt (p.set k q h) i = if i = k then q else pixAt p i := by
  unfold pixAt
  rw [Vector.getElem?_set]
  by_cases hik : k = i
  · subst hik; simp
  · simp [hik, Ne.symm hik]

theorem vector_ext_byteAt {b c : Vector Byte 8} (h : ∀ j, j < 8 → byteAt b j = byteAt c j) : b = c := by
  apply Vector.ext
  intro i hi
  simpa [byteAt, hi] using h i hi

theorem vector_ext_pixAt {p q : Vector Pixel 16} (h : ∀ k, k < 16 → pixAt p k = pixAt q k) : p = q := by
  apply Vector.ext
  intro i hi
  simpa [pixAt, hi] using h i hi

@[simp] theorem pixAt_zero (k : Nat) : pixAt (Vector.replicate 16 Pixel.zero) k = Pixel.zero := by
  by_cases h : k < 16 <;> simp [pixAt, h]

@[simp] theorem byteAt_zero (k : Nat) : byteAt (Vector.replicate 8 0#8) k = 0#8 := by
  by_cases h : k < 8 <;> simp [byteAt, h]

/-! ### Searches -/

/-- The scan over `1 .. m` keeps the first index of the least value seen. -/
theorem scan_min (f : Nat → Nat) (m : Nat) :
    let b := (List.range' 1 m).foldl (fun best j => if f j < f best then j else best) 0
    b ≤ m ∧ (∀ j, j ≤ m → f b ≤ f j) ∧ ∀ j, j < b → f b < f j := by
  induction m with
  | zero => simp
  | succ m ih =>
    simp only [List.range'_concat, List.foldl_append, List.foldl_cons, List.foldl_nil, Nat.one_mul] at ih ⊢
    set b := (List.range' 1 m).foldl (fun best j => if f j < f best then j else best) 0 with hb
    obtain ⟨h1, h2, h3⟩ := ih
    rw [Nat.add_comm 1 m]
    split
    · rename_i hlt
      refine ⟨le_refl _, fun j hj => ?_, fun j hj => ?_⟩
      · rcases Nat.lt_or_ge m j with h | h
        · have : j = m + 1 := by omega
          rw [this]
        · exact le_of_lt (lt_of_lt_of_le hlt (h2 j h))
      · exact lt_of_lt_of_le hlt (h2 j (by omega))
    · rename_i hge
      refine ⟨by omega, fun j hj => ?_, h3⟩
      rcases Nat.lt_or_ge m j with h | h
      · have : j = m + 1 := by omega
        rw [this]; omega
      · exact h2 j h

/-- `firstArgmin` finds the first index of the least value. -/
theorem firstArgmin_spec (n : Nat) (f : Nat → Nat) (hn : 0 < n) :
    firstArgmin n f < n ∧ (∀ j, j < n → f (firstArgmin n f) ≤ f j) ∧ ∀ j, j < firstArgmin n f → f (firstArgmin n f) < f j := by
  obtain ⟨h1, h2, h3⟩ := scan_min f (n - 1)
  exact ⟨by unfold firstArgmin; omega, fun j hj => h2 j (by omega), h3⟩

theorem scan_max (f : Nat → Nat) (m : Nat) :
    let b := (List.range' 1 m).foldl (fun best j => if f j > f best then j else best) 0
    b ≤ m ∧ (∀ j, j ≤ m → f j ≤ f b) ∧ ∀ j, j < b → f j < f b := by
  induction m with
  | zero => simp
  | succ m ih =>
    simp only [List.range'_concat, List.foldl_append, List.foldl_cons, List.foldl_nil, Nat.one_mul] at ih ⊢
    set b := (List.range' 1 m).foldl (fun best j => if f j > f best then j else best) 0 with hb
    obtain ⟨h1, h2, h3⟩ := ih
    rw [Nat.add_comm 1 m]
    split
    · rename_i hlt
      refine ⟨le_refl _, fun j hj => ?_, fun j hj => ?_⟩
      · rcases Nat.lt_or_ge m j with h | h
        · have : j = m + 1 := by omega
          rw [this]
        · exact le_of_lt (lt_of_le_of_lt (h2 j h) hlt)
      · exact lt_of_le_of_lt (h2 j (by omega)) hlt
    · rename_i hge
      refine ⟨by omega, fun j hj => ?_, h3⟩
      rcases Nat.lt_or_ge m j with h | h
      · have : j = m + 1 := by omega
        rw [this]; omega
      · exact h2 j h

/-- `firstArgmax` finds the first index of the greatest value. -/
theorem firstArgmax_spec (n : Nat) (f : Nat → Nat) (hn : 0 < n) :
    firstArgmax n f < n ∧ (∀ j, j < n → f j ≤ f (firstArgmax n f)) ∧ ∀ j, j < firstArgmax n f → f j < f (firstArgmax n f) := by
  obtain ⟨h1, h2, h3⟩ := scan_max f (n - 1)
  exact ⟨by unfold firstArgmax; omega, fun j hj => h2 j (by omega), h3⟩

/-! ### Packed fields -/

theorem packFields_succ (w n : Nat) (f : Nat → Nat) : packFields w (n + 1) f = packFields w n f + f n * 2 ^ (w * n) := by
  simp [packFields, List.range_succ, Nat.shiftLeft_eq]

theorem packFields_lt (w n : Nat) (f : Nat → Nat) (h : ∀ i, i < n → f i < 2 ^ w) : packFields w n f < 2 ^ (w * n) := by
  induction n with
  | zero => simp [packFields]
  | succ n ih =>
    rw [packFields_succ, Nat.mul_succ, Nat.pow_add]
    have h1 := ih fun i hi => h i (by omega)
    have h2 : f n + 1 ≤ 2 ^ w := h n (by omega)
    calc packFields w n f + f n * 2 ^ (w * n) < 2 ^ (w * n) + f n * 2 ^ (w * n) := by omega
      _ = (f n + 1) * 2 ^ (w * n) := by ring
      _ ≤ 2 ^ w * 2 ^ (w * n) := Nat.mul_le_mul_right _ h2
      _ = 2 ^ (w * n) * 2 ^ w := by ring

/-- Field `k` of packed fields is `f k`. -/
theorem packFields_field (w n : Nat) (f : Nat → Nat) (h : ∀ i, i < n → f i < 2 ^ w) (k : Nat) (hk : k < n) :
    packFields w n f / 2 ^ (w * k) % 2 ^ w = f k := by
  induction n with
  | zero => omega
  | succ n ih =>
    rw [packFields_succ]
    rcases Nat.lt_or_ge k n with hkn | hkn
    · have e : w * n = w * k + w + w * (n - k - 1) := by
        have : n = k + 1 + (n - k - 1) := by omega
        conv_lhs => rw [this]
        ring
      rw [e, Nat.pow_add, Nat.pow_add]
      rw [show f n * (2 ^ (w * k) * 2 ^ w * 2 ^ (w * (n - k - 1))) = 2 ^ (w * k) * (2 ^ w * (f n * 2 ^ (w * (n - k - 1)))) by ring]
      rw [Nat.add_mul_div_left _ _ (by positivity), Nat.add_mul_mod_self_left]
      exact ih (fun i hi => h i (by omega)) hkn
    · have hk' : k = n := by omega
      subst hk'
      have h1 := packFields_lt w k f fun i hi => h i (by omega)
      rw [Nat.mul_comm (f k), Nat.add_mul_div_left _ _ (by positivity), Nat.div_eq_of_lt h1, Nat.zero_add]
      exact Nat.mod_eq_of_lt (h k (by omega))

theorem packFields_congr (w n : Nat) (f g : Nat → Nat) (h : ∀ i, i < n → f i = g i) : packFields w n f = packFields w n g := by
  unfold packFields
  congr 1
  apply List.map_congr_left
  intro i hi
  rw [h i (List.mem_range.mp hi)]

/-! ### System memory -/

theorem Memory.read_write_other (m : Memory) (a b : Nat) (v : Byte) (h : b ≠ a) : (m.write a v).read b = m.read b := by
  induction m with
  | nil =>
    unfold Memory.write
    split
    · rfl
    · simp [Memory.read, Ne.symm h]
  | cons c rest ih =>
    obtain ⟨c, w⟩ := c
    unfold Memory.write
    split
    · split
      · rfl
      · simp [Memory.read, Ne.symm h]
    · split
      · rename_i hac
        subst hac
        split <;> simp [Memory.read, Ne.symm h]
      · simp only [Memory.read]
        rw [ih]

theorem Memory.read_below (m : Memory) (lo a : Nat) (hw : Memory.wfFrom lo m = true) (h : a < lo) :
    m.read a = Memory.unlisted := by
  induction m generalizing lo with
  | nil => rfl
  | cons c rest ih =>
    obtain ⟨c, w⟩ := c
    simp only [Memory.wfFrom, Bool.and_eq_true, decide_eq_true_eq] at hw
    obtain ⟨⟨⟨h1, _⟩, _⟩, h4⟩ := hw
    simp only [Memory.read]
    rw [if_neg (by omega)]
    exact ih (c + 1) h4 (by omega)

theorem Memory.read_write_from (m : Memory) (lo a : Nat) (v : Byte) (hw : Memory.wfFrom lo m = true) :
    (m.write a v).read a = v := by
  induction m generalizing lo with
  | nil =>
    unfold Memory.write
    split
    · rename_i h; simp [Memory.read, h]
    · simp [Memory.read]
  | cons c rest ih =>
    obtain ⟨c, w⟩ := c
    have hw' := hw
    simp only [Memory.wfFrom, Bool.and_eq_true, decide_eq_true_eq] at hw
    obtain ⟨⟨⟨h1, _⟩, _⟩, h4⟩ := hw
    unfold Memory.write
    split
    · rename_i hac
      split
      · rename_i hv
        rw [hv]
        simp only [Memory.read]
        rw [if_neg (by omega)]
        exact Memory.read_below rest (c + 1) a h4 (by omega)
      · simp [Memory.read]
    · split
      · rename_i hac
        split
        · rename_i hv
          rw [hv]
          exact Memory.read_below rest (c + 1) a h4 (by omega)
        · simp [Memory.read]
      · rename_i hac hac'
        simp only [Memory.read]
        rw [if_neg (by omega)]
        exact ih (c + 1) h4

/-- A read after a write to the same byte gives the value written. -/
theorem Memory.read_write_same (m : Memory) (a : Nat) (v : Byte) (hw : m.wf = true) : (m.write a v).read a = v :=
  Memory.read_write_from m 0 a v hw

theorem Memory.wfFrom_mono (m : Memory) (lo lo' : Nat) (h : lo' ≤ lo) (hw : Memory.wfFrom lo m = true) :
    Memory.wfFrom lo' m = true := by
  cases m with
  | nil => rfl
  | cons c rest =>
    obtain ⟨c, w⟩ := c
    simp only [Memory.wfFrom, Bool.and_eq_true, decide_eq_true_eq] at hw ⊢
    obtain ⟨⟨⟨h1, h2⟩, h3⟩, h4⟩ := hw
    exact ⟨⟨⟨by omega, h2⟩, h3⟩, h4⟩

theorem Memory.wfFrom_write (m : Memory) (lo a : Nat) (v : Byte) (hw : Memory.wfFrom lo m = true) (hlo : lo ≤ a)
    (ha : a < Config.addressSpace) : Memory.wfFrom lo (m.write a v) = true := by
  induction m generalizing lo with
  | nil =>
    unfold Memory.write
    split
    · rfl
    · rename_i hv
      simp only [Memory.wfFrom, Bool.and_eq_true, decide_eq_true_eq]
      exact ⟨⟨⟨hlo, ha⟩, hv⟩, trivial⟩
  | cons c rest ih =>
    obtain ⟨c, w⟩ := c
    have hw' := hw
    simp only [Memory.wfFrom, Bool.and_eq_true, decide_eq_true_eq] at hw
    obtain ⟨⟨⟨h1, h2⟩, h3⟩, h4⟩ := hw
    unfold Memory.write
    split
    · rename_i hac
      split
      · exact hw'
      · rename_i hv
        simp only [Memory.wfFrom, Bool.and_eq_true, decide_eq_true_eq]
        exact ⟨⟨⟨hlo, ha⟩, hv⟩, ⟨⟨by omega, h2⟩, h3⟩, h4⟩
    · split
      · rename_i hac
        split
        · exact Memory.wfFrom_mono rest (c + 1) lo (by omega) h4
        · rename_i hv
          subst hac
          simp only [Memory.wfFrom, Bool.and_eq_true, decide_eq_true_eq]
          exact ⟨⟨⟨h1, h2⟩, hv⟩, h4⟩
      · simp only [Memory.wfFrom, Bool.and_eq_true, decide_eq_true_eq]
        exact ⟨⟨⟨h1, h2⟩, h3⟩, ih (c + 1) h4 (by omega)⟩

/-- A write inside the address space keeps the canonical form. -/
theorem Memory.wf_write (m : Memory) (a : Nat) (v : Byte) (hw : m.wf = true) (ha : a < Config.addressSpace) :
    (m.write a v).wf = true := Memory.wfFrom_write m 0 a v hw (Nat.zero_le a) ha

theorem Memory.wf_writeAll (m : Memory) (cells : List Host.Cell) (hw : m.wf = true)
    (h : ∀ c, c ∈ cells → c.1 < Config.addressSpace) : (m.writeAll cells).wf = true := by
  induction cells generalizing m with
  | nil => exact hw
  | cons c rest ih =>
    obtain ⟨a, v⟩ := c
    exact ih _ (Memory.wf_write m a v hw (h (a, v) (by simp))) fun c hc => h c (by simp [hc])

theorem Memory.wf_scramble (m : Memory) (l : List Nat) (n : Nat) (hw : m.wf = true)
    (h : ∀ a, a ∈ l → a < Config.addressSpace) : (scramble m l n).wf = true := by
  induction l generalizing m n with
  | nil => exact hw
  | cons a rest ih =>
    exact ih _ _ (Memory.wf_write m a _ hw (h a (by simp))) fun c hc => h c (by simp [hc])

/-- Bytes that no cell names keep their values. -/
theorem Memory.read_writeAll_other (m : Memory) (cells : List Host.Cell) (a : Nat) (h : ∀ c, c ∈ cells → c.1 ≠ a) :
    (m.writeAll cells).read a = m.read a := by
  induction cells generalizing m with
  | nil => rfl
  | cons c rest ih =>
    obtain ⟨b, v⟩ := c
    simp only [Memory.writeAll]
    rw [ih _ fun c hc => h c (by simp [hc]), Memory.read_write_other _ _ _ _ (Ne.symm (h (b, v) (by simp)))]

theorem Memory.read_scramble_other (m : Memory) (l : List Nat) (n a : Nat) (h : a ∉ l) :
    (scramble m l n).read a = m.read a := by
  induction l generalizing m n with
  | nil => rfl
  | cons b rest ih =>
    simp only [List.mem_cons, not_or] at h
    simp only [scramble]
    rw [ih _ _ h.2, Memory.read_write_other _ _ _ _ h.1]

theorem Memory.writeAll_append (m : Memory) (xs ys : List Host.Cell) :
    m.writeAll (xs ++ ys) = (m.writeAll xs).writeAll ys := by
  induction xs generalizing m with
  | nil => rfl
  | cons c rest ih => simp only [List.cons_append, Memory.writeAll]; exact ih _

/-- A byte that some cell names, every cell that names it with the same value, holds that value. -/
theorem Memory.read_writeAll_mem (m : Memory) (cells : List Host.Cell) (a : Nat) (v : Byte) (hw : m.wf = true)
    (hs : ∀ c, c ∈ cells → c.1 < Config.addressSpace) (hmem : (a, v) ∈ cells)
    (hu : ∀ c, c ∈ cells → c.1 = a → c.2 = v) : (m.writeAll cells).read a = v := by
  induction cells generalizing m with
  | nil => simp at hmem
  | cons c rest ih =>
    obtain ⟨b, w⟩ := c
    simp only [Memory.writeAll]
    have hw' := Memory.wf_write m b w hw (hs (b, w) (by simp))
    by_cases hr : (a, v) ∈ rest
    · exact ih _ hw' (fun c hc => hs c (by simp [hc])) hr fun c hc => hu c (by simp [hc])
    · have hb : (a, v) = (b, w) := by
        rcases List.mem_cons.mp hmem with h | h
        · exact h
        · exact absurd h hr
      obtain ⟨rfl, rfl⟩ := Prod.mk.injEq .. ▸ hb
      rw [Memory.read_writeAll_other _ _ _ fun c hc hca => hr ?_, Memory.read_write_same _ _ _ hw]
      have := hu c (by simp [hc]) hca
      rw [← hca, ← this]
      exact hc

/-- Two memories that agree at a byte agree there after the same writes. -/
theorem Memory.read_writeAll_congr (m n : Memory) (cells : List Host.Cell) (a : Nat) (hm : m.wf = true) (hn : n.wf = true)
    (hs : ∀ c, c ∈ cells → c.1 < Config.addressSpace) (h : m.read a = n.read a) :
    (m.writeAll cells).read a = (n.writeAll cells).read a := by
  induction cells generalizing m n with
  | nil => exact h
  | cons c rest ih =>
    obtain ⟨b, w⟩ := c
    have hb := hs (b, w) (by simp)
    refine ih _ _ (Memory.wf_write m b w hm hb) (Memory.wf_write n b w hn hb) (fun c hc => hs c (by simp [hc])) ?_
    by_cases hab : a = b
    · subst hab
      rw [Memory.read_write_same _ _ _ hm, Memory.read_write_same _ _ _ hn]
    · rw [Memory.read_write_other _ _ _ _ hab, Memory.read_write_other _ _ _ _ hab, h]

/-! ### Lists of byte accesses -/

theorem readsFault_eq_false (p : Platform) (l : List Nat) :
    readsFault p l = false ↔ ∀ a, a ∈ l → p.busFault a .read = false := by
  simp [readsFault]

theorem readsFault_eq_true (p : Platform) (l : List Nat) :
    readsFault p l = true ↔ ∃ a, a ∈ l ∧ p.busFault a .read = true := by
  simp [readsFault]

/-- What a list of byte writes leaves: the writes before the first that faults, and whether none faults. -/
theorem writeBytes_eq (p : Platform) (m : Memory) (cells : List Host.Cell) :
    writeBytes p m cells = (m.writeAll (cells.takeWhile fun c => !p.busFault c.1 .write),
      cells.all fun c => !p.busFault c.1 .write) := by
  induction cells generalizing m with
  | nil => rfl
  | cons c rest ih =>
    obtain ⟨a, v⟩ := c
    simp only [writeBytes, List.takeWhile_cons, List.all_cons]
    cases h : p.busFault a .write
    · simp [ih, Memory.writeAll]
    · simp [Memory.writeAll]

theorem takeWhile_eq_self_of_all {α : Type} (q : α → Bool) (l : List α) (h : l.all q = true) : l.takeWhile q = l := by
  induction l with
  | nil => rfl
  | cons a l ih =>
    simp only [List.all_cons, Bool.and_eq_true] at h
    simp [h.1, ih h.2]

/-- A list of byte writes none of which faults completes, and memory holds them all. -/
theorem storeBytes_done (cells : List Host.Cell) (s : State) (h : ∀ c, c ∈ cells → s.platform.busFault c.1 .write = false) :
    storeBytes cells s = .done { s with mem := s.mem.writeAll cells } := by
  have ha : (cells.all fun c => !s.platform.busFault c.1 .write) = true := by
    rw [List.all_eq_true]
    intro c hc
    simp [h c hc]
  simp only [storeBytes, writeBytes_eq, ha, if_true, takeWhile_eq_self_of_all _ _ ha]

/-- A list of byte writes one of which faults stops there: the writes before it are made. -/
theorem storeBytes_busError (pre : List Host.Cell) (c : Host.Cell) (post : List Host.Cell) (s : State)
    (hpre : ∀ d, d ∈ pre → s.platform.busFault d.1 .write = false) (hc : s.platform.busFault c.1 .write = true) :
    storeBytes (pre ++ c :: post) s = .busError { s with mem := s.mem.writeAll pre } := by
  have ht : ((pre ++ c :: post).takeWhile fun c => !s.platform.busFault c.1 .write) = pre := by
    rw [List.takeWhile_append_of_pos fun d hd => by simp [hpre d hd]]
    simp [hc]
  have ha : ((pre ++ c :: post).all fun c => !s.platform.busFault c.1 .write) = false := by
    simp [List.all_append, hc]
  simp only [storeBytes, writeBytes_eq, ht, ha]
  rfl

/-- The state a body part ends in. -/
def BodyResult.state : BodyResult → State
  | .done s => s
  | .busError s => s

/-- Everything a list of byte writes can do: some first part of it is written, the whole of it exactly when it
completes, and no register changes. -/
theorem storeBytes_cases (cells : List Host.Cell) (s : State) :
    ∃ done rest, cells = done ++ rest ∧ (∀ c, c ∈ done → s.platform.busFault c.1 .write = false) ∧
      ((rest = [] ∧ storeBytes cells s = .done { s with mem := s.mem.writeAll done }) ∨
        ∃ c post, rest = c :: post ∧ s.platform.busFault c.1 .write = true ∧
          storeBytes cells s = .busError { s with mem := s.mem.writeAll done }) := by
  induction cells generalizing s with
  | nil => exact ⟨[], [], rfl, by simp, .inl ⟨rfl, rfl⟩⟩
  | cons c tail ih =>
    cases h : s.platform.busFault c.1 .write
    · obtain ⟨done, rest, he, hd, hr⟩ := ih { s with mem := s.mem.write c.1 c.2 }
      refine ⟨c :: done, rest, by simp [he], ?_, ?_⟩
      · intro d hdm
        rcases List.mem_cons.mp hdm with rfl | hdm
        · exact h
        · exact hd d hdm
      · obtain ⟨a, v⟩ := c
        have e : storeBytes ((a, v) :: tail) s = storeBytes tail { s with mem := s.mem.write a v } := by
          simp only [storeBytes, writeBytes, h]
          rfl
        rw [e]
        exact hr
    · refine ⟨[], c :: tail, rfl, by simp, .inr ⟨c, tail, rfl, h, ?_⟩⟩
      exact storeBytes_busError [] c tail s (by simp) h

/-! ### The frame of a command -/

/-- Everything a command can do: report its first failing check, be refused over a device, complete, or stop on a bus
error. -/
theorem runCommand_cases (i : Instr) (body : State → BodyResult) (s : State) :
    (∃ c, firstFailure (formatOf i) s (checksOf i) = some c ∧ runCommand i body s = .next (s.endCommand c)) ∨
      (firstFailure (formatOf i) s (checksOf i) = none ∧ usesDevice i s = true ∧
        runCommand i body s = .refused .bufferOverDevice) ∨
      (firstFailure (formatOf i) s (checksOf i) = none ∧ usesDevice i s = false ∧
        ((∃ t, body s = .done t ∧ runCommand i body s = .next (t.endCommand .ok)) ∨
          ∃ t, body s = .busError t ∧
            runCommand i body s = .next ((t.freeRegisters (touchedOf i)).endCommand .busError))) := by
  unfold runCommand
  cases hf : firstFailure (formatOf i) s (checksOf i) with
  | some c => exact .inl ⟨c, rfl, rfl⟩
  | none =>
    cases hu : usesDevice i s
    · refine .inr (.inr ⟨rfl, rfl, ?_⟩)
      cases hb : body s with
      | done t => exact .inl ⟨t, rfl, by simp⟩
      | busError t => exact .inr ⟨t, rfl, by simp⟩
    · exact .inr (.inl ⟨rfl, rfl, by simp⟩)

/-- A command whose checks pass, away from devices, whose body completes, ends with code 0. -/
theorem runCommand_done (i : Instr) (body : State → BodyResult) (s t : State)
    (hf : firstFailure (formatOf i) s (checksOf i) = none) (hu : usesDevice i s = false) (hb : body s = .done t) :
    runCommand i body s = .next (t.endCommand .ok) := by
  simp [runCommand, hf, hu, hb]

/-- A command whose checks pass, away from devices, whose body stops on a bus error, ends with code 7 and free values in
the registers it writes. -/
theorem runCommand_busError (i : Instr) (body : State → BodyResult) (s t : State)
    (hf : firstFailure (formatOf i) s (checksOf i) = none) (hu : usesDevice i s = false) (hb : body s = .busError t) :
    runCommand i body s = .next ((t.freeRegisters (touchedOf i)).endCommand .busError) := by
  simp [runCommand, hf, hu, hb]

end Sys2Proof.Machine
end

