-- ==== Sys2Proof/Laws/Checks.lean ====
section
/-! SUPPORT. The argument checks in numbers: each check against its rule, when the checks pass, when a buffer covers a
device. -/

namespace Sys2Proof.Machine

open Sys2Proof.Spec

theorem toInt_neg_iff (w : Word) : w.toInt < 0 ↔ w.getLsbD 31 = true := by
  rw [BitVec.toInt_neg_iff]
  have : w.getLsbD 31 = w.msb := by simp [BitVec.msb_eq_getLsbD_last]
  rw [this, BitVec.msb_eq_decide]
  simp only [decide_eq_true_eq]
  omega

theorem dim_fails_iff (f : Format) (s : State) : Check.fails f s .dim = true ↔ DimFails s := by
  simp [Check.fails, DimFails, toInt_neg_iff]

theorem rawSize_fails_iff (f : Format) (s : State) : Check.fails f s .rawSize = true ↔ RawSizeFails s := by
  exact decide_eq_true_iff

theorem gridX_eq (s : State) : s.gridX = gx s := rfl

theorem gridY_eq (s : State) : s.gridY = gy s := rfl

theorem strideOf_eq (f : Format) : strideOf f = stride f := by cases f <;> rfl

theorem cmpSize_fails_iff (f : Format) (s : State) : Check.fails f s .cmpSize = true ↔ CmpSizeFails f s := by
  rw [CmpSizeFails, ← strideOf_eq]
  exact decide_eq_true_iff

theorem rawRange_fails_iff (f : Format) (s : State) : Check.fails f s .rawRange = true ↔ RawRangeFails s := by
  simp only [Check.fails, RawRangeFails, decide_eq_true_eq]

theorem cmpRange_fails_iff (f : Format) (s : State) : Check.fails f s .cmpRange = true ↔ CmpRangeFails s := by
  simp only [Check.fails, CmpRangeFails, decide_eq_true_eq]

/-- Two regions overlap exactly when they share a byte. -/
theorem overlaps_iff (r q : Region) : r.overlaps q = true ↔ ∃ a, InBuffer r.base r.len a ∧ InBuffer q.base q.len a := by
  simp only [Region.overlaps, InBuffer, Bool.and_eq_true, decide_eq_true_eq]
  constructor
  · rintro ⟨⟨⟨h1, h2⟩, h3⟩, h4⟩
    exact ⟨max r.base q.base, by omega, by omega⟩
  · rintro ⟨a, ⟨h1, h2⟩, h3, h4⟩
    omega

theorem overlap_fails_iff (f : Format) (s : State) : Check.fails f s .overlap = true ↔ OverlapFails s := by
  simp only [Check.fails, overlaps_iff, OverlapFails, InRaw, InCmp, State.rawRegion, State.cmpRegion]

theorem block_fails_iff (f : Format) (s : State) : Check.fails f s .block = true ↔ BlockFails s := by
  simp [Check.fails, BlockFails, gridX_eq, gridY_eq]

theorem coversDevice_iff (s : State) (base len : Nat) :
    s.platform.coversDevice ⟨base, len⟩ = true ↔ CoversDevice s base len := by
  simp [Platform.coversDevice, CoversDevice, overlaps_iff]

theorem not_coversDevice_iff (s : State) (base len : Nat) :
    s.platform.coversDevice ⟨base, len⟩ = false ↔ ClearOfDevices s base len := by
  rw [← Bool.not_eq_true, coversDevice_iff]
  simp [CoversDevice, ClearOfDevices]

/-- The checks read no waiting action. -/
@[simp] theorem firstFailure_pending (f : Format) (s : State) (p : List HostAction) (l : List Check) :
    firstFailure f { s with pending := p } l = firstFailure f s l := by
  induction l with
  | nil => rfl
  | cons c l ih =>
    have hc : Check.fails f { s with pending := p } c = Check.fails f s c := by cases c <;> rfl
    simp only [firstFailure, hc, ih]

@[simp] theorem usesDevice_pending (i : Instr) (s : State) (p : List HostAction) :
    usesDevice i { s with pending := p } = usesDevice i s := rfl

/-- The code that the first failing check of the table reports is the model's first failure. -/
theorem firstFails_iff (i : Instr) (s : State) (c : BitVec 4) :
    FirstFails (failures i s) c ↔ ∃ e, firstFailure (formatOf i) s (checksOf i) = some e ∧ c = e.value := by
  have key : ∀ (f : Format) (l : List Check) (fs : List (Prop × BitVec 4)),
      fs = l.map (fun k => (Check.fails f s k = true, (Check.code k).value)) →
      (FirstFails fs c ↔ ∃ e, firstFailure f s l = some e ∧ c = e.value) := by
    intro f l
    induction l with
    | nil => rintro fs rfl; simp [FirstFails, firstFailure]
    | cons k l ih =>
      rintro fs rfl
      simp only [List.map_cons, FirstFails, firstFailure]
      cases hk : Check.fails f s k
      · simp [ih _ rfl]
      · simp
  apply key
  cases i <;>
    simp [failures, checksOf, formatOf, dim_fails_iff, rawSize_fails_iff, cmpSize_fails_iff, rawRange_fails_iff,
      cmpRange_fails_iff, overlap_fails_iff, block_fails_iff, Check.code, ErrCode.value]

theorem no_firstFails_iff (i : Instr) (s : State) :
    (∀ c, ¬ FirstFails (failures i s) c) ↔ firstFailure (formatOf i) s (checksOf i) = none := by
  simp only [firstFails_iff]
  cases firstFailure (formatOf i) s (checksOf i) with
  | none => simp
  | some e => simp

/-- The checks of a list all pass. -/
theorem firstFailure_none_iff (f : Format) (s : State) (l : List Check) :
    firstFailure f s l = none ↔ ∀ k, k ∈ l → Check.fails f s k = false := by
  induction l with
  | nil => simp [firstFailure]
  | cons k l ih =>
    simp only [firstFailure, List.mem_cons, forall_eq_or_imp]
    cases hk : Check.fails f s k
    · simp [ih]
    · simp

theorem fails_false_iff {f : Format} {s : State} {k : Check} {p : Prop} (h : Check.fails f s k = true ↔ p) :
    Check.fails f s k = false ↔ ¬ p := by rw [← h, Bool.not_eq_true]

theorem tile_checks_pass_iff (f : Format) (s : State) :
    firstFailure f s [.dim, .rawSize, .rawRange, .block] = none ↔ RawReady s ∧ ¬ BlockFails s := by
  simp [firstFailure_none_iff, fails_false_iff (dim_fails_iff f s), fails_false_iff (rawSize_fails_iff f s),
    fails_false_iff (rawRange_fails_iff f s), fails_false_iff (block_fails_iff f s), RawReady, and_assoc]

theorem clear_checks_pass_iff (f : Format) (s : State) :
    firstFailure f s [.dim, .rawSize, .rawRange] = none ↔ RawReady s := by
  simp [firstFailure_none_iff, fails_false_iff (dim_fails_iff f s), fails_false_iff (rawSize_fails_iff f s),
    fails_false_iff (rawRange_fails_iff f s), RawReady]

theorem block_checks_pass_iff (f : Format) (s : State) :
    firstFailure f s [.dim, .cmpSize, .cmpRange, .block] = none ↔ CmpReady f s ∧ ¬ BlockFails s := by
  simp [firstFailure_none_iff, fails_false_iff (dim_fails_iff f s), fails_false_iff (cmpSize_fails_iff f s),
    fails_false_iff (cmpRange_fails_iff f s), fails_false_iff (block_fails_iff f s), CmpReady, and_assoc]

theorem image_checks_pass_iff (f : Format) (s : State) :
    firstFailure f s [.dim, .rawSize, .cmpSize, .rawRange, .cmpRange, .overlap] = none ↔
      RawReady s ∧ CmpReady f s ∧ ¬ OverlapFails s := by
  simp only [firstFailure_none_iff, List.mem_cons, List.not_mem_nil, or_false, forall_eq_or_imp, forall_eq,
    fails_false_iff (dim_fails_iff f s), fails_false_iff (rawSize_fails_iff f s), fails_false_iff (cmpSize_fails_iff f s),
    fails_false_iff (rawRange_fails_iff f s), fails_false_iff (cmpRange_fails_iff f s),
    fails_false_iff (overlap_fails_iff f s), RawReady, CmpReady]
  tauto

/-- Which buffers a command launches over (R247). -/
theorem usesDevice_eq (i : Instr) (s : State) :
    usesDevice i s = ((decide (Check.rawRange ∈ checksOf i) && s.platform.coversDevice ⟨s.rawBase.toNat, s.rawLen.toNat⟩)
      || (decide (Check.cmpRange ∈ checksOf i) && s.platform.coversDevice ⟨s.cmpBase.toNat, s.cmpLen.toNat⟩)) := rfl

theorem usesDevice_false_iff (i : Instr) (s : State) :
    usesDevice i s = false ↔
      (Check.rawRange ∈ checksOf i → ClearOfDevices s s.rawBase.toNat s.rawLen.toNat) ∧
        (Check.cmpRange ∈ checksOf i → ClearOfDevices s s.cmpBase.toNat s.cmpLen.toNat) := by
  rw [usesDevice_eq, ← not_coversDevice_iff, ← not_coversDevice_iff]
  simp

/-! ### Geometry of a state whose checks pass -/

theorem width_lt_of_dim {s : State} (h : ¬ DimFails s) : s.width.toNat < 2 ^ 31 ∧ s.height.toNat < 2 ^ 31 := by
  unfold DimFails at h
  simp only [← toInt_neg_iff, BitVec.toInt_neg_iff] at h
  omega

/-- A pixel in bounds has its four bytes in the raw buffer. -/
theorem pixelByte_inRaw {s : State} (h : ¬ RawSizeFails s) {x y k c : Nat} (hk : InImage s x y k) (hc : c < 4) :
    InRaw s (pixelByte s x y k c) := by
  obtain ⟨hx, hy⟩ := hk
  unfold RawSizeFails at h
  simp only [InRaw, InBuffer, pixelByte]
  have hl : s.rawLen.toNat = s.width.toNat * s.height.toNat * 4 := by simpa using h
  have h1 : (4 * y + k / 4 + 1) * s.width.toNat ≤ s.height.toNat * s.width.toNat := Nat.mul_le_mul_right _ hy
  have h2 : (4 * y + k / 4 + 1) * s.width.toNat = (4 * y + k / 4) * s.width.toNat + s.width.toNat := by ring
  have h3 : s.width.toNat * s.height.toNat = s.height.toNat * s.width.toNat := Nat.mul_comm _ _
  omega

/-- A block of the grid has its bytes in the compressed buffer. -/
theorem blockByte_inCmp {f : Format} {s : State} (h : ¬ CmpSizeFails f s) {x y j : Nat} (hx : x < gx s) (hy : y < gy s)
    (hj : j < stride f) : InCmp s (blockByte f s x y j) := by
  unfold CmpSizeFails at h
  simp only [InCmp, InBuffer, blockByte]
  have hl : s.cmpLen.toNat = gx s * gy s * stride f := by simpa using h
  have h1 : (y + 1) * gx s ≤ gy s * gx s := Nat.mul_le_mul_right _ hy
  have h2 : (y + 1) * gx s = y * gx s + gx s := by ring
  have h3 : (y * gx s + x + 1) * stride f ≤ (gx s * gy s) * stride f := by
    apply Nat.mul_le_mul_right
    rw [Nat.mul_comm (gx s)]
    omega
  have h4 : (y * gx s + x + 1) * stride f = (y * gx s + x) * stride f + stride f := by ring
  omega

theorem div_add_inj {n a b c d : Nat} (hb : b < n) (hd : d < n) (h : a * n + b = c * n + d) : a = c ∧ b = d := by
  have h1 : (a * n + b) / n = a := by
    rw [Nat.mul_comm, Nat.mul_add_div (by omega), Nat.div_eq_of_lt hb]; rfl
  have h2 : (c * n + d) / n = c := by
    rw [Nat.mul_comm, Nat.mul_add_div (by omega), Nat.div_eq_of_lt hd]; rfl
  have h3 : a = c := by rw [← h1, ← h2, h]
  subst h3
  omega

/-- Different entries in bounds, or channels, have different addresses. -/
theorem pixelByte_inj {s : State} {x y k c x' y' k' c' : Nat} (hk : InImage s x y k) (hk' : InImage s x' y' k')
    (hk16 : k < 16) (hk16' : k' < 16) (hc : c < 4) (hc' : c' < 4) (h : pixelByte s x y k c = pixelByte s x' y' k' c') :
    x = x' ∧ y = y' ∧ k = k' ∧ c = c' := by
  obtain ⟨hx, hy⟩ := hk
  obtain ⟨hx', hy'⟩ := hk'
  unfold pixelByte at h
  have h1 := div_add_inj (n := 4) hc hc'
    (a := (4 * y + k / 4) * s.width.toNat + (4 * x + k % 4)) (c := (4 * y' + k' / 4) * s.width.toNat + (4 * x' + k' % 4))
    (by omega)
  obtain ⟨h2, rfl⟩ := h1
  obtain ⟨h3, h4⟩ := div_add_inj hx hx' h2
  omega

/-- Different blocks, or bytes of a block, have different addresses. -/
theorem blockByte_inj {f : Format} {s : State} {x y j x' y' j' : Nat} (hx : x < gx s) (hx' : x' < gx s) (hj : j < stride f)
    (hj' : j' < stride f) (h : blockByte f s x y j = blockByte f s x' y' j') : x = x' ∧ y = y' ∧ j = j' := by
  unfold blockByte at h
  obtain ⟨h2, rfl⟩ := div_add_inj hj hj' (a := y * gx s + x) (c := y' * gx s + x') (by omega)
  obtain ⟨h3, h4⟩ := div_add_inj hx hx' h2
  exact ⟨h4, h3, rfl⟩

/-- A launch over a device register, in the model's test (R247). -/
theorem launchOverDevice_iff (i : Instr) (s : State) : LaunchOverDevice i s ↔ usesDevice i s = true := by
  rw [usesDevice_eq, LaunchOverDevice, UsesRaw, UsesCmp, ← coversDevice_iff, ← coversDevice_iff]
  cases i <;> simp [checksOf]

end Sys2Proof.Machine
end

