-- ==== Sys2Proof/Laws/Codec.lean ====
section
/-! SUPPORT. The codec in numbers: one lemma per function of the colour and alpha families, against the spec's own
formulas (Sys2Proof.Spec). -/

namespace Sys2Proof.Machine

open Sys2Proof.Spec

/-! ### Bits as numbers -/

theorem toNat_append_add {m n : Nat} (x : BitVec m) (y : BitVec n) : (x ++ y).toNat = x.toNat * 2 ^ n + y.toNat := by
  rw [BitVec.toNat_append, ← Nat.shiftLeft_add_eq_or_of_lt y.isLt, Nat.shiftLeft_eq]

theorem toNat_extract {n : Nat} (x : BitVec n) (s l : Nat) : (x.extractLsb' s l).toNat = x.toNat / 2 ^ s % 2 ^ l := by
  rw [BitVec.extractLsb'_toNat, Nat.shiftRight_eq_div_pow]

@[simp] theorem toNat_littleByte (v j : Nat) : (littleByte v j).toNat = v / 2 ^ (8 * j) % 256 := by
  simp [littleByte, Nat.shiftRight_eq_div_pow]

theorem rgbTo565_toNat (r g b : Byte) : (rgbTo565 r g b).toNat = quantize r.toNat g.toNat b.toNat := by
  unfold rgbTo565 quantize
  simp only [toNat_append_add, toNat_extract]
  have := r.isLt; have := g.isLt; have := b.isLt
  omega

theorem rgb565To888_toNat (v : Half) :
    (rgb565To888 v).r.toNat = expand v.toNat 0 ∧ (rgb565To888 v).g.toNat = expand v.toNat 1 ∧
      (rgb565To888 v).b.toNat = expand v.toNat 2 := by
  unfold rgb565To888 expand
  simp only [toNat_append_add, toNat_extract]
  have := v.isLt
  refine ⟨?_, ?_, ?_⟩ <;> simp
  omega

theorem expand_lt (v c : Nat) (hv : v < 65536) : expand v c ≤ 252 := by
  unfold expand
  split <;> omega

/-! ### Colour palettes -/

/-- Channel `c` of an RGB triple. -/
def rgbChannel (q : Rgb) (c : Nat) : Byte :=
  match c with
  | 0 => q.r
  | 1 => q.g
  | _ => q.b

theorem rgbChannel_expand (v : Half) (c : Nat) (hc : c < 3) : (rgbChannel (rgb565To888 v) c).toNat = expand v.toNat c := by
  obtain ⟨h0, h1, h2⟩ := rgb565To888_toNat v
  have : c = 0 ∨ c = 1 ∨ c = 2 := by omega
  rcases this with rfl | rfl | rfl
  · exact h0
  · exact h1
  · exact h2

theorem rgbChannel_blend (f : Byte → Byte → Byte) (x y : Rgb) (c : Nat) :
    rgbChannel (blendRgb f x y) c = f (rgbChannel x c) (rgbChannel y c) := by
  unfold rgbChannel blendRgb
  split <;> rfl

theorem blendThird_toNat (x y : Byte) : (blendThird x y).toNat = (2 * x.toNat + y.toNat) / 3 := by
  have := x.isLt; have := y.isLt
  simp only [blendThird, BitVec.toNat_ofNat]
  omega

theorem blendHalf_toNat (x y : Byte) : (blendHalf x y).toNat = (x.toNat + y.toNat) / 2 := by
  have := x.isLt; have := y.isLt
  simp only [blendHalf, BitVec.toNat_ofNat]
  omega

/-- The encoder's palette is the spec's `EPAL` (R125). -/
theorem encPalette_channel (c0 c1 : Half) (j c : Nat) (hc : c < 3) :
    (rgbChannel (encPalette c0 c1 j) c).toNat = encEntry c0.toNat c1.toNat j c := by
  unfold encPalette encEntry
  split <;> simp only [rgbChannel_blend, blendThird_toNat, rgbChannel_expand _ _ hc]
  rw [Nat.add_comm]

/-- The decoder's palette is the spec's `DPAL` (R128). -/
theorem decPalette_channel (c0 c1 : Half) (j c : Nat) (hc : c < 4) :
    (channel (decPalette c0 c1 j) c).toNat = decEntry c0.toNat c1.toNat j c := by
  have hw : ∀ (q : Rgb), (channel (q.withAlpha 255#8) c).toNat = if c = 3 then 255 else (rgbChannel q c).toNat := by
    intro q
    have : c = 0 ∨ c = 1 ∨ c = 2 ∨ c = 3 := by omega
    rcases this with rfl | rfl | rfl | rfl <;> rfl
  have hz : (channel Pixel.zero c).toNat = 0 := by
    have : c = 0 ∨ c = 1 ∨ c = 2 ∨ c = 3 := by omega
    rcases this with rfl | rfl | rfl | rfl <;> rfl
  unfold decPalette decEntry
  split
  · simp only [hw]
    split <;> split <;> simp_all [encEntry] <;> exact rgbChannel_expand _ _ (by omega)
  · simp only [hw]
    split <;> split <;> simp_all [encEntry] <;> exact rgbChannel_expand _ _ (by omega)
  · simp only [hw]
    by_cases h : c0.toNat > c1.toNat
    · simp only [h, if_true]
      split
      · rfl
      · rw [rgbChannel_blend, blendThird_toNat, rgbChannel_expand _ _ (by omega), rgbChannel_expand _ _ (by omega)]
        rfl
    · simp only [h, if_false]
      split
      · rfl
      · rw [rgbChannel_blend, blendHalf_toNat, rgbChannel_expand _ _ (by omega), rgbChannel_expand _ _ (by omega)]
  · rename_i h0 h1 h2
    by_cases h : c0.toNat > c1.toNat
    · simp only [h, if_true, hw]
      split
      · rfl
      · rw [rgbChannel_blend, blendThird_toNat, rgbChannel_expand _ _ (by omega), rgbChannel_expand _ _ (by omega)]
        unfold encEntry
        split
        · exact absurd rfl h0
        · exact absurd rfl h1
        · exact absurd rfl h2
        · rw [Nat.add_comm]
    · simp only [h, if_false, hz]

theorem absDiff_sq (x y : Nat) : ((absDiff x y ^ 2 : Nat) : Int) = ((x : Int) - y) ^ 2 := by
  unfold absDiff
  rcases Nat.le_total x y with h | h
  · rw [Nat.sub_eq_zero_of_le h, Nat.zero_add]
    push_cast [h]
    ring
  · rw [Nat.sub_eq_zero_of_le h, Nat.add_zero]
    push_cast [h]
    ring

theorem absDiff_abs (x y : Nat) : ((absDiff x y : Nat) : Int) = |(x : Int) - y| := by
  unfold absDiff
  rcases Nat.le_total x y with h | h
  · rw [Nat.sub_eq_zero_of_le h, Nat.zero_add, abs_of_nonpos (by omega)]
    omega
  · rw [Nat.sub_eq_zero_of_le h, Nat.add_zero, abs_of_nonneg (by omega)]
    omega

theorem colourDist_eq (p : Pixel) (c0 c1 : Half) (j : Nat) :
    (colourDist p (encPalette c0 c1 j) : Int) = sqDist p c0.toNat c1.toNat j := by
  have h0 := encPalette_channel c0 c1 j 0 (by omega)
  have h1 := encPalette_channel c0 c1 j 1 (by omega)
  have h2 := encPalette_channel c0 c1 j 2 (by omega)
  simp only [rgbChannel] at h0 h1 h2
  unfold colourDist sqDist
  rw [← h0, ← h1, ← h2, Nat.cast_add, Nat.cast_add, absDiff_sq, absDiff_sq, absDiff_sq]

theorem luminance_eq (p : Pixel) : (luminance p : Int) = lum p := by
  simp [luminance, lum]

/-! ### Searches against the spec's -/

theorem isFirstArgmin_of_nat {n : Nat} {f : Nat → Nat} {g : Nat → Int} (hn : 0 < n) (h : ∀ j, (f j : Int) = g j) :
    IsFirstArgmin n g (firstArgmin n f) := by
  obtain ⟨h1, h2, h3⟩ := firstArgmin_spec n f hn
  refine ⟨h1, fun j hj => ?_, fun j hj => ?_⟩
  · rw [← h, ← h]; exact_mod_cast h2 j hj
  · rw [← h, ← h]; exact_mod_cast h3 j hj

theorem isFirstArgmax_of_nat {n : Nat} {f : Nat → Nat} {g : Nat → Int} (hn : 0 < n) (h : ∀ j, (f j : Int) = g j) :
    IsFirstArgmax n g (firstArgmax n f) := by
  obtain ⟨h1, h2, h3⟩ := firstArgmax_spec n f hn
  refine ⟨h1, fun j hj => ?_, fun j hj => ?_⟩
  · rw [← h, ← h]; exact_mod_cast h2 j hj
  · rw [← h, ← h]; exact_mod_cast h3 j hj

/-- The first index of the least value is one. -/
theorem isFirstArgmin_unique {n : Nat} {f : Nat → Int} {i j : Nat} (hi : IsFirstArgmin n f i) (hj : IsFirstArgmin n f j) :
    i = j := by
  obtain ⟨hi1, hi2, hi3⟩ := hi
  obtain ⟨hj1, hj2, hj3⟩ := hj
  rcases Nat.lt_trichotomy i j with h | h | h
  · exact absurd (hi2 j hj1) (not_le.mpr (hj3 i h))
  · exact h
  · exact absurd (hj2 i hi1) (not_le.mpr (hi3 j h))

/-! ### The colour sub-block -/

theorem byteNum_lt (b : Vector Byte 8) (j : Nat) : byteNum b j < 256 := (byteAt b j).isLt

theorem subColor0_toNat (b : Vector Byte 8) : (subColor0 b).toNat = color0 b := by
  unfold subColor0 color0 byteNum
  rw [toNat_append_add]
  omega

theorem subColor1_toNat (b : Vector Byte 8) : (subColor1 b).toNat = color1 b := by
  unfold subColor1 color1 byteNum
  rw [toNat_append_add]
  omega

theorem subBlockWord_toNat (b : Vector Byte 8) (j : Nat) :
    (subBlockWord b j).toNat = byteNum b (4 * j) + 2 ^ 8 * byteNum b (4 * j + 1) + 2 ^ 16 * byteNum b (4 * j + 2) +
      2 ^ 24 * byteNum b (4 * j + 3) := by
  unfold subBlockWord byteNum
  simp only [toNat_append_add]
  omega

theorem subColourIndex_eq (b : Vector Byte 8) (k : Nat) : subColourIndex b k = colourIdx b k := by
  unfold subColourIndex colourIdx
  rw [toNat_extract, subBlockWord_toNat, Nat.pow_mul]
  norm_num

theorem colourEncode_bytes (p : Vector Pixel 16) :
    byteNum (colourEncode p) 0 = (encColor0 p).toNat % 256 ∧ byteNum (colourEncode p) 1 = (encColor0 p).toNat / 256 ∧
      byteNum (colourEncode p) 2 = (encColor1 p).toNat % 256 ∧ byteNum (colourEncode p) 3 = (encColor1 p).toNat / 256 ∧
      byteNum (colourEncode p) 4 = encIdx32 p % 256 ∧ byteNum (colourEncode p) 5 = encIdx32 p / 256 % 256 ∧
      byteNum (colourEncode p) 6 = encIdx32 p / 65536 % 256 ∧ byteNum (colourEncode p) 7 = encIdx32 p / 16777216 % 256 := by
  have h0 := (encColor0 p).isLt
  have h1 := (encColor1 p).isLt
  unfold byteNum byteAt colourEncode
  refine ⟨?_, ?_, ?_, ?_, ?_, ?_, ?_, ?_⟩ <;> simp <;> omega

theorem color0_colourEncode (p : Vector Pixel 16) : color0 (colourEncode p) = (encColor0 p).toNat := by
  obtain ⟨h0, h1, -⟩ := colourEncode_bytes p
  unfold color0
  rw [h0, h1]
  omega

theorem color1_colourEncode (p : Vector Pixel 16) : color1 (colourEncode p) = (encColor1 p).toNat := by
  obtain ⟨-, -, h2, h3, -⟩ := colourEncode_bytes p
  unfold color1
  rw [h2, h3]
  omega

theorem colourIndex_lt (c0 c1 : Half) (p : Pixel) : colourIndex c0 c1 p < 4 := (firstArgmin_spec 4 _ (by omega)).1

theorem colourIdx_colourEncode (p : Vector Pixel 16) (k : Nat) (hk : k < 16) :
    colourIdx (colourEncode p) k = colourIndex (encColor0 p) (encColor1 p) (pixAt p k) := by
  obtain ⟨-, -, -, -, h4, h5, h6, h7⟩ := colourEncode_bytes p
  have hl : encIdx32 p < 2 ^ (2 * 16) := packFields_lt 2 16 _ fun i _ => colourIndex_lt _ _ _
  have hf := packFields_field 2 16 (fun i => colourIndex (encColor0 p) (encColor1 p) (pixAt p i))
    (fun i _ => colourIndex_lt _ _ _) k hk
  unfold colourIdx
  rw [h4, h5, h6, h7]
  have e : encIdx32 p % 256 + 256 * (encIdx32 p / 256 % 256) + 65536 * (encIdx32 p / 65536 % 256) +
      16777216 * (encIdx32 p / 16777216 % 256) = encIdx32 p := by omega
  rw [e, show (4 : Nat) ^ k = 2 ^ (2 * k) by rw [Nat.pow_mul]]
  exact hf

/-- The colour encoder meets R122 to R127. -/
theorem colourEncode_spec (p : Vector Pixel 16) : IsColourEncoding p (colourEncode p) := by
  refine ⟨⟨_, isFirstArgmin_of_nat (by omega) fun j => luminance_eq (pixAt p j), ?_⟩,
    ⟨_, isFirstArgmax_of_nat (by omega) fun j => luminance_eq (pixAt p j), ?_⟩, fun k hk => ?_⟩
  · rw [color0_colourEncode]; exact rgbTo565_toNat _ _ _
  · rw [color1_colourEncode]; exact rgbTo565_toNat _ _ _
  · rw [colourIdx_colourEncode p k hk, color0_colourEncode, color1_colourEncode]
    exact isFirstArgmin_of_nat (by omega) fun j => colourDist_eq _ _ _ j

/-- The colour decoder meets R128 and R129. -/
theorem colourDecode_spec (b : Vector Byte 8) (k : Nat) (hk : k < 16) : IsColourDecoding 4 b k (pixAt (colourDecode b) k) := by
  intro c hc
  rw [colourDecode, pixAt_vecOf _ _ hk, decPalette_channel _ _ _ _ hc, subColor0_toNat, subColor1_toNat, subColourIndex_eq]

/-! ### The alpha sub-block -/

theorem alphaPalette_eq (a0 a1 j : Nat) (hj : j < 8) : alphaPalette a0 a1 j = alphaEntry a0 a1 j := by
  unfold alphaPalette alphaEntry
  have : j = 0 ∨ j = 1 ∨ j = 2 ∨ j = 3 ∨ j = 4 ∨ j = 5 ∨ j = 6 ∨ j = 7 := by omega
  rcases this with rfl | rfl | rfl | rfl | rfl | rfl | rfl | rfl <;> simp

theorem alphaEntry_le (a0 a1 j : Nat) (h0 : a0 ≤ 255) (h1 : a1 ≤ 255) (hj : j < 8) : alphaEntry a0 a1 j ≤ 255 := by
  unfold alphaEntry
  have : j = 0 ∨ j = 1 ∨ j = 2 ∨ j = 3 ∨ j = 4 ∨ j = 5 ∨ j = 6 ∨ j = 7 := by omega
  rcases this with rfl | rfl | rfl | rfl | rfl | rfl | rfl | rfl <;> simp <;> (try split) <;> omega

theorem alphaOf_lt (p : Vector Pixel 16) (k : Nat) : alphaOf p k < 256 := (pixAt p k).a.isLt

theorem alphaIndex_lt (a0 a1 a : Nat) : alphaIndex a0 a1 a < 8 := (firstArgmin_spec 8 _ (by omega)).1

theorem alphaEncode_bytes (p : Vector Pixel 16) :
    byteNum (alphaEncode p) 0 = encAlpha0 p ∧ byteNum (alphaEncode p) 1 = encAlpha1 p ∧
      byteNum (alphaEncode p) 2 = encIdx48 p % 256 ∧ byteNum (alphaEncode p) 3 = encIdx48 p / 2 ^ 8 % 256 ∧
      byteNum (alphaEncode p) 4 = encIdx48 p / 2 ^ 16 % 256 ∧ byteNum (alphaEncode p) 5 = encIdx48 p / 2 ^ 24 % 256 ∧
      byteNum (alphaEncode p) 6 = encIdx48 p / 2 ^ 32 % 256 ∧ byteNum (alphaEncode p) 7 = encIdx48 p / 2 ^ 40 % 256 := by
  have h0 : encAlpha0 p < 256 := alphaOf_lt _ _
  have h1 : encAlpha1 p < 256 := alphaOf_lt _ _
  unfold byteNum byteAt alphaEncode
  refine ⟨?_, ?_, ?_, ?_, ?_, ?_, ?_, ?_⟩ <;> simp <;> omega

theorem alphaIdx_alphaEncode (p : Vector Pixel 16) (k : Nat) (hk : k < 16) :
    alphaIdx (alphaEncode p) k = alphaIndex (encAlpha0 p) (encAlpha1 p) (alphaOf p k) := by
  obtain ⟨-, -, h2, h3, h4, h5, h6, h7⟩ := alphaEncode_bytes p
  have hl : encIdx48 p < 2 ^ (3 * 16) := packFields_lt 3 16 _ fun i _ => alphaIndex_lt _ _ _
  have hf := packFields_field 3 16 (fun k => alphaIndex (encAlpha0 p) (encAlpha1 p) (alphaOf p k))
    (fun i _ => alphaIndex_lt _ _ _) k hk
  unfold alphaIdx
  rw [h2, h3, h4, h5, h6, h7]
  have e : encIdx48 p % 256 + 2 ^ 8 * (encIdx48 p / 2 ^ 8 % 256) + 2 ^ 16 * (encIdx48 p / 2 ^ 16 % 256) +
      2 ^ 24 * (encIdx48 p / 2 ^ 24 % 256) + 2 ^ 32 * (encIdx48 p / 2 ^ 32 % 256) +
      2 ^ 40 * (encIdx48 p / 2 ^ 40 % 256) = encIdx48 p := by omega
  rw [e, show (8 : Nat) ^ k = 2 ^ (3 * k) by rw [Nat.pow_mul]]
  exact hf

/-- The alpha encoder meets R150 to R153. -/
theorem alphaEncode_spec (p : Vector Pixel 16) : IsAlphaEncoding p (alphaEncode p) := by
  obtain ⟨h0, h1, -⟩ := alphaEncode_bytes p
  obtain ⟨a1, a2, -⟩ := firstArgmin_spec 16 (alphaOf p) (by omega)
  obtain ⟨b1, b2, -⟩ := firstArgmax_spec 16 (alphaOf p) (by omega)
  refine ⟨⟨⟨_, a1, h0⟩, fun k hk => ?_⟩, ⟨⟨_, b1, h1⟩, fun k hk => ?_⟩, fun k hk => ?_⟩
  · rw [h0]; exact a2 k hk
  · rw [h1]; exact b2 k hk
  · rw [alphaIdx_alphaEncode p k hk, h0, h1]
    obtain ⟨c1, c2, c3⟩ := firstArgmin_spec 8
      (fun j => absDiff (alphaOf p k) (alphaPalette (encAlpha0 p) (encAlpha1 p) j)) (by omega)
    have e : ∀ j, j < 8 → ((absDiff (alphaOf p k) (alphaPalette (encAlpha0 p) (encAlpha1 p) j) : Nat) : Int) =
        |((pixAt p k).a.toNat : Int) - alphaEntry (encAlpha0 p) (encAlpha1 p) j| := by
      intro j hj
      rw [absDiff_abs, alphaPalette_eq _ _ _ hj]
      rfl
    refine ⟨c1, fun j hj => ?_, fun j hj => ?_⟩
    · have h := c2 j hj
      rw [← Nat.cast_le (α := Int), e _ c1, e _ hj] at h
      exact h
    · have h := c3 j hj
      rw [← Nat.cast_lt (α := Int), e _ c1, e _ (lt_trans hj c1)] at h
      exact h

theorem subIdx48_eq (b : Vector Byte 8) :
    subIdx48 b = byteNum b 2 + 2 ^ 8 * byteNum b 3 + 2 ^ 16 * byteNum b 4 + 2 ^ 24 * byteNum b 5 + 2 ^ 32 * byteNum b 6 +
      2 ^ 40 * byteNum b 7 := by
  change packFields 8 (0 + 1 + 1 + 1 + 1 + 1 + 1) _ = _
  simp only [packFields_succ, byteNum, Nat.zero_add, Nat.reduceAdd, Nat.reduceMul]
  simp only [packFields, List.range_zero, List.map_nil, List.sum_nil]
  omega

theorem subAlphaIndex_eq (b : Vector Byte 8) (k : Nat) : subAlphaIndex b k = alphaIdx b k := by
  rw [subAlphaIndex, alphaIdx, subIdx48_eq, Nat.shiftRight_eq_div_pow, Nat.pow_mul]

/-- The alpha decoder meets R154. -/
theorem alphaDecode_toNat (b : Vector Byte 8) (k : Nat) : (alphaDecode b k).toNat = decodedAlpha b k := by
  have hk : subAlphaIndex b k < 8 := Nat.mod_lt _ (by omega)
  have hle := alphaEntry_le (byteNum b 0) (byteNum b 1) (subAlphaIndex b k)
    (by have := byteNum_lt b 0; omega) (by have := byteNum_lt b 1; omega) hk
  unfold alphaDecode decodedAlpha
  rw [alphaPalette_eq _ _ _ hk, ← subAlphaIndex_eq, BitVec.toNat_ofNat]
  exact Nat.mod_eq_of_lt (by simpa [byteNum] using Nat.lt_succ_of_le hle)

theorem pixAt_overrideAlpha (p : Vector Pixel 16) (t : Nat → Byte) (k : Nat) (hk : k < 16) :
    pixAt (overrideAlpha p t) k = { pixAt p k with a := t k } := pixAt_vecOf _ _ hk

end Sys2Proof.Machine
end

