-- ==== Sys2Proof/Laws/Tiler.lean ====
section
/-! SUPPORT. The tile and image families: which bytes each body part reads and writes, the frame of each, and the loop
over the blocks of the grid. -/

namespace Sys2Proof.Machine

open Sys2Proof.Spec

/-! ### Geometry at the cursor -/

theorem inBounds_iff (s : State) (k : Nat) : s.inBounds k = true ↔ InImage s s.blkX.toNat s.blkY.toNat k := by
  rw [State.inBounds, Bool.and_eq_true]
  exact and_congr decide_eq_true_iff decide_eq_true_iff

theorem pixelAddr_eq (s : State) (k c : Nat) : s.pixelAddr k + c = pixelByte s s.blkX.toNat s.blkY.toNat k c := rfl

theorem colourByteAddr_bc1 (s : State) (j : Nat) :
    colourByteAddr .bc1 s j = blockByte .bc1 s s.blkX.toNat s.blkY.toNat j := rfl

theorem colourByteAddr_bc3 (s : State) (j : Nat) :
    colourByteAddr .bc3 s j = blockByte .bc3 s s.blkX.toNat s.blkY.toNat (8 + j) := by
  unfold colourByteAddr
  exact Nat.add_assoc _ _ _

theorem alphaByteAddr_eq (s : State) (j : Nat) : alphaByteAddr s j = blockByte .bc3 s s.blkX.toNat s.blkY.toNat j := rfl

/-- The cursor of a block of the grid holds its coordinates: the grid is less than 2^32 wide and high. -/
theorem setCursor_toNat (s : State) {x y : Nat} (hx : x < gx s) (hy : y < gy s) :
    (s.setCursor x y).blkX.toNat = x ∧ (s.setCursor x y).blkY.toNat = y := by
  have h1 := s.width.isLt
  have h2 := s.height.isLt
  unfold gx at hx
  unfold gy at hy
  simp only [State.setCursor, BitVec.toNat_ofNat]
  omega

theorem mem_blocks (s : State) (x y : Nat) : (x, y) ∈ s.blocks ↔ x < gx s ∧ y < gy s := by
  simp only [State.blocks, List.mem_flatMap, List.mem_map, List.mem_range, gridX_eq, gridY_eq, Prod.mk.injEq]
  constructor
  · rintro ⟨b, hb, a, ha, rfl, rfl⟩
    exact ⟨ha, hb⟩
  · rintro ⟨hx, hy⟩
    exact ⟨y, hy, x, hx, rfl, rfl⟩

/-! ### Bytes of a tile and of a block -/

theorem mem_tileReads (s : State) (a : Nat) :
    a ∈ tileReads s ↔ ∃ k c, k < 16 ∧ c < 4 ∧ InImage s s.blkX.toNat s.blkY.toNat k ∧
      a = pixelByte s s.blkX.toNat s.blkY.toNat k c := by
  simp only [tileReads, List.mem_flatMap, List.mem_range]
  constructor
  · rintro ⟨k, hk, ha⟩
    split at ha
    · rename_i hb
      rw [inBounds_iff] at hb
      simp only [List.mem_cons, List.not_mem_nil, or_false] at ha
      rcases ha with rfl | rfl | rfl | rfl
      · exact ⟨k, 0, hk, by omega, hb, rfl⟩
      · exact ⟨k, 1, hk, by omega, hb, rfl⟩
      · exact ⟨k, 2, hk, by omega, hb, rfl⟩
      · exact ⟨k, 3, hk, by omega, hb, rfl⟩
    · simp at ha
  · rintro ⟨k, c, hk, hc, hb, rfl⟩
    refine ⟨k, hk, ?_⟩
    rw [if_pos ((inBounds_iff s k).mpr hb)]
    have : c = 0 ∨ c = 1 ∨ c = 2 ∨ c = 3 := by omega
    rcases this with rfl | rfl | rfl | rfl <;> simp [← pixelAddr_eq]

/-- The cells of one entry. -/
def entryCells (s : State) (k : Nat) : List Host.Cell :=
  if s.inBounds k then
    [(s.pixelAddr k, (pixAt s.pix k).r), (s.pixelAddr k + 1, (pixAt s.pix k).g),
     (s.pixelAddr k + 2, (pixAt s.pix k).b), (s.pixelAddr k + 3, (pixAt s.pix k).a)]
  else []

theorem tileWrites_eq (s : State) : tileWrites s = (List.range 16).flatMap (entryCells s) := rfl

theorem mem_entryCells (s : State) (k : Nat) (d : Host.Cell) :
    d ∈ entryCells s k ↔ ∃ c, c < 4 ∧ InImage s s.blkX.toNat s.blkY.toNat k ∧
      d = (pixelByte s s.blkX.toNat s.blkY.toNat k c, channel (pixAt s.pix k) c) := by
  unfold entryCells
  constructor
  · intro ha
    split at ha
    · rename_i hb
      rw [inBounds_iff] at hb
      simp only [List.mem_cons, List.not_mem_nil, or_false] at ha
      rcases ha with rfl | rfl | rfl | rfl
      · exact ⟨0, by omega, hb, rfl⟩
      · exact ⟨1, by omega, hb, rfl⟩
      · exact ⟨2, by omega, hb, rfl⟩
      · exact ⟨3, by omega, hb, rfl⟩
    · simp at ha
  · rintro ⟨c, hc, hb, rfl⟩
    rw [if_pos ((inBounds_iff s k).mpr hb)]
    have : c = 0 ∨ c = 1 ∨ c = 2 ∨ c = 3 := by omega
    rcases this with rfl | rfl | rfl | rfl <;> simp [← pixelAddr_eq, channel]

theorem mem_tileWrites (s : State) (d : Host.Cell) :
    d ∈ tileWrites s ↔ ∃ k c, k < 16 ∧ c < 4 ∧ InImage s s.blkX.toNat s.blkY.toNat k ∧
      d = (pixelByte s s.blkX.toNat s.blkY.toNat k c, channel (pixAt s.pix k) c) := by
  simp only [tileWrites_eq, List.mem_flatMap, List.mem_range, mem_entryCells]
  constructor
  · rintro ⟨k, hk, c, hc, hb, rfl⟩
    exact ⟨k, c, hk, hc, hb, rfl⟩
  · rintro ⟨k, c, hk, hc, hb, rfl⟩
    exact ⟨k, hk, c, hc, hb, rfl⟩

theorem mem_blockReads (f : Format) (s : State) (a : Nat) :
    a ∈ blockReads f s ↔ ∃ j, j < stride f ∧ a = blockByte f s s.blkX.toNat s.blkY.toNat j := by
  cases f
  · simp only [blockReads, List.nil_append, List.mem_map, List.mem_range, colourByteAddr_bc1, stride]
    exact ⟨fun ⟨j, hj, h⟩ => ⟨j, hj, h.symm⟩, fun ⟨j, hj, h⟩ => ⟨j, hj, h.symm⟩⟩
  · simp only [blockReads, List.mem_append, List.mem_map, List.mem_range, alphaByteAddr_eq, colourByteAddr_bc3, stride]
    constructor
    · rintro (⟨j, hj, rfl⟩ | ⟨j, hj, rfl⟩)
      · exact ⟨j, by omega, rfl⟩
      · exact ⟨8 + j, by omega, rfl⟩
    · rintro ⟨j, hj, rfl⟩
      rcases Nat.lt_or_ge j 8 with h | h
      · exact .inl ⟨j, h, rfl⟩
      · exact .inr ⟨j - 8, by omega, by rw [Nat.add_sub_cancel' h]⟩

/-- The writes of a block, in the order of its bytes. -/
theorem blockWrites_eq (f : Format) (s : State) :
    blockWrites f s = (List.range (stride f)).map fun j =>
      (blockByte f s s.blkX.toNat s.blkY.toNat j, blockImage f s.ablk s.cblk j) := by
  cases f
  · simp only [blockWrites, List.nil_append, colourByteAddr_bc1, stride, blockImage]
  · simp only [blockWrites, alphaByteAddr_eq, colourByteAddr_bc3, stride, blockImage]
    rw [show (16 : Nat) = 8 + 8 from rfl, List.range_add, List.map_append, List.map_map]
    congr 1

theorem mem_blockWrites (f : Format) (s : State) (d : Host.Cell) :
    d ∈ blockWrites f s ↔ ∃ j, j < stride f ∧
      d = (blockByte f s s.blkX.toNat s.blkY.toNat j, blockImage f s.ablk s.cblk j) := by
  rw [blockWrites_eq]
  simp only [List.mem_map, List.mem_range]
  exact ⟨fun ⟨j, hj, h⟩ => ⟨j, hj, h.symm⟩, fun ⟨j, hj, h⟩ => ⟨j, hj, h.symm⟩⟩

theorem mem_clearWrites (s : State) (d : Host.Cell) : d ∈ clearWrites s ↔ InRaw s d.1 ∧ d.2 = 0#8 := by
  obtain ⟨a, v⟩ := d
  simp only [clearWrites, List.mem_map, List.mem_range, Prod.mk.injEq, InRaw, InBuffer]
  constructor
  · rintro ⟨o, ho, rfl, rfl⟩
    exact ⟨⟨by omega, by omega⟩, rfl⟩
  · rintro ⟨⟨h1, h2⟩, rfl⟩
    exact ⟨a - s.rawBase.toNat, by omega, by omega, rfl⟩

/-! ### What the body parts leave in the block registers -/

theorem tilePixel_spec (s : State) (k : Nat) :
    IsTilePixel s s.blkX.toNat s.blkY.toNat k (tilePixel s k) := by
  unfold tilePixel
  constructor
  · intro hb c hc
    rw [if_pos ((inBounds_iff s k).mpr hb)]
    have : c = 0 ∨ c = 1 ∨ c = 2 ∨ c = 3 := by omega
    rcases this with rfl | rfl | rfl | rfl <;> rfl
  · intro hb
    rw [if_neg (by rw [inBounds_iff]; exact hb)]

/-- PIX after LOAD_TILE is the tile at the cursor (R184). -/
theorem loadedTile_spec (s : State) : IsTile s s.blkX.toNat s.blkY.toNat (loadedTile s).pix := by
  intro k hk
  rw [loadedTile, pixAt_vecOf _ _ hk]
  exact tilePixel_spec s k

/-- The block registers after GET_BLOCK hold the block at the cursor (R187). -/
theorem gottenBlock_spec (f : Format) (s : State) (j : Nat) (hj : j < stride f) :
    blockImage f (gottenBlock f s).ablk (gottenBlock f s).cblk j =
      s.mem.read (blockByte f s s.blkX.toNat s.blkY.toNat j) := by
  cases f
  · simp only [blockImage, gottenBlock]
    exact byteAt_vecOf _ _ hj
  · simp only [blockImage, gottenBlock]
    rcases Nat.lt_or_ge j 8 with h | h
    · rw [if_pos h, byteAt_vecOf _ _ h]
      rfl
    · have hj' : j < 16 := hj
      rw [if_neg (by omega), byteAt_vecOf _ _ (by omega), colourByteAddr_bc3, Nat.add_sub_cancel' h]

theorem gottenBlock_ablk_bc1 (s : State) : (gottenBlock .bc1 s).ablk = s.ablk := rfl

/-! ### Frames of the body parts -/

/-- What every part of a body leaves: the geometry, the buffers, what waits, what was answered, the platform. -/
structure SameFrame (s t : State) : Prop where
  width : t.width = s.width
  height : t.height = s.height
  rawBase : t.rawBase = s.rawBase
  rawLen : t.rawLen = s.rawLen
  cmpBase : t.cmpBase = s.cmpBase
  cmpLen : t.cmpLen = s.cmpLen
  pending : t.pending = s.pending
  responses : t.responses = s.responses
  platform : t.platform = s.platform

theorem SameFrame.refl (s : State) : SameFrame s s := ⟨rfl, rfl, rfl, rfl, rfl, rfl, rfl, rfl, rfl⟩

theorem SameFrame.trans {s t u : State} (h : SameFrame s t) (k : SameFrame t u) : SameFrame s u :=
  ⟨k.width.trans h.width, k.height.trans h.height, k.rawBase.trans h.rawBase, k.rawLen.trans h.rawLen,
    k.cmpBase.trans h.cmpBase, k.cmpLen.trans h.cmpLen, k.pending.trans h.pending, k.responses.trans h.responses,
    k.platform.trans h.platform⟩

theorem SameFrame.pixelByte {s t : State} (h : SameFrame s t) (x y k c : Nat) :
    pixelByte t x y k c = pixelByte s x y k c := by
  simp only [Spec.pixelByte, h.width, h.rawBase]

theorem SameFrame.gx {s t : State} (h : SameFrame s t) : gx t = gx s := by simp only [Spec.gx, h.width]

theorem SameFrame.gy {s t : State} (h : SameFrame s t) : gy t = gy s := by simp only [Spec.gy, h.height]

theorem SameFrame.blockByte {s t : State} (h : SameFrame s t) (f : Format) (x y j : Nat) :
    blockByte f t x y j = blockByte f s x y j := by
  simp only [Spec.blockByte, h.gx, h.cmpBase]

theorem SameFrame.inImage {s t : State} (h : SameFrame s t) (x y k : Nat) : InImage t x y k ↔ InImage s x y k := by
  simp only [InImage, h.width, h.height]

theorem SameFrame.inRaw {s t : State} (h : SameFrame s t) (a : Nat) : InRaw t a ↔ InRaw s a := by
  simp only [InRaw, h.rawBase, h.rawLen]

theorem SameFrame.inCmp {s t : State} (h : SameFrame s t) (a : Nat) : InCmp t a ↔ InCmp s a := by
  simp only [InCmp, h.cmpBase, h.cmpLen]

theorem SameFrame.blocks {s t : State} (h : SameFrame s t) : t.blocks = s.blocks := by
  simp only [State.blocks, State.gridX, State.gridY, State.imageW, State.imageH, h.width, h.height]

theorem setCursor_frame (s : State) (x y : Nat) : SameFrame s (s.setCursor x y) :=
  ⟨rfl, rfl, rfl, rfl, rfl, rfl, rfl, rfl, rfl⟩

theorem encodeBlock_frame (f : Format) (s : State) : SameFrame s (encodeBlock f s) := by
  cases f <;> exact ⟨rfl, rfl, rfl, rfl, rfl, rfl, rfl, rfl, rfl⟩

theorem decodeBlock_frame (f : Format) (s : State) : SameFrame s (decodeBlock f s) := by
  cases f <;> exact ⟨rfl, rfl, rfl, rfl, rfl, rfl, rfl, rfl, rfl⟩

theorem loadedTile_frame (s : State) : SameFrame s (loadedTile s) := ⟨rfl, rfl, rfl, rfl, rfl, rfl, rfl, rfl, rfl⟩

theorem gottenBlock_frame (f : Format) (s : State) : SameFrame s (gottenBlock f s) := by
  cases f <;> exact ⟨rfl, rfl, rfl, rfl, rfl, rfl, rfl, rfl, rfl⟩

theorem setMem_frame (s : State) (m : Memory) : SameFrame s { s with mem := m } :=
  ⟨rfl, rfl, rfl, rfl, rfl, rfl, rfl, rfl, rfl⟩

theorem freeRegisters_frame (s : State) (t : Touched) : SameFrame s (s.freeRegisters t) :=
  ⟨rfl, rfl, rfl, rfl, rfl, rfl, rfl, rfl, rfl⟩

theorem endCommand_frame (s : State) (c : ErrCode) : SameFrame s (s.endCommand c) :=
  ⟨rfl, rfl, rfl, rfl, rfl, rfl, rfl, rfl, rfl⟩

/-- A state with the frame of another, written out. -/
theorem SameFrame.eq {s t : State} (h : SameFrame s t) :
    t = { s with errcode := t.errcode, blkX := t.blkX, blkY := t.blkY, pix := t.pix, ablk := t.ablk, cblk := t.cblk
                 mem := t.mem, draws := t.draws } := by
  obtain ⟨h1, h2, h3, h4, h5, h6, h7, h8, h9⟩ := h
  cases t
  simp only at h1 h2 h3 h4 h5 h6 h7 h8 h9
  subst h1 h2 h3 h4 h5 h6 h7 h8 h9
  rfl

theorem tileReads_congr {s t : State} (h : SameFrame s t) (x y : Nat) :
    tileReads (t.setCursor x y) = tileReads (s.setCursor x y) := by
  rw [h.eq]
  rfl

theorem blockReads_congr (f : Format) {s t : State} (h : SameFrame s t) (x y : Nat) :
    blockReads f (t.setCursor x y) = blockReads f (s.setCursor x y) := by
  rw [h.eq]
  cases f <;> rfl

/-- The registers of two states agree but for memory. -/
def SameButMem (s t : State) : Prop := t = { s with mem := t.mem }

/-- Everything a list of byte writes leaves: no register changes. -/
theorem storeBytes_registers (cells : List Host.Cell) (s : State) : SameButMem s (storeBytes cells s).state := by
  obtain ⟨done, rest, -, -, ⟨-, h⟩ | ⟨c, post, -, -, h⟩⟩ := storeBytes_cases cells s <;> rw [h] <;> rfl

theorem SameButMem.frame {s t : State} (h : SameButMem s t) : SameFrame s t := by
  rw [h]; exact setMem_frame s t.mem

/-- A list of byte writes changes no byte that no cell names. -/
theorem storeBytes_read_other (cells : List Host.Cell) (s : State) (a : Nat) (h : ∀ c, c ∈ cells → c.1 ≠ a) :
    (storeBytes cells s).state.mem.read a = s.mem.read a := by
  obtain ⟨done, rest, he, -, hr⟩ := storeBytes_cases cells s
  have hd : ∀ c, c ∈ done → c.1 ≠ a := fun c hc => h c (by simp [he, hc])
  rcases hr with ⟨-, hr⟩ | ⟨c, post, -, -, hr⟩ <;> rw [hr] <;>
    exact Memory.read_writeAll_other _ _ _ hd

theorem storeBytes_wf (cells : List Host.Cell) (s : State) (hw : s.mem.wf = true)
    (h : ∀ c, c ∈ cells → c.1 < Config.addressSpace) : (storeBytes cells s).state.mem.wf = true := by
  obtain ⟨done, rest, he, -, hr⟩ := storeBytes_cases cells s
  have hd : ∀ c, c ∈ done → c.1 < Config.addressSpace := fun c hc => h c (by simp [he, hc])
  rcases hr with ⟨-, hr⟩ | ⟨c, post, -, -, hr⟩ <;> rw [hr] <;> exact Memory.wf_writeAll _ _ hw hd

/-! ### The loop over blocks -/

theorem andThen_state_of_done {r : BodyResult} {f : State → BodyResult} {s : State} (h : r = .done s) :
    r.andThen f = f s := by rw [h]; rfl

theorem andThen_of_busError {r : BodyResult} {f : State → BodyResult} {s : State} (h : r = .busError s) :
    r.andThen f = .busError s := by rw [h]; rfl

/-- What holds of a state and survives each part of a body holds at the body's end. -/
theorem andThen_invariant {P : State → Prop} {r : BodyResult} {f : State → BodyResult} (hr : P r.state)
    (hf : ∀ s, P s → P (f s).state) : P (r.andThen f).state := by
  cases r with
  | done s => exact hf s hr
  | busError s => exact hr

/-- What each block's body keeps, the loop keeps, however it ends. -/
theorem forBlocks_invariant {P : State → Prop} {body : Nat → Nat → State → BodyResult} (l : List (Nat × Nat))
    (hb : ∀ x y, (x, y) ∈ l → ∀ s, P s → P (body x y s).state) (s : State) (hs : P s) :
    P (forBlocks body l s).state := by
  induction l generalizing s with
  | nil => exact hs
  | cons c rest ih =>
    obtain ⟨x, y⟩ := c
    exact andThen_invariant (hb x y (by simp) s hs) fun t ht => ih (fun x y h => hb x y (by simp [h])) t ht

theorem forBlocks_append (body : Nat → Nat → State → BodyResult) (l m : List (Nat × Nat)) (s : State) :
    forBlocks body (l ++ m) s = (forBlocks body l s).andThen (forBlocks body m) := by
  induction l generalizing s with
  | nil => rfl
  | cons c rest ih =>
    obtain ⟨x, y⟩ := c
    simp only [List.cons_append, forBlocks]
    cases body x y s with
    | done t => exact ih t
    | busError t => rfl

/-- A list of byte writes and the body part after it leave the writes of both lists before the first that faults. -/
theorem storeBytes_andThen_mem (cells more : List Host.Cell) (s : State) (f : State → BodyResult)
    (h : ∀ m, m = s.mem.writeAll cells →
      (f { s with mem := m }).state.mem = m.writeAll (untilFault s.platform more)) :
    ((storeBytes cells s).andThen f).state.mem = s.mem.writeAll (untilFault s.platform (cells ++ more)) := by
  obtain ⟨done, rest, rfl, hd, ⟨rfl, hr⟩ | ⟨c, post, rfl, hc, hr⟩⟩ := storeBytes_cases cells s
  · have ht : untilFault s.platform (done ++ [] ++ more) = done ++ untilFault s.platform more := by
      rw [List.append_nil]
      exact List.takeWhile_append_of_pos fun d hdm => by simp [hd d hdm]
    rw [andThen_state_of_done hr, ht, Memory.writeAll_append, h _ (by rw [List.append_nil])]
  · have ht : untilFault s.platform (done ++ c :: post ++ more) = done := by
      rw [List.append_assoc, untilFault, List.takeWhile_append_of_pos fun d hdm => by simp [hd d hdm]]
      simp [hc]
    rw [andThen_of_busError hr, ht]
    rfl

theorem storeBytes_mem (cells : List Host.Cell) (s : State) :
    (storeBytes cells s).state.mem = s.mem.writeAll (untilFault s.platform cells) := by
  have h := storeBytes_andThen_mem cells [] s .done fun _ _ => rfl
  rw [List.append_nil] at h
  rw [← h]
  cases storeBytes cells s <;> rfl

/-- The loop of an image command over blocks leaves the writes of the blocks it reads whole, up to the first write that
faults: `reads` is what a block's body reads at the cursor, `cells` what it then writes, both as from `s`, which every
state with `P` agrees with. -/
theorem forBlocks_mem {body : Nat → Nat → State → BodyResult} {P : State → Prop} (s : State) (reads : State → List Nat)
    (cells : Nat × Nat → List Host.Cell) (l : List (Nat × Nat))
    (hb : ∀ x y, (x, y) ∈ l → ∀ t, P t →
      (readsFault s.platform (reads (s.setCursor x y)) = true ∧ (body x y t).state.mem = t.mem ∧
        ∃ u, body x y t = .busError u) ∨
      (readsFault s.platform (reads (s.setCursor x y)) = false ∧
        ∃ u, u.platform = s.platform ∧ u.mem = t.mem ∧ body x y t = storeBytes (cells (x, y)) u ∧
          ∀ v, SameButMem u v → v.mem = t.mem.writeAll (cells (x, y)) → P v))
    (t : State) (ht : P t) :
    (forBlocks body l t).state.mem = t.mem.writeAll (untilFault s.platform
      ((l.takeWhile fun c => !readsFault s.platform (reads (s.setCursor c.1 c.2))).flatMap cells)) := by
  induction l generalizing t with
  | nil => rfl
  | cons c rest ih =>
    obtain ⟨x, y⟩ := c
    rcases hb x y (by simp) t ht with ⟨hf, hm, u, hu⟩ | ⟨hf, u, hp, hm, hu, hP⟩
    · simp only [forBlocks, List.takeWhile_cons, hf]
      rw [andThen_of_busError hu]
      rw [hu] at hm
      exact hm
    · simp only [forBlocks, List.takeWhile_cons, hf, hu]
      rw [← hp, ← hm]
      show _ = u.mem.writeAll (untilFault u.platform (cells (x, y) ++ _))
      apply storeBytes_andThen_mem
      intro m hmw
      have hrest := ih (fun x y h => hb x y (by simp [h])) { u with mem := m } (hP _ rfl (by rw [← hm]; exact hmw))
      rw [← hp] at hrest
      exact hrest

end Sys2Proof.Machine
end

