-- ==== Sys2Proof/Laws/Exec.lean ====
section
/-! SUPPORT. Every command at once: its body, what a body can change, and when its checks pass. -/

namespace Sys2Proof.Machine

open Sys2Proof.Spec

/-- The body each instruction runs between its checks and its end (R104). -/
def bodyOf : Instr → State → BodyResult
  | .nop => .done
  | .encColor => fun t => .done { t with cblk := colourEncode t.pix }
  | .decColor => fun t => .done { t with pix := colourDecode t.cblk }
  | .encAlpha => fun t => .done { t with ablk := alphaEncode t.pix }
  | .decAlpha => fun t => .done { t with pix := overrideAlpha t.pix (alphaDecode t.ablk) }
  | .encBc3 => fun t => .done (encodeBlock .bc3 t)
  | .decBc3 => fun t => .done (decodeBlock .bc3 t)
  | .loadTile => loadTile
  | .storeTile => storeTile
  | .putBlockBc1 => putBlock .bc1
  | .putBlockBc3 => putBlock .bc3
  | .getBlockBc1 => getBlock .bc1
  | .getBlockBc3 => getBlock .bc3
  | .clearRaw => clearRaw
  | .compressBc1 => compress .bc1
  | .compressBc3 => compress .bc3
  | .decompressBc1 => decompress .bc1
  | .decompressBc3 => decompress .bc3

/-- Every meaning is its body in the frame of a command. -/
theorem exec_eq (i : Instr) (s : State) : exec i s = runCommand i (bodyOf i) s := by cases i <;> rfl

/-! ### What a body can change -/

/-- From `s` to `t` the frame is kept and no byte of memory outside `D` changes. -/
structure Within (D : Nat → Prop) (s t : State) : Prop where
  frame : SameFrame s t
  read : ∀ a, ¬ D a → t.mem.read a = s.mem.read a
  wf : (∀ a, D a → a < Config.addressSpace) → s.mem.wf = true → t.mem.wf = true

theorem Within.of_mem_eq {D : Nat → Prop} {s t : State} (hf : SameFrame s t) (hm : t.mem = s.mem) : Within D s t :=
  ⟨hf, fun _ _ => by rw [hm], fun _ h => by rw [hm]; exact h⟩

theorem Within.refl (D : Nat → Prop) (s : State) : Within D s s := .of_mem_eq (.refl s) rfl

theorem Within.trans {D : Nat → Prop} {s t u : State} (h : Within D s t) (k : Within D t u) : Within D s u :=
  ⟨h.frame.trans k.frame, fun a ha => (k.read a ha).trans (h.read a ha), fun hd hw => k.wf hd (h.wf hd hw)⟩

theorem Within.mono {D E : Nat → Prop} {s t : State} (h : Within D s t) (hDE : ∀ a, D a → E a) : Within E s t :=
  ⟨h.frame, fun a ha => h.read a fun hd => ha (hDE a hd), fun he hw => h.wf (fun a hd => he a (hDE a hd)) hw⟩

theorem storeBytes_within {D : Nat → Prop} (cells : List Host.Cell) (s : State) (h : ∀ c, c ∈ cells → D c.1) :
    Within D s (storeBytes cells s).state :=
  ⟨(storeBytes_registers cells s).frame,
    fun a ha => storeBytes_read_other cells s a fun c hc hca => ha (hca ▸ h c hc),
    fun hd hw => storeBytes_wf cells s hw fun c hc => hd _ (h c hc)⟩

theorem loadTile_cases (s : State) :
    (readsFault s.platform (tileReads s) = true ∧ loadTile s = .busError s) ∨
      (readsFault s.platform (tileReads s) = false ∧ loadTile s = .done (loadedTile s)) := by
  unfold loadTile
  cases readsFault s.platform (tileReads s)
  · exact .inr ⟨rfl, rfl⟩
  · exact .inl ⟨rfl, rfl⟩

theorem getBlock_cases (f : Format) (s : State) :
    (readsFault s.platform (blockReads f s) = true ∧ getBlock f s = .busError s) ∨
      (readsFault s.platform (blockReads f s) = false ∧ getBlock f s = .done (gottenBlock f s)) := by
  unfold getBlock
  cases readsFault s.platform (blockReads f s)
  · exact .inr ⟨rfl, rfl⟩
  · exact .inl ⟨rfl, rfl⟩

theorem encodeBlock_mem (f : Format) (s : State) : (encodeBlock f s).mem = s.mem := by cases f <;> rfl

theorem decodeBlock_mem (f : Format) (s : State) : (decodeBlock f s).mem = s.mem := by cases f <;> rfl

theorem gottenBlock_mem (f : Format) (s : State) : (gottenBlock f s).mem = s.mem := by cases f <;> rfl

theorem encodeBlock_cursor (f : Format) (s : State) :
    (encodeBlock f s).blkX = s.blkX ∧ (encodeBlock f s).blkY = s.blkY := by cases f <;> exact ⟨rfl, rfl⟩

theorem decodeBlock_cursor (f : Format) (s : State) :
    (decodeBlock f s).blkX = s.blkX ∧ (decodeBlock f s).blkY = s.blkY := by cases f <;> exact ⟨rfl, rfl⟩

theorem gottenBlock_cursor (f : Format) (s : State) :
    (gottenBlock f s).blkX = s.blkX ∧ (gottenBlock f s).blkY = s.blkY := by cases f <;> exact ⟨rfl, rfl⟩

theorem loadTile_within (D : Nat → Prop) (s : State) : Within D s (loadTile s).state := by
  rcases loadTile_cases s with ⟨-, h⟩ | ⟨-, h⟩ <;> rw [h]
  · exact .refl D s
  · exact .of_mem_eq (loadedTile_frame s) rfl

theorem getBlock_within (D : Nat → Prop) (f : Format) (s : State) : Within D s (getBlock f s).state := by
  rcases getBlock_cases f s with ⟨-, h⟩ | ⟨-, h⟩ <;> rw [h]
  · exact .refl D s
  · exact .of_mem_eq (gottenBlock_frame f s) (gottenBlock_mem f s)

/-- STORE_TILE stays in the raw buffer. -/
theorem storeTile_within (s : State) (h : ¬ RawSizeFails s) : Within (InRaw s) s (storeTile s).state := by
  apply storeBytes_within
  intro d hd
  obtain ⟨k, c, hk, hc, hb, rfl⟩ := (mem_tileWrites s d).mp hd
  exact pixelByte_inRaw h hb hc

/-- PUT_BLOCK of a block of the grid stays in the compressed buffer. -/
theorem putBlock_within (f : Format) (s : State) (h : ¬ CmpSizeFails f s) (hx : s.blkX.toNat < gx s)
    (hy : s.blkY.toNat < gy s) : Within (InCmp s) s (putBlock f s).state := by
  apply storeBytes_within
  intro d hd
  obtain ⟨j, hj, rfl⟩ := (mem_blockWrites f s d).mp hd
  exact blockByte_inCmp h hx hy hj

/-- CLEAR_RAW stays in the raw buffer. -/
theorem clearRaw_within (s : State) : Within (InRaw s) s (clearRaw s).state := by
  apply storeBytes_within
  intro d hd
  exact ((mem_clearWrites s d).mp hd).1

theorem SameFrame.rawSize {s t : State} (h : SameFrame s t) : RawSizeFails t ↔ RawSizeFails s := by
  simp only [RawSizeFails, h.rawLen, h.width, h.height]

theorem SameFrame.cmpSize {s t : State} (h : SameFrame s t) (f : Format) : CmpSizeFails f t ↔ CmpSizeFails f s := by
  simp only [CmpSizeFails, h.cmpLen, h.gx, h.gy]

theorem SameFrame.inRaw_eq {s t : State} (h : SameFrame s t) : InRaw t = InRaw s := by
  funext a; exact propext (h.inRaw a)

theorem SameFrame.inCmp_eq {s t : State} (h : SameFrame s t) : InCmp t = InCmp s := by
  funext a; exact propext (h.inCmp a)

theorem compressBlock_within (f : Format) (s : State) (x y : Nat) (h : ¬ CmpSizeFails f s) (hx : x < gx s)
    (hy : y < gy s) : Within (InCmp s) s (compressBlock f x y s).state := by
  have hc : Within (InCmp s) s (s.setCursor x y) := .of_mem_eq (setCursor_frame s x y) rfl
  obtain ⟨ex, ey⟩ := setCursor_toNat s hx hy
  unfold compressBlock
  rcases loadTile_cases (s.setCursor x y) with ⟨-, hl⟩ | ⟨-, hl⟩
  · rw [andThen_of_busError hl]; exact hc
  · rw [andThen_state_of_done hl]
    set u := encodeBlock f (loadedTile (s.setCursor x y)) with hu
    have hf : SameFrame s u := (hc.frame.trans (loadedTile_frame _)).trans (encodeBlock_frame f _)
    have hm : u.mem = s.mem := encodeBlock_mem f _
    have hcx := (encodeBlock_cursor f (loadedTile (s.setCursor x y))).1
    have hcy := (encodeBlock_cursor f (loadedTile (s.setCursor x y))).2
    rw [← hu] at hcx hcy
    have hp := putBlock_within f u (by rw [hf.cmpSize]; exact h)
      (by rw [hcx, hf.gx]; exact ex.symm ▸ hx) (by rw [hcy, hf.gy]; exact ey.symm ▸ hy)
    rw [hf.inCmp_eq] at hp
    exact (Within.of_mem_eq hf hm).trans hp

theorem decompressBlock_within (f : Format) (s : State) (x y : Nat) (h : ¬ RawSizeFails s) :
    Within (InRaw s) s (decompressBlock f x y s).state := by
  have hc : Within (InRaw s) s (s.setCursor x y) := .of_mem_eq (setCursor_frame s x y) rfl
  unfold decompressBlock
  rcases getBlock_cases f (s.setCursor x y) with ⟨-, hl⟩ | ⟨-, hl⟩
  · rw [andThen_of_busError hl]; exact hc
  · rw [andThen_state_of_done hl]
    set u := decodeBlock f (gottenBlock f (s.setCursor x y)) with hu
    have hf : SameFrame s u := (hc.frame.trans (gottenBlock_frame f _)).trans (decodeBlock_frame f _)
    have hm : u.mem = s.mem := (decodeBlock_mem f _).trans (gottenBlock_mem f _)
    have hp := storeTile_within u (by rw [hf.rawSize]; exact h)
    rw [hf.inRaw_eq] at hp
    exact (Within.of_mem_eq hf hm).trans hp

/-- COMPRESS stays in the compressed buffer, however it ends. -/
theorem compress_within (f : Format) (s : State) (h : ¬ CmpSizeFails f s) : Within (InCmp s) s (compress f s).state := by
  apply forBlocks_invariant (P := fun t => Within (InCmp s) s t)
  · intro x y hxy t ht
    obtain ⟨hx, hy⟩ := (mem_blocks s x y).mp hxy
    have hb := compressBlock_within f t x y (by rw [ht.frame.cmpSize]; exact h) (by rw [ht.frame.gx]; exact hx)
      (by rw [ht.frame.gy]; exact hy)
    rw [ht.frame.inCmp_eq] at hb
    exact ht.trans hb
  · exact .refl _ s

/-- DECOMPRESS stays in the raw buffer, however it ends. -/
theorem decompress_within (f : Format) (s : State) (h : ¬ RawSizeFails s) : Within (InRaw s) s (decompress f s).state := by
  apply andThen_invariant (P := fun t => Within (InRaw s) s t)
  · exact clearRaw_within s
  · intro t ht
    apply forBlocks_invariant (P := fun t => Within (InRaw s) s t)
    · intro x y _ u hu
      have hb := decompressBlock_within f u x y (by rw [hu.frame.rawSize]; exact h)
      rw [hu.frame.inRaw_eq] at hb
      exact hu.trans hb
    · exact ht

/-- Where an instruction may change memory: the buffer it stores to. -/
def destination (i : Instr) (s : State) (a : Nat) : Prop := (StoresRaw i ∧ InRaw s a) ∨ (StoresCmp i ∧ InCmp s a)

/-- Every body, once its checks pass, keeps the frame and stays in its destination, however it ends. -/
theorem bodyOf_within (i : Instr) (s : State) (h : firstFailure (formatOf i) s (checksOf i) = none) :
    Within (destination i s) s (bodyOf i s).state := by
  have raw : StoresRaw i → ∀ a, InRaw s a → destination i s a := fun hi a ha => .inl ⟨hi, ha⟩
  have cmp : StoresCmp i → ∀ a, InCmp s a → destination i s a := fun hi a ha => .inr ⟨hi, ha⟩
  have keep : ∀ t, SameFrame s t → t.mem = s.mem → Within (destination i s) s t := fun t hf hm => .of_mem_eq hf hm
  cases i with
  | nop => exact .refl _ s
  | encColor => exact keep _ ⟨rfl, rfl, rfl, rfl, rfl, rfl, rfl, rfl, rfl⟩ rfl
  | decColor => exact keep _ ⟨rfl, rfl, rfl, rfl, rfl, rfl, rfl, rfl, rfl⟩ rfl
  | encAlpha => exact keep _ ⟨rfl, rfl, rfl, rfl, rfl, rfl, rfl, rfl, rfl⟩ rfl
  | decAlpha => exact keep _ ⟨rfl, rfl, rfl, rfl, rfl, rfl, rfl, rfl, rfl⟩ rfl
  | encBc3 => exact keep _ (encodeBlock_frame .bc3 s) rfl
  | decBc3 => exact keep _ (decodeBlock_frame .bc3 s) rfl
  | loadTile => exact loadTile_within _ s
  | getBlockBc1 => exact getBlock_within _ _ s
  | getBlockBc3 => exact getBlock_within _ _ s
  | storeTile =>
    obtain ⟨⟨-, hr, -⟩, -⟩ := (tile_checks_pass_iff _ s).mp h
    exact (storeTile_within s hr).mono (raw (.inl rfl))
  | putBlockBc1 =>
    obtain ⟨⟨-, hc, -⟩, hb⟩ := (block_checks_pass_iff _ s).mp h
    simp only [BlockFails, not_or, not_le, ge_iff_le] at hb
    exact (putBlock_within .bc1 s hc hb.1 hb.2).mono (cmp (.inl rfl))
  | putBlockBc3 =>
    obtain ⟨⟨-, hc, -⟩, hb⟩ := (block_checks_pass_iff _ s).mp h
    simp only [BlockFails, not_or, not_le, ge_iff_le] at hb
    exact (putBlock_within .bc3 s hc hb.1 hb.2).mono (cmp (.inr (.inl rfl)))
  | clearRaw => exact (clearRaw_within s).mono (raw (.inr (.inl rfl)))
  | compressBc1 =>
    obtain ⟨-, ⟨-, hc, -⟩, -⟩ := (image_checks_pass_iff _ s).mp h
    exact (compress_within .bc1 s hc).mono (cmp (.inr (.inr (.inl rfl))))
  | compressBc3 =>
    obtain ⟨-, ⟨-, hc, -⟩, -⟩ := (image_checks_pass_iff _ s).mp h
    exact (compress_within .bc3 s hc).mono (cmp (.inr (.inr (.inr rfl))))
  | decompressBc1 =>
    obtain ⟨⟨-, hr, -⟩, -⟩ := (image_checks_pass_iff _ s).mp h
    exact (decompress_within .bc1 s hr).mono (raw (.inr (.inr (.inl rfl))))
  | decompressBc3 =>
    obtain ⟨⟨-, hr, -⟩, -⟩ := (image_checks_pass_iff _ s).mp h
    exact (decompress_within .bc3 s hr).mono (raw (.inr (.inr (.inr rfl))))

/-- A buffer that a command stores to lies in the address space, once its checks pass (R110). -/
theorem destination_lt (i : Instr) (s : State) (h : firstFailure (formatOf i) s (checksOf i) = none) (a : Nat)
    (ha : destination i s a) : a < Config.addressSpace := by
  have raw : ¬ RawRangeFails s → InRaw s a → a < Config.addressSpace := fun h1 h2 => by
    simp only [RawRangeFails, InRaw, InBuffer] at h1 h2
    unfold Config.addressSpace
    omega
  have cmp : ¬ CmpRangeFails s → InCmp s a → a < Config.addressSpace := fun h1 h2 => by
    simp only [CmpRangeFails, InCmp, InBuffer] at h1 h2
    unfold Config.addressSpace
    omega
  rcases ha with ⟨hi, ha⟩ | ⟨hi, ha⟩
  · rcases hi with rfl | rfl | rfl | rfl
    · exact raw ((tile_checks_pass_iff _ s).mp h).1.2.2 ha
    · exact raw ((clear_checks_pass_iff _ s).mp h).2.2 ha
    · exact raw ((image_checks_pass_iff _ s).mp h).1.2.2 ha
    · exact raw ((image_checks_pass_iff _ s).mp h).1.2.2 ha
  · rcases hi with rfl | rfl | rfl | rfl
    · exact cmp ((block_checks_pass_iff _ s).mp h).1.2.2 ha
    · exact cmp ((block_checks_pass_iff _ s).mp h).1.2.2 ha
    · exact cmp ((image_checks_pass_iff _ s).mp h).2.1.2.2 ha
    · exact cmp ((image_checks_pass_iff _ s).mp h).2.1.2.2 ha

/-- Everything a command's next state can be: its destination apart, memory is unchanged, the frame is kept, and ERRCODE
is a code of R220. -/
theorem exec_within (i : Instr) (s t : State) (h : exec i s = .next t) :
    Within (destination i s) s t ∧ (s.mem.wf = true → t.mem.wf = true) ∧ ∃ c : ErrCode, t.errcode = c.value := by
  rw [exec_eq] at h
  rcases runCommand_cases i (bodyOf i) s with ⟨c, -, hr⟩ | ⟨-, -, hr⟩ | ⟨hf, -, ⟨u, hb, hr⟩ | ⟨u, hb, hr⟩⟩
  · rw [hr] at h
    cases h
    exact ⟨.of_mem_eq (endCommand_frame s c) rfl, fun hw => hw, c, rfl⟩
  · rw [hr] at h
    cases h
  · rw [hr] at h
    cases h
    have hw := bodyOf_within i s hf
    rw [hb] at hw
    exact ⟨hw.trans (.of_mem_eq (endCommand_frame u .ok) rfl), hw.wf (destination_lt i s hf), .ok, rfl⟩
  · rw [hr] at h
    cases h
    have hw := bodyOf_within i s hf
    rw [hb] at hw
    exact ⟨hw.trans (.of_mem_eq ((freeRegisters_frame u _).trans (endCommand_frame _ .busError)) rfl),
      hw.wf (destination_lt i s hf), .busError, rfl⟩

theorem errCode_le (c : ErrCode) : c.value.toNat ≤ 7 := by cases c <;> decide

/-! ### The writes of a command -/

theorem compressedBlockWrites_inCmp (f : Format) (s : State) (h : ¬ CmpSizeFails f s) (c : Nat × Nat)
    (hc : c ∈ s.blocks) (d : Host.Cell) (hd : d ∈ compressedBlockWrites f s c) : InCmp s d.1 := by
  obtain ⟨x, y⟩ := c
  obtain ⟨hx, hy⟩ := (mem_blocks s x y).mp hc
  obtain ⟨ex, ey⟩ := setCursor_toNat s hx hy
  set u := encodeBlock f (loadedTile (s.setCursor x y)) with hu
  have hf : SameFrame s u := ((setCursor_frame s x y).trans (loadedTile_frame _)).trans (encodeBlock_frame f _)
  obtain ⟨cx, cy⟩ := encodeBlock_cursor f (loadedTile (s.setCursor x y))
  rw [← hu] at cx cy
  have hux : u.blkX.toNat = x := by rw [cx]; exact ex
  have huy : u.blkY.toNat = y := by rw [cy]; exact ey
  obtain ⟨j, hj, rfl⟩ := (mem_blockWrites f u d).mp hd
  rw [hux, huy]
  show InCmp s (blockByte f u x y j)
  rw [hf.blockByte]
  exact blockByte_inCmp h hx hy hj

theorem decompressedTileWrites_inRaw (f : Format) (s : State) (h : ¬ RawSizeFails s) (c : Nat × Nat)
    (d : Host.Cell) (hd : d ∈ decompressedTileWrites f s c) : InRaw s d.1 := by
  set u := decodeBlock f (gottenBlock f (s.setCursor c.1 c.2)) with hu
  have hf : SameFrame s u := ((setCursor_frame s c.1 c.2).trans (gottenBlock_frame f _)).trans (decodeBlock_frame f _)
  obtain ⟨k, c, hk, hc, hb, rfl⟩ := (mem_tileWrites u d).mp hd
  show InRaw s (pixelByte u u.blkX.toNat u.blkY.toNat k c)
  rw [hf.pixelByte]
  exact pixelByte_inRaw h ((hf.inImage _ _ _).mp hb) hc

theorem mem_blocksRead {reads : State → List Nat} {s : State} {c : Nat × Nat} (h : c ∈ blocksRead reads s) :
    c ∈ s.blocks := (List.takeWhile_sublist _).subset h

theorem compressWrites_inCmp (f : Format) (s : State) (h : ¬ CmpSizeFails f s) (d : Host.Cell)
    (hd : d ∈ compressWrites f s) : InCmp s d.1 := by
  obtain ⟨c, hc, hd⟩ := List.mem_flatMap.mp hd
  exact compressedBlockWrites_inCmp f s h c (mem_blocksRead hc) d hd

theorem decompressWrites_inRaw (f : Format) (s : State) (h : ¬ RawSizeFails s) (d : Host.Cell)
    (hd : d ∈ decompressWrites f s) : InRaw s d.1 := by
  rcases List.mem_append.mp hd with hd | hd
  · exact ((mem_clearWrites s d).mp hd).1
  · obtain ⟨c, -, hd⟩ := List.mem_flatMap.mp hd
    exact decompressedTileWrites_inRaw f s h c d hd

/-- Every write of a command whose checks pass lies in the buffer it stores to. -/
theorem commandWrites_destination (i : Instr) (s : State) (h : firstFailure (formatOf i) s (checksOf i) = none)
    (d : Host.Cell) (hd : d ∈ commandWrites i s) : destination i s d.1 := by
  cases i with
  | nop | encColor | decColor | encAlpha | decAlpha | encBc3 | decBc3 | loadTile | getBlockBc1 | getBlockBc3 =>
    simp [commandWrites] at hd
  | storeTile =>
    obtain ⟨⟨-, hr, -⟩, -⟩ := (tile_checks_pass_iff _ s).mp h
    obtain ⟨k, c, hk, hc, hb, rfl⟩ := (mem_tileWrites s d).mp hd
    exact .inl ⟨.inl rfl, pixelByte_inRaw hr hb hc⟩
  | putBlockBc1 =>
    obtain ⟨⟨-, hc, -⟩, hb⟩ := (block_checks_pass_iff _ s).mp h
    simp only [BlockFails, not_or, not_le, ge_iff_le] at hb
    obtain ⟨j, hj, rfl⟩ := (mem_blockWrites .bc1 s d).mp hd
    exact .inr ⟨.inl rfl, blockByte_inCmp hc hb.1 hb.2 hj⟩
  | putBlockBc3 =>
    obtain ⟨⟨-, hc, -⟩, hb⟩ := (block_checks_pass_iff _ s).mp h
    simp only [BlockFails, not_or, not_le, ge_iff_le] at hb
    obtain ⟨j, hj, rfl⟩ := (mem_blockWrites .bc3 s d).mp hd
    exact .inr ⟨.inr (.inl rfl), blockByte_inCmp hc hb.1 hb.2 hj⟩
  | clearRaw => exact .inl ⟨.inr (.inl rfl), ((mem_clearWrites s d).mp hd).1⟩
  | compressBc1 =>
    obtain ⟨-, ⟨-, hc, -⟩, -⟩ := (image_checks_pass_iff _ s).mp h
    exact .inr ⟨.inr (.inr (.inl rfl)), compressWrites_inCmp .bc1 s hc d hd⟩
  | compressBc3 =>
    obtain ⟨-, ⟨-, hc, -⟩, -⟩ := (image_checks_pass_iff _ s).mp h
    exact .inr ⟨.inr (.inr (.inr rfl)), compressWrites_inCmp .bc3 s hc d hd⟩
  | decompressBc1 =>
    obtain ⟨⟨-, hr, -⟩, -⟩ := (image_checks_pass_iff _ s).mp h
    exact .inl ⟨.inr (.inr (.inl rfl)), decompressWrites_inRaw .bc1 s hr d hd⟩
  | decompressBc3 =>
    obtain ⟨⟨-, hr, -⟩, -⟩ := (image_checks_pass_iff _ s).mp h
    exact .inl ⟨.inr (.inr (.inr rfl)), decompressWrites_inRaw .bc3 s hr d hd⟩

theorem writesUntilFault_subset (i : Instr) (s : State) (d : Host.Cell) (hd : d ∈ writesUntilFault i s) :
    d ∈ commandWrites i s := (List.takeWhile_sublist _).subset hd

theorem unwrittenAddrs_subset (i : Instr) (k : Nat) (s : State) (a : Nat) (ha : a ∈ unwrittenAddrs i k s) :
    (∃ d, d ∈ commandWrites i s ∧ d.1 = a) ∧ ∀ d, d ∈ (writesUntilFault i s).take k → d.1 ≠ a := by
  unfold unwrittenAddrs at ha
  rw [List.mem_filter] at ha
  obtain ⟨ha, hn⟩ := ha
  obtain ⟨d, hd, rfl⟩ := List.mem_map.mp ha
  refine ⟨⟨d, writesUntilFault_subset i s d ((List.drop_sublist k _).subset hd), rfl⟩, fun e he hea => ?_⟩
  simp only [Bool.not_eq_true', List.any_eq_false, decide_eq_true_eq] at hn
  exact hn e he hea

/-! ### The writes of a command are what it leaves in memory -/

/-- COMPRESS writes for a block what it would have written from any memory with the same raw bytes. -/
theorem compressedBlockWrites_congr (f : Format) {s t : State} (h : SameFrame s t) (hs : ¬ RawSizeFails s)
    (hm : ∀ a, InRaw s a → t.mem.read a = s.mem.read a) (c : Nat × Nat) :
    compressedBlockWrites f t c = compressedBlockWrites f s c := by
  have hp : (loadedTile (t.setCursor c.1 c.2)).pix = (loadedTile (s.setCursor c.1 c.2)).pix := by
    rw [h.eq]
    show vecOf 16 _ = vecOf 16 _
    congr 1
    funext k
    show (if (s.setCursor c.1 c.2).inBounds k then _ else _) = if (s.setCursor c.1 c.2).inBounds k then _ else _
    split
    · rename_i hin
      have hr : ∀ j, j < 4 → t.mem.read ((s.setCursor c.1 c.2).pixelAddr k + j) =
          s.mem.read ((s.setCursor c.1 c.2).pixelAddr k + j) := fun j hj =>
        hm _ (pixelByte_inRaw (s := s) hs ((inBounds_iff (s.setCursor c.1 c.2) k).mp hin) hj)
      exact congr (congr (congr (congrArg Pixel.mk (hr 0 (by omega))) (hr 1 (by omega))) (hr 2 (by omega))) (hr 3 (by omega))
    · rfl
  unfold compressedBlockWrites
  cases f
  · simp only [blockWrites, encodeBlock, hp]
    rw [h.eq]
    rfl
  · simp only [blockWrites, encodeBlock, hp]
    rw [h.eq]
    rfl

/-- DECOMPRESS writes for a block what it would have written from any memory with the same compressed bytes. -/
theorem decompressedTileWrites_congr (f : Format) {s t : State} (h : SameFrame s t) (hs : ¬ CmpSizeFails f s)
    (hm : ∀ a, InCmp s a → t.mem.read a = s.mem.read a) (c : Nat × Nat) (hc : c ∈ s.blocks) :
    decompressedTileWrites f t c = decompressedTileWrites f s c := by
  obtain ⟨hx, hy⟩ := (mem_blocks s c.1 c.2).mp hc
  obtain ⟨ex, ey⟩ := setCursor_toNat s hx hy
  have hr : ∀ j, j < stride f →
      t.mem.read (blockByte f s (s.setCursor c.1 c.2).blkX.toNat (s.setCursor c.1 c.2).blkY.toNat j) =
        s.mem.read (blockByte f s (s.setCursor c.1 c.2).blkX.toNat (s.setCursor c.1 c.2).blkY.toNat j) := by
    rw [ex, ey]
    exact fun j hj => hm _ (blockByte_inCmp hs hx hy hj)
  have hcol : ∀ j, j < 8 → t.mem.read (colourByteAddr f (s.setCursor c.1 c.2) j) =
      s.mem.read (colourByteAddr f (s.setCursor c.1 c.2) j) := by
    intro j hj
    cases f
    · exact hr j hj
    · rw [colourByteAddr_bc3]
      exact hr (8 + j) (show 8 + j < 16 by omega)
  unfold decompressedTileWrites
  cases f
  · have hp : (gottenBlock .bc1 (t.setCursor c.1 c.2)).cblk = (gottenBlock .bc1 (s.setCursor c.1 c.2)).cblk := by
      rw [h.eq]
      exact vecOf_congr hcol
    simp only [tileWrites, decodeBlock, hp]
    rw [h.eq]
    rfl
  · have hp : (gottenBlock .bc3 (t.setCursor c.1 c.2)).cblk = (gottenBlock .bc3 (s.setCursor c.1 c.2)).cblk := by
      rw [h.eq]
      exact vecOf_congr hcol
    have ha : (gottenBlock .bc3 (t.setCursor c.1 c.2)).ablk = (gottenBlock .bc3 (s.setCursor c.1 c.2)).ablk := by
      rw [h.eq]
      exact vecOf_congr fun j hj => hr j (show j < 16 by omega)
    simp only [tileWrites, decodeBlock, hp, ha]
    rw [h.eq]
    rfl

theorem compress_mem (f : Format) (s : State) (hr : ¬ RawSizeFails s) (hc : ¬ CmpSizeFails f s) (ho : ¬ OverlapFails s) :
    (compress f s).state.mem = s.mem.writeAll (untilFault s.platform (compressWrites f s)) := by
  refine forBlocks_mem (P := fun t => Within (InCmp s) s t) s tileReads (compressedBlockWrites f s) s.blocks
    (fun x y hxy t ht => ?_) s (.refl _ s)
  have hraw : ∀ a, InRaw s a → t.mem.read a = s.mem.read a := fun a ha => ht.read a fun h => ho ⟨a, ha, h⟩
  unfold compressBlock
  rw [← tileReads_congr ht.frame, ← ht.frame.platform]
  rcases loadTile_cases (t.setCursor x y) with ⟨hf, hl⟩ | ⟨hf, hl⟩
  · refine .inl ⟨hf, ?_, _, andThen_of_busError hl⟩
    rw [andThen_of_busError hl]
    rfl
  · refine .inr ⟨hf, encodeBlock f (loadedTile (t.setCursor x y)), ?_, encodeBlock_mem f _, ?_, ?_⟩
    · exact (encodeBlock_frame f _).platform
    · rw [hl, ← compressedBlockWrites_congr f ht.frame hr hraw]
      rfl
    · intro v hv hm
      have hF : SameFrame s v :=
        (((ht.frame.trans (setCursor_frame t x y)).trans (loadedTile_frame _)).trans (encodeBlock_frame f _)).trans hv.frame
      have hin := compressedBlockWrites_inCmp f s hc (x, y) hxy
      refine ⟨hF, fun a ha => ?_, fun hd hw => ?_⟩
      · rw [hm, Memory.read_writeAll_other _ _ a fun c hc hca => ha (hca ▸ hin c hc)]
        exact ht.read a ha
      · rw [hm]
        exact Memory.wf_writeAll _ _ (ht.wf hd hw) fun c hc => hd _ (hin c hc)

theorem decompress_mem (f : Format) (s : State) (hr : ¬ RawSizeFails s) (hc : ¬ CmpSizeFails f s) (ho : ¬ OverlapFails s) :
    (decompress f s).state.mem = s.mem.writeAll (untilFault s.platform (decompressWrites f s)) := by
  have hin : ∀ (c : Nat × Nat) d, d ∈ decompressedTileWrites f s c → InRaw s d.1 := decompressedTileWrites_inRaw f s hr
  apply storeBytes_andThen_mem
  intro m hm
  refine forBlocks_mem (P := fun t => Within (InRaw s) s t) s (blockReads f) (decompressedTileWrites f s) s.blocks
    (fun x y hxy t ht => ?_) _ ⟨setMem_frame s m, fun a ha => ?_, fun hd hw => ?_⟩
  · have hcmp : ∀ a, InCmp s a → t.mem.read a = s.mem.read a := fun a ha => ht.read a fun h => ho ⟨a, h, ha⟩
    unfold decompressBlock
    rw [← blockReads_congr f ht.frame, ← ht.frame.platform]
    rcases getBlock_cases f (t.setCursor x y) with ⟨hf, hl⟩ | ⟨hf, hl⟩
    · refine .inl ⟨hf, ?_, _, andThen_of_busError hl⟩
      rw [andThen_of_busError hl]
      rfl
    · refine .inr ⟨hf, decodeBlock f (gottenBlock f (t.setCursor x y)), ?_,
        (decodeBlock_mem f _).trans (gottenBlock_mem f _), ?_, ?_⟩
      · exact ((gottenBlock_frame f _).trans (decodeBlock_frame f _)).platform
      · rw [hl, ← decompressedTileWrites_congr f ht.frame hc hcmp (x, y) hxy]
        rfl
      · intro v hv hm
        have hF : SameFrame s v :=
          (((ht.frame.trans (setCursor_frame t x y)).trans (gottenBlock_frame f _)).trans (decodeBlock_frame f _)).trans
            hv.frame
        refine ⟨hF, fun a ha => ?_, fun hd hw => ?_⟩
        · rw [hm, Memory.read_writeAll_other _ _ a fun c hc hca => ha (hca ▸ hin _ c hc)]
          exact ht.read a ha
        · rw [hm]
          exact Memory.wf_writeAll _ _ (ht.wf hd hw) fun c hc => hd _ (hin _ c hc)
  · subst hm
    exact Memory.read_writeAll_other _ _ _ fun c hc hca => ha (hca ▸ ((mem_clearWrites s c).mp hc).1)
  · subst hm
    exact Memory.wf_writeAll _ _ hw fun c hc => hd _ ((mem_clearWrites s c).mp hc).1

/-- Every body, once its checks pass, leaves in memory exactly the writes of the command before its first faulting access:
what a reset during the command cuts short is what the command does (R222, R241). -/
theorem bodyOf_mem (i : Instr) (s : State) (h : firstFailure (formatOf i) s (checksOf i) = none) :
    (bodyOf i s).state.mem = s.mem.writeAll (writesUntilFault i s) := by
  cases i with
  | nop | encColor | decColor | encAlpha | decAlpha | encBc3 | decBc3 => rfl
  | loadTile => rcases loadTile_cases s with ⟨-, hl⟩ | ⟨-, hl⟩ <;> exact congrArg (fun r => r.state.mem) hl
  | getBlockBc1 => rcases getBlock_cases .bc1 s with ⟨-, hl⟩ | ⟨-, hl⟩ <;> exact congrArg (fun r => r.state.mem) hl
  | getBlockBc3 => rcases getBlock_cases .bc3 s with ⟨-, hl⟩ | ⟨-, hl⟩ <;> exact congrArg (fun r => r.state.mem) hl
  | storeTile | putBlockBc1 | putBlockBc3 | clearRaw => exact storeBytes_mem _ s
  | compressBc1 =>
    obtain ⟨⟨-, hr, -⟩, ⟨-, hc, -⟩, ho⟩ := (image_checks_pass_iff _ s).mp h
    exact compress_mem .bc1 s hr hc ho
  | compressBc3 =>
    obtain ⟨⟨-, hr, -⟩, ⟨-, hc, -⟩, ho⟩ := (image_checks_pass_iff _ s).mp h
    exact compress_mem .bc3 s hr hc ho
  | decompressBc1 =>
    obtain ⟨⟨-, hr, -⟩, ⟨-, hc, -⟩, ho⟩ := (image_checks_pass_iff _ s).mp h
    exact decompress_mem .bc1 s hr hc ho
  | decompressBc3 =>
    obtain ⟨⟨-, hr, -⟩, ⟨-, hc, -⟩, ho⟩ := (image_checks_pass_iff _ s).mp h
    exact decompress_mem .bc3 s hr hc ho

end Sys2Proof.Machine
end

