-- ==== Sys2Proof/Laws/PerInstr.lean ====
section
/-! SUPPORT. Facts made per instruction: its command word splits back into its fields, which pass every check, and the
decoder's rejections are exactly the failing checks. -/

namespace Sys2Proof.Laws.Encoding

/-- An instruction's fields are well formed, and its word splits into exactly them (30_encoding.md R70, R76). -/
def Statement (i : Instr) : Prop := (fieldsOf i).wf = true ∧ Command.ofWord (encode i) = fieldsOf i

theorem nop : Statement .nop := by unfold Statement; decide

theorem encColor : Statement .encColor := by unfold Statement; decide

theorem decColor : Statement .decColor := by unfold Statement; decide

theorem encAlpha : Statement .encAlpha := by unfold Statement; decide

theorem decAlpha : Statement .decAlpha := by unfold Statement; decide

theorem encBc3 : Statement .encBc3 := by unfold Statement; decide

theorem decBc3 : Statement .decBc3 := by unfold Statement; decide

theorem loadTile : Statement .loadTile := by unfold Statement; decide

theorem storeTile : Statement .storeTile := by unfold Statement; decide

theorem putBlockBc1 : Statement .putBlockBc1 := by unfold Statement; decide

theorem putBlockBc3 : Statement .putBlockBc3 := by unfold Statement; decide

theorem getBlockBc1 : Statement .getBlockBc1 := by unfold Statement; decide

theorem getBlockBc3 : Statement .getBlockBc3 := by unfold Statement; decide

theorem clearRaw : Statement .clearRaw := by unfold Statement; decide

theorem compressBc1 : Statement .compressBc1 := by unfold Statement; decide

theorem compressBc3 : Statement .compressBc3 := by unfold Statement; decide

theorem decompressBc1 : Statement .decompressBc1 := by unfold Statement; decide

theorem decompressBc3 : Statement .decompressBc3 := by unfold Statement; decide

end Sys2Proof.Laws.Encoding

namespace Sys2Proof

/-- What the opcode map answers is what the checks say, for every OP and F. -/
theorem decodeOp_error_iff (op : BitVec 8) (f : Bool) (e : Illegal) :
    decodeOp op.toNat f = .error e ↔ Command.problem { op := op, f := f, rsv := 0#23 } = some e := by
  revert op f e
  have key : ∀ op : BitVec 8, ∀ f : Bool,
      (match decodeOp op.toNat f with
        | .error e => some e
        | .ok _ => none) = Command.problem { op := op, f := f, rsv := 0#23 } := by decide +kernel
  intro op f e
  rw [← key op f]
  cases decodeOp op.toNat f <;> simp

/-- The decoder rejects a word for exactly the first check its fields fail (30_encoding.md R75, R76). -/
theorem decode_error_iff (w : Word) (e : Illegal) : decode w = .error e ↔ (Command.ofWord w).problem = some e := by
  unfold decode
  by_cases h : (Command.ofWord w).rsv = 0#23
  · have hc : Command.ofWord w = { op := (Command.ofWord w).op, f := (Command.ofWord w).f, rsv := 0#23 } := by rw [← h]
    simp only [h, ne_eq, not_true_eq_false, if_false]
    rw [hc]
    exact decodeOp_error_iff _ _ e
  · simp only [ne_eq, h, not_false_eq_true, if_true, Command.problem, Except.error.injEq, Option.some.injEq]

end Sys2Proof
end

