-- ==== Sys2Proof/Laws/State.lean ====
section
/-! SUPPORT. One lemma per field per named update of the state, so that no proof unfolds a record update. -/

namespace Sys2Proof.Machine

/-! ### The end of a command -/

@[simp] theorem endCommand_errcode (s : State) (c : ErrCode) :
    (s.endCommand c).errcode = c.value := rfl

@[simp] theorem endCommand_width (s : State) (c : ErrCode) :
    (s.endCommand c).width = s.width := rfl

@[simp] theorem endCommand_height (s : State) (c : ErrCode) :
    (s.endCommand c).height = s.height := rfl

@[simp] theorem endCommand_rawBase (s : State) (c : ErrCode) :
    (s.endCommand c).rawBase = s.rawBase := rfl

@[simp] theorem endCommand_rawLen (s : State) (c : ErrCode) :
    (s.endCommand c).rawLen = s.rawLen := rfl

@[simp] theorem endCommand_cmpBase (s : State) (c : ErrCode) :
    (s.endCommand c).cmpBase = s.cmpBase := rfl

@[simp] theorem endCommand_cmpLen (s : State) (c : ErrCode) :
    (s.endCommand c).cmpLen = s.cmpLen := rfl

@[simp] theorem endCommand_blkX (s : State) (c : ErrCode) :
    (s.endCommand c).blkX = s.blkX := rfl

@[simp] theorem endCommand_blkY (s : State) (c : ErrCode) :
    (s.endCommand c).blkY = s.blkY := rfl

@[simp] theorem endCommand_pix (s : State) (c : ErrCode) :
    (s.endCommand c).pix = s.pix := rfl

@[simp] theorem endCommand_ablk (s : State) (c : ErrCode) :
    (s.endCommand c).ablk = s.ablk := rfl

@[simp] theorem endCommand_cblk (s : State) (c : ErrCode) :
    (s.endCommand c).cblk = s.cblk := rfl

@[simp] theorem endCommand_mem (s : State) (c : ErrCode) :
    (s.endCommand c).mem = s.mem := rfl

@[simp] theorem endCommand_pending (s : State) (c : ErrCode) :
    (s.endCommand c).pending = s.pending := rfl

@[simp] theorem endCommand_responses (s : State) (c : ErrCode) :
    (s.endCommand c).responses = s.responses := rfl

@[simp] theorem endCommand_platform (s : State) (c : ErrCode) :
    (s.endCommand c).platform = s.platform := rfl

@[simp] theorem endCommand_draws (s : State) (c : ErrCode) :
    (s.endCommand c).draws = s.draws := rfl

/-! ### The block cursor -/

@[simp] theorem setCursor_errcode (s : State) (x y : Nat) :
    (s.setCursor x y).errcode = s.errcode := rfl

@[simp] theorem setCursor_width (s : State) (x y : Nat) :
    (s.setCursor x y).width = s.width := rfl

@[simp] theorem setCursor_height (s : State) (x y : Nat) :
    (s.setCursor x y).height = s.height := rfl

@[simp] theorem setCursor_rawBase (s : State) (x y : Nat) :
    (s.setCursor x y).rawBase = s.rawBase := rfl

@[simp] theorem setCursor_rawLen (s : State) (x y : Nat) :
    (s.setCursor x y).rawLen = s.rawLen := rfl

@[simp] theorem setCursor_cmpBase (s : State) (x y : Nat) :
    (s.setCursor x y).cmpBase = s.cmpBase := rfl

@[simp] theorem setCursor_cmpLen (s : State) (x y : Nat) :
    (s.setCursor x y).cmpLen = s.cmpLen := rfl

@[simp] theorem setCursor_blkX (s : State) (x y : Nat) :
    (s.setCursor x y).blkX = BitVec.ofNat 32 x := rfl

@[simp] theorem setCursor_blkY (s : State) (x y : Nat) :
    (s.setCursor x y).blkY = BitVec.ofNat 32 y := rfl

@[simp] theorem setCursor_pix (s : State) (x y : Nat) :
    (s.setCursor x y).pix = s.pix := rfl

@[simp] theorem setCursor_ablk (s : State) (x y : Nat) :
    (s.setCursor x y).ablk = s.ablk := rfl

@[simp] theorem setCursor_cblk (s : State) (x y : Nat) :
    (s.setCursor x y).cblk = s.cblk := rfl

@[simp] theorem setCursor_mem (s : State) (x y : Nat) :
    (s.setCursor x y).mem = s.mem := rfl

@[simp] theorem setCursor_pending (s : State) (x y : Nat) :
    (s.setCursor x y).pending = s.pending := rfl

@[simp] theorem setCursor_responses (s : State) (x y : Nat) :
    (s.setCursor x y).responses = s.responses := rfl

@[simp] theorem setCursor_platform (s : State) (x y : Nat) :
    (s.setCursor x y).platform = s.platform := rfl

@[simp] theorem setCursor_draws (s : State) (x y : Nat) :
    (s.setCursor x y).draws = s.draws := rfl

/-! ### A response -/

@[simp] theorem respond_errcode (s : State) (r : Response) :
    (s.respond r).errcode = s.errcode := rfl

@[simp] theorem respond_width (s : State) (r : Response) :
    (s.respond r).width = s.width := rfl

@[simp] theorem respond_height (s : State) (r : Response) :
    (s.respond r).height = s.height := rfl

@[simp] theorem respond_rawBase (s : State) (r : Response) :
    (s.respond r).rawBase = s.rawBase := rfl

@[simp] theorem respond_rawLen (s : State) (r : Response) :
    (s.respond r).rawLen = s.rawLen := rfl

@[simp] theorem respond_cmpBase (s : State) (r : Response) :
    (s.respond r).cmpBase = s.cmpBase := rfl

@[simp] theorem respond_cmpLen (s : State) (r : Response) :
    (s.respond r).cmpLen = s.cmpLen := rfl

@[simp] theorem respond_blkX (s : State) (r : Response) :
    (s.respond r).blkX = s.blkX := rfl

@[simp] theorem respond_blkY (s : State) (r : Response) :
    (s.respond r).blkY = s.blkY := rfl

@[simp] theorem respond_pix (s : State) (r : Response) :
    (s.respond r).pix = s.pix := rfl

@[simp] theorem respond_ablk (s : State) (r : Response) :
    (s.respond r).ablk = s.ablk := rfl

@[simp] theorem respond_cblk (s : State) (r : Response) :
    (s.respond r).cblk = s.cblk := rfl

@[simp] theorem respond_mem (s : State) (r : Response) :
    (s.respond r).mem = s.mem := rfl

@[simp] theorem respond_pending (s : State) (r : Response) :
    (s.respond r).pending = s.pending := rfl

@[simp] theorem respond_responses (s : State) (r : Response) :
    (s.respond r).responses = s.responses ++ [r] := rfl

@[simp] theorem respond_platform (s : State) (r : Response) :
    (s.respond r).platform = s.platform := rfl

@[simp] theorem respond_draws (s : State) (r : Response) :
    (s.respond r).draws = s.draws := rfl

/-! ### The registers a bus error frees -/

@[simp] theorem freeRegisters_errcode (s : State) (t : Touched) :
    (s.freeRegisters t).errcode = s.errcode := rfl

@[simp] theorem freeRegisters_width (s : State) (t : Touched) :
    (s.freeRegisters t).width = s.width := rfl

@[simp] theorem freeRegisters_height (s : State) (t : Touched) :
    (s.freeRegisters t).height = s.height := rfl

@[simp] theorem freeRegisters_rawBase (s : State) (t : Touched) :
    (s.freeRegisters t).rawBase = s.rawBase := rfl

@[simp] theorem freeRegisters_rawLen (s : State) (t : Touched) :
    (s.freeRegisters t).rawLen = s.rawLen := rfl

@[simp] theorem freeRegisters_cmpBase (s : State) (t : Touched) :
    (s.freeRegisters t).cmpBase = s.cmpBase := rfl

@[simp] theorem freeRegisters_cmpLen (s : State) (t : Touched) :
    (s.freeRegisters t).cmpLen = s.cmpLen := rfl

@[simp] theorem freeRegisters_mem (s : State) (t : Touched) :
    (s.freeRegisters t).mem = s.mem := rfl

@[simp] theorem freeRegisters_pending (s : State) (t : Touched) :
    (s.freeRegisters t).pending = s.pending := rfl

@[simp] theorem freeRegisters_responses (s : State) (t : Touched) :
    (s.freeRegisters t).responses = s.responses := rfl

@[simp] theorem freeRegisters_platform (s : State) (t : Touched) :
    (s.freeRegisters t).platform = s.platform := rfl

@[simp] theorem freeRegisters_draws (s : State) (t : Touched) :
    (s.freeRegisters t).draws = s.draws + freeDraws := rfl

theorem freeRegisters_pix (s : State) (t : Touched) (h : t.pix = false) : (s.freeRegisters t).pix = s.pix := by
  simp [State.freeRegisters, h]

theorem freeRegisters_ablk (s : State) (t : Touched) (h : t.ablk = false) : (s.freeRegisters t).ablk = s.ablk := by
  simp [State.freeRegisters, h]

theorem freeRegisters_cblk (s : State) (t : Touched) (h : t.cblk = false) : (s.freeRegisters t).cblk = s.cblk := by
  simp [State.freeRegisters, h]

theorem freeRegisters_cursor (s : State) (t : Touched) (h : t.cursor = false) :
    (s.freeRegisters t).blkX = s.blkX ∧ (s.freeRegisters t).blkY = s.blkY := by
  simp [State.freeRegisters, h]

/-! ### Reset -/

@[simp] theorem applyReset_errcode (s : State) :
    (s.applyReset).errcode = State.reset.errcode := rfl

@[simp] theorem applyReset_width (s : State) :
    (s.applyReset).width = State.reset.width := rfl

@[simp] theorem applyReset_height (s : State) :
    (s.applyReset).height = State.reset.height := rfl

@[simp] theorem applyReset_rawBase (s : State) :
    (s.applyReset).rawBase = State.reset.rawBase := rfl

@[simp] theorem applyReset_rawLen (s : State) :
    (s.applyReset).rawLen = State.reset.rawLen := rfl

@[simp] theorem applyReset_cmpBase (s : State) :
    (s.applyReset).cmpBase = State.reset.cmpBase := rfl

@[simp] theorem applyReset_cmpLen (s : State) :
    (s.applyReset).cmpLen = State.reset.cmpLen := rfl

@[simp] theorem applyReset_blkX (s : State) :
    (s.applyReset).blkX = State.reset.blkX := rfl

@[simp] theorem applyReset_blkY (s : State) :
    (s.applyReset).blkY = State.reset.blkY := rfl

@[simp] theorem applyReset_pix (s : State) :
    (s.applyReset).pix = State.reset.pix := rfl

@[simp] theorem applyReset_ablk (s : State) :
    (s.applyReset).ablk = State.reset.ablk := rfl

@[simp] theorem applyReset_cblk (s : State) :
    (s.applyReset).cblk = State.reset.cblk := rfl

@[simp] theorem applyReset_mem (s : State) :
    (s.applyReset).mem = s.mem := rfl

@[simp] theorem applyReset_pending (s : State) :
    (s.applyReset).pending = s.pending := rfl

@[simp] theorem applyReset_responses (s : State) :
    (s.applyReset).responses = s.responses := rfl

@[simp] theorem applyReset_platform (s : State) :
    (s.applyReset).platform = s.platform := rfl

@[simp] theorem applyReset_draws (s : State) :
    (s.applyReset).draws = s.draws := rfl

/-! ### A waiting command -/

@[simp] theorem withCommand_errcode (s : State) (w : Word) :
    (s.withCommand w).errcode = s.errcode := rfl

@[simp] theorem withCommand_width (s : State) (w : Word) :
    (s.withCommand w).width = s.width := rfl

@[simp] theorem withCommand_height (s : State) (w : Word) :
    (s.withCommand w).height = s.height := rfl

@[simp] theorem withCommand_rawBase (s : State) (w : Word) :
    (s.withCommand w).rawBase = s.rawBase := rfl

@[simp] theorem withCommand_rawLen (s : State) (w : Word) :
    (s.withCommand w).rawLen = s.rawLen := rfl

@[simp] theorem withCommand_cmpBase (s : State) (w : Word) :
    (s.withCommand w).cmpBase = s.cmpBase := rfl

@[simp] theorem withCommand_cmpLen (s : State) (w : Word) :
    (s.withCommand w).cmpLen = s.cmpLen := rfl

@[simp] theorem withCommand_blkX (s : State) (w : Word) :
    (s.withCommand w).blkX = s.blkX := rfl

@[simp] theorem withCommand_blkY (s : State) (w : Word) :
    (s.withCommand w).blkY = s.blkY := rfl

@[simp] theorem withCommand_pix (s : State) (w : Word) :
    (s.withCommand w).pix = s.pix := rfl

@[simp] theorem withCommand_ablk (s : State) (w : Word) :
    (s.withCommand w).ablk = s.ablk := rfl

@[simp] theorem withCommand_cblk (s : State) (w : Word) :
    (s.withCommand w).cblk = s.cblk := rfl

@[simp] theorem withCommand_mem (s : State) (w : Word) :
    (s.withCommand w).mem = s.mem := rfl

@[simp] theorem withCommand_pending (s : State) (w : Word) :
    (s.withCommand w).pending = .bus (cmdWrite w) :: s.pending := rfl

@[simp] theorem withCommand_responses (s : State) (w : Word) :
    (s.withCommand w).responses = s.responses := rfl

@[simp] theorem withCommand_platform (s : State) (w : Word) :
    (s.withCommand w).platform = s.platform := rfl

@[simp] theorem withCommand_draws (s : State) (w : Word) :
    (s.withCommand w).draws = s.draws := rfl

/-! ### The tile loaded -/

@[simp] theorem loadedTile_errcode (s : State) :
    (loadedTile s).errcode = s.errcode := rfl

@[simp] theorem loadedTile_width (s : State) :
    (loadedTile s).width = s.width := rfl

@[simp] theorem loadedTile_height (s : State) :
    (loadedTile s).height = s.height := rfl

@[simp] theorem loadedTile_rawBase (s : State) :
    (loadedTile s).rawBase = s.rawBase := rfl

@[simp] theorem loadedTile_rawLen (s : State) :
    (loadedTile s).rawLen = s.rawLen := rfl

@[simp] theorem loadedTile_cmpBase (s : State) :
    (loadedTile s).cmpBase = s.cmpBase := rfl

@[simp] theorem loadedTile_cmpLen (s : State) :
    (loadedTile s).cmpLen = s.cmpLen := rfl

@[simp] theorem loadedTile_blkX (s : State) :
    (loadedTile s).blkX = s.blkX := rfl

@[simp] theorem loadedTile_blkY (s : State) :
    (loadedTile s).blkY = s.blkY := rfl

@[simp] theorem loadedTile_pix (s : State) :
    (loadedTile s).pix = vecOf 16 (tilePixel s) := rfl

@[simp] theorem loadedTile_ablk (s : State) :
    (loadedTile s).ablk = s.ablk := rfl

@[simp] theorem loadedTile_cblk (s : State) :
    (loadedTile s).cblk = s.cblk := rfl

@[simp] theorem loadedTile_mem (s : State) :
    (loadedTile s).mem = s.mem := rfl

@[simp] theorem loadedTile_pending (s : State) :
    (loadedTile s).pending = s.pending := rfl

@[simp] theorem loadedTile_responses (s : State) :
    (loadedTile s).responses = s.responses := rfl

@[simp] theorem loadedTile_platform (s : State) :
    (loadedTile s).platform = s.platform := rfl

@[simp] theorem loadedTile_draws (s : State) :
    (loadedTile s).draws = s.draws := rfl

end Sys2Proof.Machine
end

