-- ==== Sys2Proof/Tests/Slice0.lean ====
section
/-! SUPPORT. The model's own tests, expected values from spec/95_test_vectors.md or by hand from the rules, and a witness
for each statement that has hypotheses. -/

namespace Sys2Proof.Tests

-- One thread: each kernel evaluation elaborated on a thread of its own would ask for more stacks than the limit allows.
set_option Elab.async false

open Sys2Proof.Machine Sys2Proof.Spec

/-! ### Helpers -/

/-- The outcome is a next state. -/
def isNext : Host.Outcome State Fault Refusal → Bool
  | .next _ => true
  | .fault _ => false
  | .refused _ => false

/-- The next state of an outcome passes a test. -/
def nextIs (p : State → Bool) : Host.Outcome State Fault Refusal → Bool
  | .next t => p t
  | .fault _ => false
  | .refused _ => false

/-- The outcome is exactly this next state. -/
def isNextState (t : State) : Host.Outcome State Fault Refusal → Bool
  | .next u => decide (u = t)
  | .fault _ => false
  | .refused _ => false

/-- The outcome is this refusal. -/
def isRefused (r : Refusal) : Host.Outcome State Fault Refusal → Bool
  | .next _ => false
  | .fault _ => false
  | .refused e => decide (e = r)

/-- The outcome is this fault. -/
def isFault (f : Fault) : Host.Outcome State Fault Refusal → Bool
  | .next _ => false
  | .fault e => decide (e = f)
  | .refused _ => false

theorem next_of_isNext {o : Host.Outcome State Fault Refusal} (h : isNext o = true) : ∃ t, o = .next t := by
  cases o with
  | next t => exact ⟨t, rfl⟩
  | fault _ => exact absurd h Bool.false_ne_true
  | refused _ => exact absurd h Bool.false_ne_true

theorem next_of_nextIs {p : State → Bool} {o : Host.Outcome State Fault Refusal} (h : nextIs p o = true) :
    ∃ t, o = .next t ∧ p t = true := by
  cases o with
  | next t => exact ⟨t, rfl, h⟩
  | fault _ => exact absurd h Bool.false_ne_true
  | refused _ => exact absurd h Bool.false_ne_true

/-- Eight bytes. -/
def bytes8 (l : List Nat) : Vector Byte 8 := vecOf 8 fun j => BitVec.ofNat 8 (l.getD j 0)

/-- A pixel from four numbers. -/
def px (r g b a : Nat) : Pixel := ⟨BitVec.ofNat 8 r, BitVec.ofNat 8 g, BitVec.ofNat 8 b, BitVec.ofNat 8 a⟩

/-- A state after reset with a block buffer. -/
def withPix (f : Nat → Pixel) : State := { State.reset with pix := vecOf 16 f }

/-- A state after reset with sub-block registers. -/
def withBlk (alpha colour : List Nat) : State := { State.reset with ablk := bytes8 alpha, cblk := bytes8 colour }

/-- A 1x1 image in a format, its buffers at 0x1000 and 0x2000, its pixel that of V-T1. -/
def tiny (f : Format) : State :=
  { State.reset with
    width := 1#32, height := 1#32, rawBase := 0x1000#32, rawLen := 4#32, cmpBase := 0x2000#32
    cmpLen := BitVec.ofNat 32 (stride f), mem := [(0x1000, 0xFF#8), (0x1003, 0x80#8)] }

/-- The 1x1 image with compressed bytes in place: the block of V-T1. -/
def tinyBlock (f : Format) : State :=
  { tiny f with
    mem := match f with
      | .bc1 => [(0x1000, 9#8), (0x2003, 0xF8#8), (0x2004, 1#8)]
      | .bc3 => [(0x1000, 9#8), (0x2001, 0x80#8), (0x2002, 1#8), (0x200B, 0xF8#8), (0x200C, 1#8)] }

/-- A 5x1 image in a format: two blocks, its first pixel that of V-T1, with the first block of V-T1 in place for BC1 and
a byte of the second block marked. -/
def wide (f : Format) : State :=
  { tiny f with
    width := 5#32, rawLen := 20#32, cmpLen := BitVec.ofNat 32 (2 * stride f)
    mem := [(0x1000, 0xFF#8), (0x1003, 0x80#8), (0x1010, 0x11#8), (0x2003, 0xF8#8), (0x2004, 1#8), (0x2008, 0x5A#8)] }

/-- A platform where one byte faults in one direction. -/
def faultAt (a : Nat) (d : Dir) : Platform := { Platform.initial with busFaults := [⟨d, ⟨a, 1⟩⟩] }

theorem faultAt_other {a b : Nat} {d e : Dir} (h : b ≠ a) : (faultAt a d).busFault b e = false := by
  simp only [faultAt, Platform.busFault, Region.contains, List.any_cons, List.any_nil, Bool.or_false, Bool.and_eq_false_iff,
    decide_eq_false_iff_not]
  omega

/-- A waiting read of a register. -/
def readOf (o : BitVec 8) : HostAction := .bus { dir := .read, offset := o, size := 4, data := 0#32 }

/-- A waiting write of a register. -/
def writeOf (o : BitVec 8) (v : Word) : HostAction := .bus { dir := .write, offset := o, size := 4, data := v }

/-- A state whose registers all differ. -/
def marked : State :=
  { State.reset with
    errcode := 5#4, width := 101#32, height := 102#32, rawBase := 103#32, rawLen := 104#32, cmpBase := 105#32
    cmpLen := 106#32, blkX := 107#32, blkY := 108#32
    pix := vecOf 16 fun k => px (k + 1) (k + 33) (k + 65) (k + 129)
    ablk := bytes8 [1, 2, 3, 4, 5, 6, 7, 8], cblk := bytes8 [11, 12, 13, 14, 15, 16, 17, 18] }

/-- The words of memory from an address. -/
def bytesAt (t : State) (a n : Nat) : List Nat := (List.range n).map fun j => (t.mem.read (a + j)).toNat

/-! ### Well-formedness: each check refuses an ill-formed term (R76, R103) -/

theorem test_wf_reserved : (Command.mk 0x01#8 false 1#23).problem = some .reservedField := by decide

theorem test_wf_undefined : (Command.mk 0x07#8 false 0#23).problem = some .undefinedOp := by decide

theorem test_wf_format : (Command.mk 0x01#8 true 0#23).problem = some .formatNotTaken := by decide

theorem test_wf_narrow : (Transaction.mk .read 0x04#8 2 0#32).problem = some .narrow := by decide

theorem test_wf_misaligned : (Transaction.mk .write 0x05#8 4 0#32).problem = some .misaligned := by decide

theorem test_wf_good : (Command.mk 0x11#8 true 0#23).wf = true ∧ (Transaction.mk .read 0xFC#8 4 0#32).wf = true := by
  decide

/-! ### Decoding: each word written out as RSV, F, OP from R70 and R74 -/

theorem test_decode_plain :
    decode 0b00000000000000000000000_0_00000000#32 = .ok .nop ∧
      decode 0b00000000000000000000000_0_00000001#32 = .ok .encColor ∧
      decode 0b00000000000000000000000_0_00000010#32 = .ok .decColor ∧
      decode 0b00000000000000000000000_0_00000011#32 = .ok .encAlpha ∧
      decode 0b00000000000000000000000_0_00000100#32 = .ok .decAlpha ∧
      decode 0b00000000000000000000000_0_00000101#32 = .ok .encBc3 ∧
      decode 0b00000000000000000000000_0_00000110#32 = .ok .decBc3 := by decide

theorem test_decode_tile :
    decode 0b00000000000000000000000_0_00001000#32 = .ok .loadTile ∧
      decode 0b00000000000000000000000_0_00001001#32 = .ok .storeTile ∧
      decode 0b00000000000000000000000_0_00001010#32 = .ok .putBlockBc1 ∧
      decode 0b00000000000000000000000_1_00001010#32 = .ok .putBlockBc3 ∧
      decode 0b00000000000000000000000_0_00001011#32 = .ok .getBlockBc1 ∧
      decode 0b00000000000000000000000_1_00001011#32 = .ok .getBlockBc3 ∧
      decode 0b00000000000000000000000_0_00001100#32 = .ok .clearRaw := by decide

theorem test_decode_image :
    decode 0b00000000000000000000000_0_00010000#32 = .ok .compressBc1 ∧
      decode 0b00000000000000000000000_1_00010000#32 = .ok .compressBc3 ∧
      decode 0b00000000000000000000000_0_00010001#32 = .ok .decompressBc1 ∧
      decode 0b00000000000000000000000_1_00010001#32 = .ok .decompressBc3 := by decide

/-- The illegal words of V-X. -/
theorem test_decode_illegal :
    ∀ w, w ∈ [0x07, 0x0D, 0x0E, 0x0F, 0x12, 0xFF, 0x1FF, 0x101, 0x105, 0x109, 0x10C, 0x200, 0x1000A, 0x80000010] →
      (decodeTableWord 32 w).isNone = true := by decide +kernel

/-! ### One step of each family -/

/-- V-H6 and V-H10, V-H7: zero fill. -/
theorem test_colour_helpers :
    rgb565To888 0x1234#16 = ⟨16#8, 68#8, 160#8⟩ ∧ rgbTo565 200#8 100#8 50#8 = 0xCB26#16 ∧
      rgb565To888 0xFFFF#16 = ⟨248#8, 252#8, 248#8⟩ := by decide

/-- NOP leaves everything but ERRCODE (R113). -/
theorem test_nop : isNextState { marked with errcode := 0#4 } (exec .nop marked) = true := by decide +kernel

/-- V-C4: luminance ties and first occurrence. -/
theorem test_enc_color_ties :
    nextIs (fun t => t.cblk = bytes8 [0x00, 0x20, 0xE0, 0x03, 0x60, 0, 0, 0])
      (exec .encColor (withPix fun i =>
        [px 32 0 0 255, px 0 0 64 255, px 0 16 0 255, px 0 127 2 255, px 255 0 0 255].getD i (px 32 0 0 255))) = true := by
  decide +kernel

/-- V-C5: the grey ramp. -/
theorem test_enc_color_ramp :
    nextIs (fun t => t.cblk = bytes8 [0, 0, 0xFF, 0xFF, 0x80, 0xAA, 0xFF, 0x57])
      (exec .encColor (withPix fun i => px (17 * i) (17 * i) (17 * i) 255)) = true := by decide +kernel

/-- V-D1: the 4-colour decode. -/
theorem test_dec_color_four :
    nextIs (fun t => (List.range 4).map (pixAt t.pix) =
        [px 248 0 0 255, px 0 0 248 255, px 165 0 82 255, px 82 0 165 255])
      (exec .decColor (withBlk [] [0, 0xF8, 0x1F, 0, 0xE4, 0xE4, 0xE4, 0xE4])) = true := by decide +kernel

/-- E4: equal endpoints take the 3-colour branch. -/
theorem test_dec_color_three :
    nextIs (fun t => (List.range 4).map (pixAt t.pix) =
        [px 200 100 48 255, px 200 100 48 255, px 200 100 48 255, px 0 0 0 0])
      (exec .decColor (withBlk [] [0x26, 0xCB, 0x26, 0xCB, 0xE4, 0xE4, 0xE4, 0xE4])) = true := by decide +kernel

/-- V-A3: the alpha ramp. -/
theorem test_enc_alpha_ramp :
    nextIs (fun t => t.ablk = bytes8 [0x00, 0xFF, 0x80, 0xA4, 0x6D, 0x24, 0xDB, 0x26])
      (exec .encAlpha (withPix fun i => px 1 2 3 (17 * i))) = true := by decide +kernel

/-- V-A5 and V-A6: both branches of the alpha palette, colour kept. -/
theorem test_dec_alpha :
    nextIs (fun t => (List.range 8).map (fun k => (pixAt t.pix k).a.toNat) = [255, 0, 218, 182, 145, 109, 72, 36])
        (exec .decAlpha (withBlk [0xFF, 0, 0x88, 0xC6, 0xFA, 0x88, 0xC6, 0xFA] [])) = true ∧
      nextIs (fun t => (List.range 8).map (fun k => (pixAt t.pix k).a.toNat) = [40, 200, 72, 104, 136, 168, 0, 255])
        (exec .decAlpha (withBlk [0x28, 0xC8, 0x88, 0xC6, 0xFA, 0x88, 0xC6, 0xFA] [])) = true := by decide +kernel

/-- V-B1. -/
theorem test_enc_bc3 :
    nextIs (fun t => t.ablk = bytes8 [0x00, 0xFF, 0x80, 0xA4, 0x6D, 0x24, 0xDB, 0x26] &&
        t.cblk = bytes8 [0xA2, 0x8B, 0xE0, 0x07, 0xF5, 0x2A, 0, 0])
      (exec .encBc3 (withPix fun i => px (17 * i) (255 - 17 * i) (34 * i % 256) (17 * i))) = true := by decide +kernel

/-- V-B4: a stale ABLK gives the alpha. -/
theorem test_dec_bc3_stale :
    nextIs (fun t => (List.range 16).all fun k => pixAt t.pix k = px 0 0 0 128)
      (exec .decBc3 (withBlk [0x80, 0x80] [])) = true := by decide +kernel

/-- LOAD_TILE of the 1x1 image: one pixel, fifteen of padding (R183, R184). -/
theorem test_load_tile :
    nextIs (fun t => (pixAt t.pix 0 = px 255 0 0 128) && ((List.range 15).all fun k => pixAt t.pix (k + 1) = Pixel.zero))
      (exec .loadTile (tiny .bc1)) = true := by decide +kernel

/-- STORE_TILE of the 1x1 image writes its four bytes and no byte past them (R185, R191). -/
theorem test_store_tile :
    nextIs (fun t => bytesAt t 0xFFC 12 = [0, 0, 0, 0, 1, 2, 3, 4, 0, 0, 0, 0])
      (exec .storeTile { tiny .bc1 with pix := vecOf 16 fun k => px (4 * k + 1) (4 * k + 2) (4 * k + 3) (4 * k + 4) }) =
        true := by decide +kernel

/-- PUT_BLOCK in both formats: the alpha sub-block first (R186). -/
theorem test_put_block :
    nextIs (fun t => bytesAt t 0x2000 9 = [11, 12, 13, 14, 15, 16, 17, 18, 0])
        (exec .putBlockBc1 { tiny .bc1 with ablk := marked.ablk, cblk := marked.cblk }) = true ∧
      nextIs (fun t => bytesAt t 0x2000 17 = [1, 2, 3, 4, 5, 6, 7, 8, 11, 12, 13, 14, 15, 16, 17, 18, 0])
        (exec .putBlockBc3 { tiny .bc3 with ablk := marked.ablk, cblk := marked.cblk }) = true := by decide +kernel

/-- GET_BLOCK in both formats; BC1 leaves ABLK (R187). -/
theorem test_get_block :
    nextIs (fun t => (t.cblk = bytes8 [0, 0, 0, 0xF8, 1]) && (t.ablk = marked.ablk))
        (exec .getBlockBc1 { tinyBlock .bc1 with ablk := marked.ablk }) = true ∧
      nextIs (fun t => (t.ablk = bytes8 [0, 0x80, 1]) && (t.cblk = bytes8 [0, 0, 0, 0xF8, 1]))
        (exec .getBlockBc3 (tinyBlock .bc3)) = true := by decide +kernel

/-- CLEAR_RAW zeroes the raw buffer alone (R188). -/
theorem test_clear_raw :
    nextIs (fun t => t.mem = [(0xFFF, 7#8), (0x1004, 7#8)])
      (exec .clearRaw { tiny .bc1 with mem := [(0xFFF, 7#8), (0x1000, 1#8), (0x1003, 2#8), (0x1004, 7#8)] }) = true := by
  decide +kernel

/-- V-T1: COMPRESS of the 1x1 image in both formats. -/
theorem test_compress :
    nextIs (fun t => bytesAt t 0x2000 8 = [0, 0, 0, 0xF8, 1, 0, 0, 0] && (t.errcode = 0#4))
        (exec .compressBc1 (tiny .bc1)) = true ∧
      nextIs (fun t => bytesAt t 0x2000 16 = [0, 0x80, 1, 0, 0, 0, 0, 0, 0, 0, 0, 0xF8, 1, 0, 0, 0])
        (exec .compressBc3 (tiny .bc3)) = true := by decide +kernel

/-- V-T1: DECOMPRESS of the 1x1 image in both formats. -/
theorem test_decompress :
    nextIs (fun t => bytesAt t 0x1000 5 = [0xF8, 0, 0, 0xFF, 0]) (exec .decompressBc1 (tinyBlock .bc1)) = true ∧
      nextIs (fun t => bytesAt t 0x1000 5 = [0xF8, 0, 0, 0x80, 0]) (exec .decompressBc3 (tinyBlock .bc3)) = true := by
  decide +kernel

/-- V-T5: each code of a failing check, and a buffer that ends at 2^32 passes. -/
theorem test_checks :
    isNextState { tiny .bc1 with width := 0x80000000#32, errcode := 2#4 }
        (exec .compressBc1 { tiny .bc1 with width := 0x80000000#32 }) = true ∧
      isNextState { tiny .bc1 with errcode := 3#4 } (exec .compressBc3 (tiny .bc1)) = true ∧
      isNextState { tiny .bc1 with rawBase := 0xFFFFFFFD#32, errcode := 4#4 }
        (exec .clearRaw { tiny .bc1 with rawBase := 0xFFFFFFFD#32 }) = true ∧
      isNextState { tiny .bc1 with cmpBase := 0x1003#32, errcode := 5#4 }
        (exec .compressBc1 { tiny .bc1 with cmpBase := 0x1003#32 }) = true ∧
      isNextState { tiny .bc1 with blkX := 1#32, errcode := 6#4 } (exec .loadTile { tiny .bc1 with blkX := 1#32 }) = true ∧
      nextIs (fun t => t.errcode = 0#4) (exec .clearRaw { tiny .bc1 with rawBase := 0xFFFFFFFC#32 }) = true := by
  decide +kernel

/-- A write that faults stops PUT_BLOCK with the earlier bytes written (R222). -/
theorem test_bus_fault :
    nextIs (fun t => (t.errcode = 7#4) && (bytesAt t 0x2000 8 = [11, 12, 0, 0, 0, 0, 0, 0]) && (t.cblk = marked.cblk))
      (exec .putBlockBc1 { tiny .bc1 with cblk := marked.cblk, platform := faultAt 0x2002 .write }) = true := by
  decide +kernel

/-- The bus-fault instance of V-T5 on two blocks: the first block's bytes are written, the second block's are not. -/
theorem test_bus_fault_compress :
    nextIs (fun t => (t.errcode = 7#4) && (bytesAt t 0x2000 9 = [0, 0, 0, 0xF8, 1, 0, 0, 0, 0x5A]))
      (exec .compressBc1 { wide .bc1 with platform := faultAt 0x2008 .write }) = true := by
  decide +kernel

/-- Reset during COMPRESS and DECOMPRESS past the read of the second block that faults: "no later access is made" (R222),
so nothing of the second block is written, and no byte is left open (R241). -/
theorem test_reset_during_faulting_read :
    nextIs (fun t => (bytesAt t 0x2000 9 = [0, 0, 0, 0xF8, 1, 0, 0, 0, 0x5A]) && (t.draws = 0))
        (step { wide .bc1 with platform := faultAt 0x1010 .read, pending := [.resetDuring 0x10#32 16] }) = true ∧
      nextIs (fun t => (bytesAt t 0x1000 20 = [248, 0, 0, 255, 0, 0, 0, 255, 0, 0, 0, 255, 0, 0, 0, 255, 0, 0, 0, 0]) &&
          (t.draws = 0))
        (step { wide .bc1 with platform := faultAt 0x2008 .read, pending := [.resetDuring 0x11#32 40] }) = true := by
  decide +kernel

/-! ### Steps -/

/-- Every word of the opcode map runs as the first command after reset. -/
theorem test_first_step :
    ∀ w, w ∈ [0x0, 0x1, 0x2, 0x3, 0x4, 0x5, 0x6, 0x8, 0x9, 0xA, 0x10A, 0xB, 0x10B, 0xC, 0x10, 0x110, 0x11, 0x111] →
      (decodeTableWord 32 w).isSome = true ∧
        nextIs (fun t => t.responses = [.written]) (step (State.reset.withFetchWord 32 w)) = true := by decide +kernel

/-- What a read of the marked state at an offset answers. -/
def answerAt (o : BitVec 8) : Nat :=
  match step { marked with pending := [readOf o] } with
  | .next t =>
    match t.responses with
    | [.data v] => v.toNat
    | _ => 0
  | .fault _ => 0
  | .refused _ => 0

/-- What a read at each offset returns (R100), at the ends of each range of the map. -/
theorem test_reads :
    [0x00#8, 0x04#8, 0x08#8, 0x0C#8, 0x10#8, 0x14#8, 0x18#8, 0x1C#8, 0x20#8, 0x24#8, 0x28#8].map answerAt =
        [0x42430F01, 0, 5, 101, 102, 103, 104, 105, 106, 107, 108] ∧
      [0x2C#8, 0x3C#8, 0x40#8, 0x7C#8, 0x80#8, 0x84#8, 0x88#8, 0x8C#8, 0x90#8, 0xFC#8].map answerAt =
        [0, 0, 0x81412101, 0x90503010, 0x04030201, 0x08070605, 0x0E0D0C0B, 0x1211100F, 0, 0] := by decide +kernel

/-- A write to PIX and to ABLK (R101). -/
theorem test_writes :
    isNextState { marked with
          pix := vecOf 16 fun k => if k = 15 then px 0xFF 0 0xFE 0xFF else pixAt marked.pix k, responses := [.written] }
        (step { marked with pending := [writeOf 0x7C#8 0xFFFE00FF#32] }) = true ∧
      isNextState { marked with ablk := bytes8 [1, 2, 3, 4, 0x6D, 0x24, 0xDB, 0x26], responses := [.written] }
        (step { marked with pending := [writeOf 0x84#8 0x26DB246D#32] }) = true := by
  decide +kernel

/-- The pseudo-commands are the words R79 gives, and SETBLK and MEM are their expansions. -/
theorem test_scripts :
    [scriptEncBc1, scriptDecBc1, scriptCompressBc3, scriptCompressBc1, scriptDecompressBc1, scriptDecompressBc3] =
        [0x01#32, 0x02#32, 0x110#32, 0x10#32, 0x11#32, 0x111#32].map (writeOf 0x04#8) ∧
      scriptSetBlk 3#32 5#32 = [writeOf 0x24#8 3#32, writeOf 0x28#8 5#32] ∧
      scriptMem 0x1000 [1#8, 2#8] = [.memWrite 0x1000 1#8, .memWrite 0x1001 2#8] := by decide +kernel

/-! ### Witnesses: a state and operands that meet the hypotheses of each statement -/

theorem clear_of (s : State) (b l : Nat) (h : s.platform.coversDevice ⟨b, l⟩ = false) : ClearOfDevices s b l :=
  (not_coversDevice_iff s b l).mp h

theorem tiny_rawReady (f : Format) : RawReady (tiny f) :=
  (clear_checks_pass_iff f _).mp (by cases f <;> decide +kernel)

theorem tiny_cmpReady (f : Format) : CmpReady f (tiny f) ∧ ¬ BlockFails (tiny f) :=
  (block_checks_pass_iff f _).mp (by cases f <;> decide +kernel)

theorem tiny_imageReady (f : Format) : ImageReady f (tiny f) := by
  obtain ⟨h1, h2, h3⟩ := (image_checks_pass_iff f (tiny f)).mp (by cases f <;> decide +kernel)
  exact ⟨h1, h2, h3, clear_of _ _ _ (by cases f <;> decide +kernel), clear_of _ _ _ (by cases f <;> decide +kernel)⟩

/-- The checks and the device test read neither memory nor the faulting addresses. -/
theorem tiny_rawReady_with (f : Format) (m : Memory) (p : Platform) : RawReady { tiny f with mem := m, platform := p } :=
  tiny_rawReady f

theorem test_witness_illegalWords :
    ∃ (w : Word) (s : State) (rest : List HostAction), (∃ e, decode w = .error e) ∧
      s.pending = .bus { dir := .write, offset := 0x04#8, size := 4, data := w } :: rest :=
  ⟨0x107#32, { marked with pending := [writeOf 0x04#8 0x107#32] }, [], ⟨.undefinedOp, by decide⟩, rfl⟩

/-- Each reason of the first clause, at its boundary values. -/
theorem test_witness_illegalWords_reasons :
    decode 0x200#32 = .error .reservedField ∧ decode 0x80000000#32 = .error .reservedField ∧
      decode 0x12#32 = .error .undefinedOp ∧ decode 0xFF#32 = .error .undefinedOp ∧
      decode 0x100#32 = .error .formatNotTaken ∧ decode 0x106#32 = .error .formatNotTaken ∧
      decode 0x10C#32 = .error .formatNotTaken := by decide

theorem test_witness_stepRuns :
    ∃ (s t : State) (w : Word) (i : Instr),
      s.pending = .bus { dir := .write, offset := 0x04#8, size := 4, data := w } :: [] ∧ decode w = .ok i ∧
        exec i { s with pending := [] } = .next t :=
  let ⟨t, ht⟩ := next_of_isNext (o := exec .encBc3 marked) (by decide +kernel)
  ⟨{ marked with pending := [writeOf 0x04#8 0x05#32] }, t, 0x05#32, .encBc3, rfl, by decide, ht⟩

/-- A launch over the register window is refused. -/
theorem test_witness_stepRuns_refused :
    decode 0x0C#32 = .ok .clearRaw ∧
      isRefused .bufferOverDevice (exec .clearRaw { tiny .bc1 with rawBase := 0x400000FC#32 }) = true ∧
      isRefused .bufferOverDevice
        (step { tiny .bc1 with rawBase := 0x400000FC#32, pending := [writeOf 0x04#8 0x0C#32] }) = true := by decide +kernel

theorem test_witness_idle : State.reset.pending = [] ∧ step State.reset = .next State.reset := ⟨rfl, rfl⟩

theorem test_witness_served :
    ∃ (s t : State) (a : HostAction) (rest : List HostAction), s.pending = a :: rest ∧ step s = .next t :=
  let ⟨t, ht⟩ := next_of_isNext
    (o := step { marked with pending := [readOf 0x40#8, .reset] }) (by decide +kernel)
  ⟨_, t, _, _, rfl, ht⟩

/-- Offsets of every clause of the register map, at the ends of each range. -/
theorem test_witness_registers :
    ∀ o : BitVec 8, o ∈ [0x00#8, 0x04#8, 0x08#8, 0x0C#8, 0x10#8, 0x14#8, 0x18#8, 0x1C#8, 0x20#8, 0x24#8, 0x28#8, 0x2C#8,
        0x3C#8, 0x40#8, 0x7C#8, 0x80#8, 0x84#8, 0x88#8, 0x8C#8, 0x90#8, 0xFC#8] →
      o.toNat % 4 = 0 ∧
        ({ marked with pending := [readOf o] } : State).pending =
          .bus { dir := .read, offset := o, size := 4, data := 0#32 } :: [] ∧
        ({ marked with pending := [writeOf o 7#32] } : State).pending =
          .bus { dir := .write, offset := o, size := 4, data := 7#32 } :: [] := by decide +kernel

/-- The write map's clauses at their boundaries: what each write stores. -/
theorem test_witness_writes :
    ∀ o : BitVec 8, o ∈ [0x0C#8, 0x10#8, 0x14#8, 0x18#8, 0x1C#8, 0x20#8, 0x24#8, 0x28#8, 0x40#8, 0x7C#8, 0x80#8, 0x84#8,
        0x88#8, 0x8C#8] →
      nextIs (fun t => busRead t o = 0x12345678#32) (step { marked with pending := [writeOf o 0x12345678#32] }) = true := by
  decide +kernel

theorem test_witness_ignored :
    ∀ o : BitVec 8, o ∈ [0x00#8, 0x08#8, 0x2C#8, 0x3C#8, 0x90#8, 0xFC#8] →
      o.toNat % 4 = 0 ∧ (o.toNat = 0x00 ∨ o.toNat = 0x08 ∨ (0x2C ≤ o.toNat ∧ o.toNat < 0x40) ∨ 0x90 ≤ o.toNat) ∧
        ({ marked with pending := [writeOf o 7#32] } : State).pending =
          .bus { dir := .write, offset := o, size := 4, data := 7#32 } :: [] ∧
        isNextState { marked with responses := [.written] } (step { marked with pending := [writeOf o 7#32] }) = true := by
  decide +kernel

theorem test_witness_illegalTransaction :
    (∃ (s : State) (t : Transaction), s.pending = .bus t :: [] ∧ t.size ≠ 4) ∧
      ∃ (s : State) (t : Transaction), s.pending = .bus t :: [] ∧ t.offset.toNat % 4 ≠ 0 :=
  ⟨⟨{ marked with pending := [.bus ⟨.read, 0x0C#8, 1, 0#32⟩] }, _, rfl, by decide⟩,
    ⟨{ marked with pending := [.bus ⟨.write, 0x0E#8, 4, 0#32⟩] }, _, rfl, by decide⟩⟩

/-- A write and a read back at the ends of both ranges of read-write offsets. -/
theorem test_witness_readsBack :
    ∀ o : BitVec 8, o ∈ [0x0C#8, 0x28#8, 0x40#8, 0x8C#8] →
      o.toNat % 4 = 0 ∧ ((0x0C ≤ o.toNat ∧ o.toNat < 0x2C) ∨ (0x40 ≤ o.toNat ∧ o.toNat < 0x90)) ∧
        nextIs (fun t => nextIs (fun u => u.responses = [.written, .data 0x89ABCDEF#32]) (step t))
          (step { marked with
            pending := [.bus { dir := .write, offset := o, size := 4, data := 0x89ABCDEF#32 },
              .bus { dir := .read, offset := o, size := 4, data := 0#32 }] }) = true := by decide +kernel

/-- Host accesses at both ends of the address space, away from the window. -/
theorem test_witness_hostWrite :
    ∀ a, a = 0 ∨ a = 2 ^ 32 - 1 →
      (tiny .bc1).mem.wf = true ∧
        ({ tiny .bc1 with pending := [.memWrite a 0x5A#8] } : State).pending = .memWrite a 0x5A#8 :: [] ∧ a < 2 ^ 32 ∧
        ∀ r, r ∈ (tiny .bc1).platform.deviceRegions → ¬ InBuffer r.base r.len a := by
  intro a ha
  refine ⟨by decide +kernel, rfl, by omega, fun r hr h => ?_⟩
  obtain rfl : r = ⟨0x40000000, 256⟩ := List.mem_singleton.mp hr
  obtain ⟨h1, h2⟩ := h
  change 0x40000000 ≤ a at h1
  change a < 0x40000000 + 256 at h2
  omega

theorem test_witness_hostRead :
    ∃ s : State, s.pending = .memRead 0x1003 :: [] ∧ 0x1003 < 2 ^ 32 ∧
      (∀ r, r ∈ s.platform.deviceRegions → ¬ InBuffer r.base r.len 0x1003) ∧
      isNextState { tiny .bc1 with responses := [.byte 0x80#8] } (step s) = true := by
  refine ⟨{ tiny .bc1 with pending := [.memRead 0x1003] }, rfl, by decide, fun r hr h => ?_, by decide +kernel⟩
  obtain rfl : r = ⟨0x40000000, 256⟩ := List.mem_singleton.mp hr
  exact absurd h.1 (by decide)

/-- The refusals of R103, and the host accesses that stop under their names (log 16). -/
theorem test_host_stops :
    isRefused .illegalTransaction (step { marked with pending := [.bus ⟨.read, 0x0C#8, 1, 0#32⟩] }) = true ∧
      isRefused .illegalTransaction (step { marked with pending := [.bus ⟨.write, 0x0E#8, 4, 0#32⟩] }) = true ∧
      isFault .outsideAddressSpace (step { State.reset with pending := [.memRead (2 ^ 32)] }) = true ∧
      isRefused .hostAccessToDevice (step { State.reset with pending := [.memWrite 0x40000000 1#8] }) = true := by
  decide +kernel

theorem test_witness_reset :
    ∃ s : State, s.pending = .reset :: [] ∧ isNextState { State.reset with mem := [(7, 7#8)] } (step s) = true :=
  ⟨{ marked with pending := [.reset], mem := [(7, 7#8)] }, rfl, by decide +kernel⟩

theorem test_witness_resetDuring :
    let s : State := { tiny .bc1 with pending := [.resetDuring 0x0000000C#32 4] }
    s.pending = .resetDuring 0x0000000C#32 4 :: [] ∧ s.mem.wf = true ∧ RawReady s ∧ ClearOfDevices s s.rawBase.toNat s.rawLen.toNat ∧
      ∀ a, InRaw s a → s.platform.busFault a .write = false :=
  ⟨rfl, by decide +kernel, tiny_rawReady .bc1, clear_of _ _ _ (by decide +kernel), fun _ _ => rfl⟩

/-- An illegal word; a failing check, over the register window besides; and a launch away from devices. -/
theorem test_witness_resetDuring_all :
    (∃ (s : State) (w : Word), s.pending = .resetDuring w 9 :: [] ∧ ∃ e, decode w = .error e) ∧
      (∃ (s : State) (w : Word), s.pending = .resetDuring w 9 :: [] ∧ decode w = .ok .clearRaw ∧
        (∃ c, FirstFails (failures .clearRaw s) c) ∧ LaunchOverDevice .clearRaw s) ∧
      ∃ (s : State) (w : Word), s.pending = .resetDuring w 9 :: [] ∧ decode w = .ok .compressBc3 ∧
        ¬ LaunchOverDevice .compressBc3 s :=
  ⟨⟨{ tiny .bc1 with pending := [.resetDuring 7#32 9] }, 7#32, rfl, .undefinedOp, by decide⟩,
    ⟨{ tiny .bc1 with rawBase := 0x400000FC#32, rawLen := 5#32, pending := [.resetDuring 0x0C#32 9] }, 0x0C#32, rfl,
      by decide, ⟨_, (firstFails_iff _ _ _).mpr ⟨.invalidBufferSize, by decide +kernel, rfl⟩⟩,
      (launchOverDevice_iff _ _).mpr (by decide +kernel)⟩,
    ⟨{ tiny .bc3 with pending := [.resetDuring 0x110#32 9] }, 0x110#32, rfl, by decide,
      (launchOverDevice_iff _ _).not.mpr (by decide +kernel)⟩⟩

/-- A command that completes, and one that stops on a bus error. -/
theorem test_witness_resetAfterLastWrite :
    (∃ (s t : State), exec .decompressBc3 { s with pending := [] } = .next t) ∧
      ∃ (s t : State), exec .compressBc1 { s with pending := [] } = .next t ∧ t.errcode = 7#4 := by
  obtain ⟨t, ht⟩ := next_of_isNext (o := exec .decompressBc3 { wide .bc3 with pending := [] }) (by decide +kernel)
  obtain ⟨u, hu, h7⟩ := next_of_nextIs (p := fun t => t.errcode = 7#4)
    (o := exec .compressBc1 { wide .bc1 with platform := faultAt 0x1010 .read, pending := [] }) (by decide +kernel)
  exact ⟨⟨wide .bc3, t, ht⟩, { wide .bc1 with platform := faultAt 0x1010 .read }, u, hu, by simpa using h7⟩

/-- Reset after all four writes of CLEAR_RAW, and after all eight of PUT_BLOCK: memory has changed. -/
theorem test_witness_resetDuring_changes :
    (∃ s t : State, s.pending = .resetDuring 0x0000000C#32 4 :: [] ∧ step s = .next t ∧
        t.mem.read 0x1000 ≠ s.mem.read 0x1000) ∧
      ∃ s t : State, s.pending = .resetDuring 0x0000000A#32 8 :: [] ∧ step s = .next t ∧
        t.mem.read 0x2000 ≠ s.mem.read 0x2000 := by
  obtain ⟨t, ht, h⟩ := next_of_nextIs (p := fun t => decide (t.mem.read 0x1000 ≠ (tiny .bc1).mem.read 0x1000))
    (o := step { tiny .bc1 with pending := [.resetDuring 0x0000000C#32 4] }) (by decide +kernel)
  obtain ⟨u, hu, k⟩ := next_of_nextIs (p := fun t => decide (t.mem.read 0x2000 ≠ (tiny .bc1).mem.read 0x2000))
    (o := step { tiny .bc1 with cblk := marked.cblk, pending := [.resetDuring 0x0000000A#32 8] }) (by decide +kernel)
  exact ⟨⟨_, t, rfl, ht, of_decide_eq_true h⟩, _, u, rfl, hu, of_decide_eq_true k⟩

theorem test_witness_invariant : Inv State.reset ∧ step State.reset = .next State.reset :=
  ⟨⟨by decide +kernel, by decide⟩, rfl⟩

/-- A failing check of each code. -/
theorem test_witness_firstFails :
    FirstFails (failures .compressBc1 { tiny .bc1 with height := 0x80000000#32 }) 2#4 ∧
      FirstFails (failures .compressBc3 (tiny .bc1)) 3#4 ∧
      FirstFails (failures .clearRaw { tiny .bc1 with rawBase := 0xFFFFFFFD#32 }) 4#4 ∧
      FirstFails (failures .compressBc1 { tiny .bc1 with cmpBase := 0x1003#32 }) 5#4 ∧
      FirstFails (failures .getBlockBc1 { tiny .bc1 with blkY := 1#32 }) 6#4 :=
  ⟨(firstFails_iff _ _ _).mpr ⟨.invalidDimensions, by decide +kernel⟩,
    (firstFails_iff _ _ _).mpr ⟨.invalidBufferSize, by decide +kernel⟩,
    (firstFails_iff _ _ _).mpr ⟨.bufferRange, by decide +kernel⟩,
    (firstFails_iff _ _ _).mpr ⟨.bufferOverlap, by decide +kernel⟩,
    (firstFails_iff _ _ _).mpr ⟨.blockOutOfRange, by decide +kernel⟩⟩

theorem test_witness_checksPassed :
    (∀ c, ¬ FirstFails (failures .compressBc1 (tiny .bc1)) c) ∧ ∃ t, exec .compressBc1 (tiny .bc1) = .next t :=
  ⟨(no_firstFails_iff _ _).mpr (by decide +kernel), next_of_isNext (by decide +kernel)⟩

/-- A raw buffer and a compressed buffer over the window, with every check passed; a failing check over the window; a
buffer over the window that the command does not use. -/
theorem test_witness_overDevice :
    let s : State := { tiny .bc1 with rawBase := 0x400000FF#32 }
    let u : State := { tiny .bc1 with cmpBase := 0x3FFFFFF9#32 }
    ((∀ c, ¬ FirstFails (failures .loadTile s) c) ∧ LaunchOverDevice .loadTile s) ∧
      ((∀ c, ¬ FirstFails (failures .putBlockBc1 u) c) ∧ LaunchOverDevice .putBlockBc1 u) ∧
      (∃ c, FirstFails (failures .putBlockBc3 u) c) ∧ ¬ LaunchOverDevice .getBlockBc1 s :=
  ⟨⟨(no_firstFails_iff _ _).mpr (by decide +kernel), (launchOverDevice_iff _ _).mpr (by decide +kernel)⟩,
    ⟨(no_firstFails_iff _ _).mpr (by decide +kernel), (launchOverDevice_iff _ _).mpr (by decide +kernel)⟩,
    ⟨_, (firstFails_iff _ _ _).mpr ⟨.invalidBufferSize, by decide +kernel, rfl⟩⟩,
    (launchOverDevice_iff _ _).not.mpr (by decide +kernel)⟩

/-- A block of two extremes and both blends: endpoints in order, indices 2 and 3 used. -/
theorem test_witness_mismatch :
    ∃ s t u : State, exec .encColor s = .next t ∧ exec .decColor t = .next u ∧ color0 t.cblk ≤ color1 t.cblk ∧
      colourIdx t.cblk 2 = 2 ∧ colourIdx t.cblk 15 = 3 := by
  obtain ⟨t, ht, h⟩ := next_of_nextIs
    (p := fun t => decide (color0 t.cblk ≤ color1 t.cblk ∧ colourIdx t.cblk 2 = 2 ∧ colourIdx t.cblk 15 = 3))
    (o := exec .encColor (withPix fun k =>
      [px 0 0 0 255, px 255 255 255 255, px 82 84 82 255, px 165 168 165 255].getD (k % 4) (px 0 0 0 0)))
    (by decide +kernel)
  exact ⟨_, t, _, ht, rfl, of_decide_eq_true h⟩

theorem test_witness_solid :
    ∃ (s t u : State) (r g b : Byte), (r.toNat % 8 = 0 ∧ g.toNat % 4 = 0 ∧ b.toNat % 8 = 0) ∧
      (∀ k, k < 16 → (pixAt s.pix k).r = r ∧ (pixAt s.pix k).g = g ∧ (pixAt s.pix k).b = b) ∧
      exec .encColor s = .next t ∧ exec .decColor t = .next u := by
  obtain ⟨t, ht⟩ := next_of_isNext (o := exec .encColor (withPix fun _ => px 200 100 48 77)) (by decide +kernel)
  exact ⟨withPix fun _ => px 200 100 48 77, t, _, 200#8, 100#8, 48#8, by decide, by decide +kernel, ht, rfl⟩

theorem test_witness_encAlpha : ∃ s t : State, exec .encAlpha s = .next t := ⟨marked, _, rfl⟩

/-- A constant block, and a block of 0 and 255. -/
theorem test_witness_twoValued :
    (∀ k, k < 16 → (pixAt (withPix fun _ => px 1 2 3 77).pix k).a = 77#8) ∧
      (∀ k, k < 16 → (pixAt (withPix fun k => px 1 2 3 (k % 2 * 255)).pix k).a = 0#8 ∨
        (pixAt (withPix fun k => px 1 2 3 (k % 2 * 255)).pix k).a = 255#8) ∧
      ∀ s : State, ∃ t u : State, exec .encAlpha s = .next t ∧ exec .decAlpha t = .next u :=
  ⟨by decide +kernel, by decide +kernel, fun _ => ⟨_, _, rfl, rfl⟩⟩

theorem test_witness_loadTile :
    let s := tiny .bc1
    RawReady s ∧ ¬ BlockFails s ∧ ClearOfDevices s s.rawBase.toNat s.rawLen.toNat ∧ InImage s s.blkX.toNat s.blkY.toNat 0 ∧
      ∀ k c, k < 16 → c < 4 → InImage s s.blkX.toNat s.blkY.toNat k →
        s.platform.busFault (pixelByte s s.blkX.toNat s.blkY.toNat k c) .read = false :=
  ⟨tiny_rawReady .bc1, (tiny_cmpReady .bc1).2, (tiny_imageReady .bc1).2.2.2.1, ⟨by decide, by decide⟩,
    fun _ _ _ _ _ => rfl⟩

theorem test_witness_storeTile :
    let s := tiny .bc1
    s.mem.wf = true ∧ RawReady s ∧ ¬ BlockFails s ∧ ClearOfDevices s s.rawBase.toNat s.rawLen.toNat ∧
      ∀ k c, k < 16 → c < 4 → InImage s s.blkX.toNat s.blkY.toNat k →
        s.platform.busFault (pixelByte s s.blkX.toNat s.blkY.toNat k c) .write = false :=
  ⟨by decide +kernel, tiny_rawReady .bc1, (tiny_cmpReady .bc1).2, (tiny_imageReady .bc1).2.2.2.1, fun _ _ _ _ _ => rfl⟩

theorem test_witness_block :
    ∀ f, let s := tiny f
      s.mem.wf = true ∧ CmpReady f s ∧ ¬ BlockFails s ∧ ClearOfDevices s s.cmpBase.toNat s.cmpLen.toNat ∧
        ∀ j, j < stride f → s.platform.busFault (blockByte f s s.blkX.toNat s.blkY.toNat j) .write = false ∧
          s.platform.busFault (blockByte f s s.blkX.toNat s.blkY.toNat j) .read = false :=
  fun f => ⟨by cases f <;> decide +kernel, (tiny_cmpReady f).1, (tiny_cmpReady f).2, (tiny_imageReady f).2.2.2.2,
    fun _ _ => ⟨rfl, rfl⟩⟩

theorem test_witness_clearRaw :
    let s := tiny .bc1
    s.mem.wf = true ∧ RawReady s ∧ ClearOfDevices s s.rawBase.toNat s.rawLen.toNat ∧
      ∀ a, InRaw s a → s.platform.busFault a .write = false :=
  ⟨by decide +kernel, tiny_rawReady .bc1, (tiny_imageReady .bc1).2.2.2.1, fun _ _ => rfl⟩

theorem test_witness_padded :
    ∃ s t u : State, exec .loadTile s = .next t ∧ t.errcode = 0#4 ∧ exec .encBc3 t = .next u ∧
      ∃ k, k < 16 ∧ ¬ InImage s s.blkX.toNat s.blkY.toNat k := by
  obtain ⟨t, ht, h0⟩ := next_of_nextIs (p := fun t => t.errcode = 0#4) (o := exec .loadTile (tiny .bc1)) (by decide +kernel)
  exact ⟨tiny .bc1, t, _, ht, by simpa using h0, rfl, 15, by decide, fun h => absurd h.1 (by decide)⟩

/-- COMPRESS, DECOMPRESS: every hypothesis in both formats, with a grid of one block. -/
theorem test_witness_image :
    ∀ f, let s := tiny f
      s.mem.wf = true ∧ ImageReady f s ∧ gx s * gy s > 0 ∧
        (∀ a, InRaw s a → s.platform.busFault a .read = false ∧ s.platform.busFault a .write = false) ∧
        ∀ a, InCmp s a → s.platform.busFault a .write = false ∧ s.platform.busFault a .read = false :=
  fun f => ⟨by cases f <;> decide +kernel, tiny_imageReady f, by cases f <;> decide +kernel, fun _ _ => ⟨rfl, rfl⟩,
    fun _ _ => ⟨rfl, rfl⟩⟩

/-- The same with an empty grid: the state after reset. -/
theorem test_witness_image_empty :
    ∀ f, ImageReady f State.reset ∧ gx State.reset * gy State.reset = 0 := by
  intro f
  obtain ⟨h1, h2, h3⟩ := (image_checks_pass_iff f State.reset).mp (by cases f <;> decide +kernel)
  exact ⟨⟨h1, h2, h3, clear_of _ _ _ (by decide +kernel), clear_of _ _ _ (by decide +kernel)⟩, by decide +kernel⟩

theorem test_witness_emptyImage :
    ¬ DimFails State.reset ∧ (State.reset.width = 0#32 ∨ State.reset.height = 0#32) ∧ State.reset.rawLen = 0#32 ∧
      State.reset.cmpLen = 0#32 :=
  ⟨fun h => by rcases h with h | h <;> exact absurd h (by decide), .inl rfl, rfl, rfl⟩

/-- Two states that differ in the raw byte 0x1000 and agree on the compressed bytes. -/
theorem test_witness_noRawRead :
    ∀ f, ∃ s s' t t' : State,
      (s.mem.wf = true ∧ s'.mem.wf = true ∧ s'.width = s.width ∧ s'.height = s.height ∧ s'.rawBase = s.rawBase ∧
        s'.rawLen = s.rawLen ∧ s'.cmpBase = s.cmpBase ∧ s'.cmpLen = s.cmpLen ∧ s'.platform = s.platform) ∧
      (∀ a, InCmp s a → s'.mem.read a = s.mem.read a) ∧
      (InRaw s 0x1000 ∧ s'.mem.read 0x1000 ≠ s.mem.read 0x1000) ∧
      exec (decompressOf f) s = .next t ∧ exec (decompressOf f) s' = .next t' ∧ t.errcode = 0#4 := by
  intro f
  obtain ⟨t, ht, h0⟩ := next_of_nextIs (p := fun t => t.errcode = 0#4) (o := exec (decompressOf f) (tinyBlock f))
    (by cases f <;> decide +kernel)
  obtain ⟨t', ht'⟩ := next_of_isNext
    (o := exec (decompressOf f) { tinyBlock f with mem := (tinyBlock f).mem.write 0x1000 10#8 }) (by cases f <;> decide +kernel)
  refine ⟨tinyBlock f, { tinyBlock f with mem := (tinyBlock f).mem.write 0x1000 10#8 }, t, t',
    ⟨by cases f <;> decide +kernel, by cases f <;> decide +kernel, rfl, rfl, rfl, rfl, rfl, rfl, rfl⟩, fun a ha => ?_,
    ⟨by cases f <;> exact ⟨by decide, by decide⟩, by cases f <;> decide +kernel⟩, ht, ht', by simpa using h0⟩
  have h : 0x2000 ≤ a := ha.1
  exact Memory.read_write_other _ _ _ _ (by omega)

/-- The first and the last byte a tile or block read takes, faulting. -/
theorem test_witness_faultingRead :
    (let s : State := { tiny .bc1 with platform := faultAt 0x1003 .read };
      (RawReady s ∧ ¬ BlockFails s ∧ ClearOfDevices s s.rawBase.toNat s.rawLen.toNat) ∧
        InImage s s.blkX.toNat s.blkY.toNat 0 ∧
        s.platform.busFault (pixelByte s s.blkX.toNat s.blkY.toNat 0 3) .read = true) ∧
      ∀ f, let s : State := { tiny f with platform := faultAt 0x2000 .read };
        CmpReady f s ∧ ¬ BlockFails s ∧ ClearOfDevices s s.cmpBase.toNat s.cmpLen.toNat ∧ 0 < stride f ∧
          s.platform.busFault (blockByte f s s.blkX.toNat s.blkY.toNat 0) .read = true :=
  ⟨⟨⟨tiny_rawReady .bc1, (tiny_cmpReady .bc1).2, clear_of _ _ _ (by decide +kernel)⟩, ⟨by decide, by decide⟩,
      by decide +kernel⟩,
    fun f => ⟨(tiny_cmpReady f).1, (tiny_cmpReady f).2, clear_of _ _ _ (by cases f <;> decide +kernel), by cases f <;> decide,
      by cases f <;> decide +kernel⟩⟩

theorem test_witness_faultingWrite :
    (∀ f, let s : State := { tiny f with platform := faultAt 0x2007 .write };
      (s.mem.wf = true ∧ CmpReady f s ∧ ¬ BlockFails s ∧ ClearOfDevices s s.cmpBase.toNat s.cmpLen.toNat) ∧ 7 < stride f ∧
        s.platform.busFault (blockByte f s s.blkX.toNat s.blkY.toNat 7) .write = true ∧
        ∀ j, j < 7 → s.platform.busFault (blockByte f s s.blkX.toNat s.blkY.toNat j) .write = false) ∧
      let s : State := { tiny .bc1 with platform := faultAt 0x1003 .write };
      (s.mem.wf = true ∧ RawReady s ∧ ClearOfDevices s s.rawBase.toNat s.rawLen.toNat) ∧ 3 < s.rawLen.toNat ∧
        s.platform.busFault (s.rawBase.toNat + 3) .write = true ∧
        ∀ o, o < 3 → s.platform.busFault (s.rawBase.toNat + o) .write = false :=
  ⟨fun f => ⟨⟨by cases f <;> decide +kernel, (tiny_cmpReady f).1, (tiny_cmpReady f).2,
      clear_of _ _ _ (by cases f <;> decide +kernel)⟩, by cases f <;> decide, by cases f <;> decide +kernel,
      by cases f <;> decide +kernel⟩,
    ⟨by decide +kernel, tiny_rawReady .bc1, clear_of _ _ _ (by decide +kernel)⟩, by decide, by decide +kernel,
    by decide +kernel⟩

theorem test_witness_faultingStoreTile :
    let s : State := { tiny .bc1 with platform := faultAt 0x1002 .write }
    (s.mem.wf = true ∧ RawReady s ∧ ¬ BlockFails s ∧ ClearOfDevices s s.rawBase.toNat s.rawLen.toNat) ∧
      InImage s s.blkX.toNat s.blkY.toNat 0 ∧
      s.platform.busFault (pixelByte s s.blkX.toNat s.blkY.toNat 0 2) .write = true ∧
      ∀ k' c', k' < 16 → c' < 4 → 4 * k' + c' < 4 * 0 + 2 → InImage s s.blkX.toNat s.blkY.toNat k' →
        s.platform.busFault (pixelByte s s.blkX.toNat s.blkY.toNat k' c') .write = false := by
  refine ⟨⟨by decide +kernel, tiny_rawReady .bc1, (tiny_cmpReady .bc1).2, clear_of _ _ _ (by decide +kernel)⟩,
    ⟨by decide, by decide⟩, by decide +kernel, fun k' c' _ _ h _ => ?_⟩
  have hk : k' = 0 := by omega
  have hc : c' = 0 ∨ c' = 1 := by omega
  subst hk
  rcases hc with rfl | rfl <;> decide +kernel

/-- An image command with a faulting raw byte, and with a faulting compressed byte, in each direction. -/
theorem test_witness_imageBusError :
    ∀ f a d, (a = 0x1003 ∨ a = 0x2007) → ImageReady f { tiny f with platform := faultAt a d } ∧
      (∃ t, exec (compressOf f) { tiny f with platform := faultAt a d } = .next t) ∧
      ∃ t, exec (decompressOf f) { tiny f with platform := faultAt a d } = .next t := by
  intro f a d ha
  obtain ⟨h1, h2, h3, -⟩ := tiny_imageReady f
  refine ⟨⟨h1, h2, h3, clear_of _ _ _ ?_, clear_of _ _ _ ?_⟩, next_of_isNext ?_, next_of_isNext ?_⟩ <;>
    rcases ha with rfl | rfl <;> cases f <;> cases d <;> decide +kernel

/-- The two-block image passes the checks, whatever faults. -/
theorem wide_imageReady (f : Format) (a : Nat) (d : Dir) : ImageReady f { wide f with platform := faultAt a d } := by
  obtain ⟨h1, h2, h3⟩ := (image_checks_pass_iff f (wide f)).mp (by cases f <;> decide +kernel)
  have hr := clear_of (wide f) (wide f).rawBase.toNat (wide f).rawLen.toNat (by cases f <;> decide +kernel)
  have hc := clear_of (wide f) (wide f).cmpBase.toNat (wide f).cmpLen.toNat (by cases f <;> decide +kernel)
  exact ⟨h1, h2, h3, hr, hc⟩

theorem wide_grid (f : Format) (p : Platform) :
    gx { wide f with platform := p } = 2 ∧ gy { wide f with platform := p } = 1 := by
  constructor
  · show ((5#32).toNat + 3) / 4 = 2
    decide
  · show ((1#32).toNat + 3) / 4 = 1
    decide

theorem wide_blockByte (f : Format) (p : Platform) (x y j : Nat) :
    blockByte f { wide f with platform := p } x y j = 0x2000 + (y * 2 + x) * stride f + j := by
  rw [blockByte, (wide_grid f p).1]
  rfl

/-- COMPRESS stopped in its second block: by a read of the tile, and by the write of byte 2 of the block. -/
theorem test_witness_faultingCompress :
    ∀ f, (wide f).mem.wf = true ∧
      (let s : State := { wide f with platform := faultAt 0x1010 .read }
       (ImageReady f s ∧ 1 < gx s ∧ 0 < gy s ∧ ¬ TileAnswers s .read 1 0) ∧
         ∀ x' y', x' < gx s → y' < gy s → BlockBefore x' y' 1 0 → TileAnswers s .read x' y' ∧ BlockAnswers f s .write x' y') ∧
      let s : State := { wide f with platform := faultAt (0x2002 + stride f) .write }
      (ImageReady f s ∧ 1 < gx s ∧ 0 < gy s ∧ TileAnswers s .read 1 0 ∧ 2 < stride f ∧
        s.platform.busFault (blockByte f s 1 0 2) .write = true ∧
        ∀ j, j < 2 → s.platform.busFault (blockByte f s 1 0 j) .write = false) ∧
      ∀ x' y', x' < gx s → y' < gy s → BlockBefore x' y' 1 0 → TileAnswers s .read x' y' ∧ BlockAnswers f s .write x' y' := by
  intro f
  have hpix : ∀ p x y k c,
      pixelByte { wide f with platform := p } x y k c = 0x1000 + ((4 * y + k / 4) * 5 + (4 * x + k % 4)) * 4 + c :=
    fun _ _ _ _ _ => rfl
  have hin : ∀ p x y k, InImage { wide f with platform := p } x y k → 4 * x + k % 4 < 5 ∧ 4 * y + k / 4 < 1 :=
    fun _ _ _ _ h => h
  have hs : stride f = 8 ∨ stride f = 16 := by cases f <;> simp [stride]
  have first : ∀ x' y', x' < 2 → y' < 1 → BlockBefore x' y' 1 0 → x' = 0 ∧ y' = 0 := by
    intro x' y' _ _ h
    unfold BlockBefore at h
    omega
  refine ⟨by cases f <;> decide +kernel,
    ⟨⟨wide_imageReady f _ _, by rw [(wide_grid f _).1]; decide, by rw [(wide_grid f _).2]; decide, fun h => ?_⟩,
      fun x' y' hx hy h => ?_⟩,
    ⟨wide_imageReady f _ _, by rw [(wide_grid f _).1]; decide, by rw [(wide_grid f _).2]; decide,
      fun k c _ _ hk => ?_, by omega, by cases f <;> decide +kernel, fun j hj => ?_⟩,
    fun x' y' hx hy h => ?_⟩
  · exact absurd (h 0 0 (by omega) (by omega) (by cases f <;> exact ⟨by decide, by decide⟩)) (by cases f <;> decide +kernel)
  · rw [(wide_grid f _).1] at hx
    rw [(wide_grid f _).2] at hy
    obtain ⟨rfl, rfl⟩ := first x' y' hx hy h
    refine ⟨fun k c _ _ hk => faultAt_other ?_, fun j hj => faultAt_other ?_⟩
    · have := hin _ _ _ _ hk
      rw [hpix]
      omega
    · rw [wide_blockByte]
      omega
  · apply faultAt_other
    have := hin _ _ _ _ hk
    rw [hpix]
    omega
  · apply faultAt_other
    rw [wide_blockByte]
    omega
  · rw [(wide_grid f _).1] at hx
    rw [(wide_grid f _).2] at hy
    obtain ⟨rfl, rfl⟩ := first x' y' hx hy h
    refine ⟨fun k c _ _ hk => faultAt_other ?_, fun j hj => faultAt_other ?_⟩
    · have := hin _ _ _ _ hk
      rw [hpix]
      omega
    · rw [wide_blockByte]
      omega

/-- DECOMPRESS stopped in its clear at raw byte 3, and by a read of its second block. -/
theorem test_witness_faultingDecompress :
    ∀ f, (wide f).mem.wf = true ∧
      (let s : State := { wide f with platform := faultAt 0x1003 .write }
       ImageReady f s ∧ 3 < s.rawLen.toNat ∧ s.platform.busFault (s.rawBase.toNat + 3) .write = true ∧
         ∀ o, o < 3 → s.platform.busFault (s.rawBase.toNat + o) .write = false) ∧
      let s : State := { wide f with platform := faultAt (0x2000 + stride f) .read }
      (ImageReady f s ∧ 1 < gx s ∧ 0 < gy s ∧ ¬ BlockAnswers f s .read 1 0) ∧
        (∀ a, InRaw s a → s.platform.busFault a .write = false) ∧
        ∀ x' y', x' < gx s → y' < gy s → BlockBefore x' y' 1 0 → BlockAnswers f s .read x' y' := by
  intro f
  refine ⟨by cases f <;> decide +kernel,
    ⟨wide_imageReady f _ _, by cases f <;> decide, by cases f <;> decide +kernel, fun o ho => ?_⟩,
    ⟨wide_imageReady f _ _, by rw [(wide_grid f _).1]; decide, by rw [(wide_grid f _).2]; decide, fun h => ?_⟩,
    fun a ha => ?_, fun x' y' hx hy h j hj => ?_⟩
  · apply faultAt_other
    show 0x1000 + o ≠ _
    omega
  · exact absurd (h 0 (by cases f <;> decide)) (by cases f <;> decide +kernel)
  · apply faultAt_other
    have : a < 0x1000 + 20 := ha.2
    omega
  · apply faultAt_other
    rw [(wide_grid f _).1] at hx
    unfold BlockBefore at h
    obtain ⟨rfl, rfl⟩ : x' = 0 ∧ y' = 0 := by omega
    rw [wide_blockByte]
    omega

theorem test_witness_geometry : ∃ (s t : State), exec .compressBc3 s = .next t :=
  ⟨tiny .bc3, next_of_isNext (by decide +kernel)⟩

/-- An instruction of each clause, with its next state. -/
theorem test_witness_keep :
    ∀ i, i ∈ [Instr.encColor, .putBlockBc3, .decAlpha, .loadTile] → ∃ t, exec i (tiny .bc3) = .next t := by
  intro i hi
  simp only [List.mem_cons, List.not_mem_nil, or_false] at hi
  rcases hi with rfl | rfl | rfl | rfl <;> exact next_of_isNext (by decide +kernel)

/-- A byte of the raw buffer, and one of the compressed buffer, that a command changes. -/
theorem test_witness_confinement :
    (∃ t, exec .clearRaw (tiny .bc1) = .next t ∧ t.mem.read 0x1000 ≠ (tiny .bc1).mem.read 0x1000) ∧
      ∃ t, exec .compressBc1 (tiny .bc1) = .next t ∧ t.mem.read 0x2004 ≠ (tiny .bc1).mem.read 0x2004 := by
  obtain ⟨t, ht, h⟩ := next_of_nextIs (p := fun t => decide (t.mem.read 0x1000 ≠ (tiny .bc1).mem.read 0x1000))
    (o := exec .clearRaw (tiny .bc1)) (by decide +kernel)
  obtain ⟨u, hu, k⟩ := next_of_nextIs (p := fun t => decide (t.mem.read 0x2004 ≠ (tiny .bc1).mem.read 0x2004))
    (o := exec .compressBc1 (tiny .bc1)) (by decide +kernel)
  exact ⟨⟨t, ht, of_decide_eq_true h⟩, u, hu, of_decide_eq_true k⟩

theorem test_witness_readsOnly :
    let s := tiny .bc1
    let m : Memory := (0xFFF, 1#8) :: s.mem
    s.mem.wf = true ∧ m.wf = true ∧ (∀ a, InRaw s a ∨ InCmp s a → m.read a = s.mem.read a) ∧
      ∃ t, exec .compressBc1 s = .next t := by
  refine ⟨by decide +kernel, by decide +kernel, fun a ha => ?_, next_of_isNext (by decide +kernel)⟩
  have h : 0x1000 ≤ a := by
    rcases ha with ⟨h, -⟩ | ⟨h, -⟩
    · exact h
    · exact le_trans (by decide) h
  simp only [Memory.read]
  rw [if_neg (by omega)]

end Sys2Proof.Tests
end

section
/-! PROOFS. The state and its register window (10_state.md): one step on a bus transaction, a register read after a
write, and the statements O12, O15, O21 and O55. -/

namespace Sys2Proof.Machine

/-! ### A step on a register transaction -/

/-- The step that takes a waiting bus transaction serves it (40_host_interface.md R105). -/
theorem step_bus {s : State} {t : Transaction} {rest : List HostAction} (h : s.pending = .bus t :: rest) :
    step s = serveBus t { s with pending := rest } := by
  simp only [step, serveNext, h, serve]

theorem wf_of_aligned {t : Transaction} (hs : t.size = 4) (ho : t.offset.toNat % 4 = 0) : t.wf = true := by
  simp [Transaction.wf, Transaction.problem, hs, ho]

/-- A legal read answers the register's word (R100). -/
theorem serveBus_read (s : State) {o : BitVec 8} (d : Word) (ho : o.toNat % 4 = 0) :
    serveBus { dir := .read, offset := o, size := 4, data := d } s = .next (s.respond (.data (busRead s o))) :=
  if_pos (wf_of_aligned rfl ho)

/-- A legal write anywhere but at CMD stores its word and is answered (R101, R102). -/
theorem serveBus_write (s : State) {o : BitVec 8} (v : Word) (ho : o.toNat % 4 = 0) (hc : o ≠ regOffset .cmd) :
    serveBus { dir := .write, offset := o, size := 4, data := v } s = .next ((busWrite s o v).respond .written) :=
  (if_pos (wf_of_aligned rfl ho)).trans (if_neg hc)

/-! ### What a register access leaves unchanged -/

@[simp] theorem writeReg_pending (s : State) (v : Word) (r : Reg) : (writeReg s v r).pending = s.pending := by
  cases r <;> rfl

@[simp] theorem writeReg_responses (s : State) (v : Word) (r : Reg) : (writeReg s v r).responses = s.responses := by
  cases r <;> rfl

@[simp] theorem busWrite_pending (s : State) (o : BitVec 8) (v : Word) : (busWrite s o v).pending = s.pending := by
  unfold busWrite
  split
  · exact writeReg_pending s v _
  · rfl

@[simp] theorem busWrite_responses (s : State) (o : BitVec 8) (v : Word) :
    (busWrite s o v).responses = s.responses := by
  unfold busWrite
  split
  · exact writeReg_responses s v _
  · rfl

/-- No register holds what waits or what was answered. -/
theorem readReg_of_queues (s : State) (p : List HostAction) (l : List Response) (r : Reg) :
    readReg { s with pending := p, responses := l } r = readReg s r := by
  cases r <;> rfl

theorem busRead_of_queues (s : State) (p : List HostAction) (l : List Response) (o : BitVec 8) :
    busRead { s with pending := p, responses := l } o = busRead s o := by
  unfold busRead
  split
  · exact readReg_of_queues s p l _
  · rfl

/-! ### Reading back a written register -/

/-- The word of the pixel a word stores is that word: the four channels are its four bytes (R35, R101). -/
@[simp] theorem pixelWord_pixelOfWord (v : Word) : pixelWord (pixelOfWord v) = v := by
  apply BitVec.eq_of_toNat_eq
  simp only [pixelWord, pixelOfWord, toNat_append_add, toNat_extract]
  omega

theorem byteAt_setSubBlockWord (b : Vector Byte 8) (j : Nat) (v : Word) {i : Nat} (hi : i < 8) :
    byteAt (setSubBlockWord b j v) i = if i / 4 = j then v.extractLsb' (8 * (i % 4)) 8 else byteAt b i :=
  byteAt_vecOf _ i hi

/-- Byte `i` of the word stored at word `j` of a sub-block register (R101). -/
theorem byteAt_setSubBlockWord_same (b : Vector Byte 8) {j i : Nat} (v : Word) (hj : j < 2) (hi : i < 4) :
    byteAt (setSubBlockWord b j v) (4 * j + i) = v.extractLsb' (8 * i) 8 := by
  rw [byteAt_setSubBlockWord b j v (by omega), if_pos (by omega), Nat.mul_add_mod, Nat.mod_eq_of_lt hi]

/-- Word `j` of a sub-block register, after it was stored, is the word stored (R36, R37). -/
theorem subBlockWord_setSubBlockWord (b : Vector Byte 8) {j : Nat} (v : Word) (hj : j < 2) :
    subBlockWord (setSubBlockWord b j v) j = v := by
  have byte0 : byteAt (setSubBlockWord b j v) (4 * j) = v.extractLsb' 0 8 :=
    byteAt_setSubBlockWord_same b v hj (i := 0) (by decide)
  apply BitVec.eq_of_toNat_eq
  simp only [subBlockWord, byte0, byteAt_setSubBlockWord_same b v hj (i := 1) (by decide),
    byteAt_setSubBlockWord_same b v hj (i := 2) (by decide), byteAt_setSubBlockWord_same b v hj (i := 3) (by decide),
    toNat_append_add, toNat_extract]
  omega

/-- The registers that R20 marks read-write: all but ID, CMD and STATUS. -/
def Reg.readWrite : Reg → Bool
  | .id | .cmd | .status => false
  | .width | .height | .rawBase | .rawLen | .cmpBase | .cmpLen | .blkX | .blkY | .pix _ | .ablk _ | .cblk _ => true

/-- All 32 bits of a read-write register are stored as written and read back as written (R25 to R32, R35 to R37). -/
theorem readReg_writeReg_same (s : State) (v : Word) {r : Reg} (hr : r.readWrite = true) :
    readReg (writeReg s v r) r = v := by
  cases r with
  | id | cmd | status => cases hr
  | width | height | rawBase | rawLen | cmpBase | cmpLen | blkX | blkY => rfl
  | pix k => simp [readReg, writeReg, pixAt_set]
  | ablk j => exact subBlockWord_setSubBlockWord s.ablk v j.isLt
  | cblk j => exact subBlockWord_setSubBlockWord s.cblk v j.isLt

/-- Every offset from WIDTH to BLK_Y and from PIX to CBLK belongs to a read-write register (the table of R20). -/
theorem regAt_readWrite (o : BitVec 8) (h : (0x0C ≤ o.toNat ∧ o.toNat < 0x2C) ∨ (0x40 ≤ o.toNat ∧ o.toNat < 0x90)) :
    ∃ r, regAt o = some r ∧ r.readWrite = true := by
  unfold regAt
  split
  case h_1 | h_2 | h_3 => omega
  case h_4 | h_5 | h_6 | h_7 | h_8 | h_9 | h_10 | h_11 => exact ⟨_, rfl, rfl⟩
  case h_12 =>
    simp only [imp_false] at *
    split_ifs with hpix hablk hcblk
    · exact ⟨_, rfl, rfl⟩
    · exact ⟨_, rfl, rfl⟩
    · exact ⟨_, rfl, rfl⟩
    · omega

theorem busRead_busWrite_same (s : State) (v : Word) {o : BitVec 8}
    (h : (0x0C ≤ o.toNat ∧ o.toNat < 0x2C) ∨ (0x40 ≤ o.toNat ∧ o.toNat < 0x90)) :
    busRead (busWrite s o v) o = v := by
  obtain ⟨r, hr, hrw⟩ := regAt_readWrite o h
  simp only [busRead, busWrite, hr, readReg_writeReg_same s v hrw]

/-- The register still holds the word once the write was answered and its action has left the list. -/
theorem busRead_respond_busWrite (s : State) (v : Word) (p : List HostAction) (a : Response) {o : BitVec 8}
    (h : (0x0C ≤ o.toNat ∧ o.toNat < 0x2C) ∨ (0x40 ≤ o.toNat ∧ o.toNat < 0x90)) :
    busRead { (busWrite s o v).respond a with pending := p } o = v :=
  (busRead_of_queues _ _ _ o).trans (busRead_busWrite_same s v h)

/-! ### The statements -/

/-- Settles O12: both steps serve a legal transaction, and the read finds in the register what the write put there. -/
theorem writtenRegisterReadsBack : Obligations.WrittenRegisterReadsBack := by
  unfold Obligations.WrittenRegisterReadsBack
  intro s t u rest o v d ho hrange hpend hst htu
  have hcmd : o ≠ regOffset .cmd := by
    rintro rfl
    revert hrange
    decide
  rw [step_bus hpend, serveBus_write _ v ho hcmd] at hst
  cases hst
  rw [step_bus (busWrite_pending _ o v), serveBus_read _ d ho, busRead_respond_busWrite _ v rest _ hrange] at htu
  cases htu
  simp

/-- Settles O15: by the values `State.reset` gives each register (R42). -/
theorem resetRegistersAreZero : Obligations.ResetRegistersAreZero :=
  ⟨rfl, rfl, rfl, rfl, rfl, rfl, rfl, rfl, rfl, fun k _ => pixAt_zero k, fun j _ => ⟨byteAt_zero j, byteAt_zero j⟩⟩

/-- Settles O21: memory lists nothing after reset, and ERRCODE is 0. -/
theorem resetMeetsInvariant : Obligations.ResetMeetsInvariant :=
  have hmem : State.reset.mem.wf = true := rfl
  have herr : State.reset.errcode.toNat ≤ 7 := Nat.zero_le 7
  ⟨hmem, herr⟩

/-- Settles O55: every next state of a command keeps the frame (`exec_within`). -/
theorem commandsNeverWriteGeometry : Obligations.CommandsNeverWriteGeometry := by
  unfold Obligations.CommandsNeverWriteGeometry
  intro i s t h
  obtain ⟨⟨frame, -, -⟩, -, -⟩ := exec_within i s t h
  exact ⟨frame.width, frame.height, frame.rawBase, frame.rawLen, frame.cmpBase, frame.cmpLen, frame.pending,
    frame.responses, frame.platform⟩

end Sys2Proof.Machine
end

section
/-! PROOFS. Accesses of the host to system memory (20_memory.md R64), and the invariant over every step (R50, R220):
the statements O13, O14 and O22. -/

namespace Sys2Proof.Machine

open Sys2Proof.Spec

/-! ### A step on a host access -/

/-- No device register lies at an address (70_reset_and_hazards.md R247). -/
theorem deviceAt_eq_false (s : State) (a : Nat) :
    deviceAt s a = false ↔ ∀ r, r ∈ s.platform.deviceRegions → ¬ InBuffer r.base r.len a := by
  simp [deviceAt, Region.contains, InBuffer]

/-- The step that takes a waiting action serves it (40_host_interface.md R105). -/
theorem step_pending {s : State} {a : HostAction} {rest : List HostAction} (h : s.pending = a :: rest) :
    step s = serve a { s with pending := rest } := by
  simp only [step, serveNext, h]

/-- A host write is answered exactly at an address of system memory that no device holds (log 16). -/
theorem hostWrite_eq_next {a : Nat} {v : Byte} {s t : State} :
    hostWrite a v s = .next t ↔
      a < Config.addressSpace ∧ deviceAt s a = false ∧ t = { s with mem := s.mem.write a v }.respond .written := by
  unfold hostWrite
  split_ifs with ha hd
  · simp [Nat.not_lt.mpr ha]
  · simp [hd]
  · simp [Nat.lt_of_not_le ha, hd, eq_comm]

/-- A host read is answered exactly at an address of system memory that no device holds (log 16). -/
theorem hostRead_eq_next {a : Nat} {s t : State} :
    hostRead a s = .next t ↔
      a < Config.addressSpace ∧ deviceAt s a = false ∧ t = s.respond (.byte (s.mem.read a)) := by
  unfold hostRead
  split_ifs with ha hd
  · simp [Nat.not_lt.mpr ha]
  · simp [hd]
  · simp [Nat.lt_of_not_le ha, hd, eq_comm]

/-- Settles O13: the step writes one byte, and canonical memory reads back what was written there. -/
theorem hostWriteIsVisible : Obligations.HostWriteIsVisible := by
  unfold Obligations.HostWriteIsVisible
  intro s rest a v hw hpend ha hd
  refine ⟨s.mem.write a v, ?_, Memory.read_write_same s.mem a v hw, fun b hb => Memory.read_write_other s.mem a b v hb⟩
  exact (step_pending hpend).trans (hostWrite_eq_next.mpr ⟨ha, (deviceAt_eq_false s a).mpr hd, rfl⟩)

/-- Settles O14: the step answers the byte and leaves the rest of the state. -/
theorem hostReadReturnsMemory : Obligations.HostReadReturnsMemory := by
  unfold Obligations.HostReadReturnsMemory
  intro s rest a hpend ha hd
  exact (step_pending hpend).trans (hostRead_eq_next.mpr ⟨ha, (deviceAt_eq_false s a).mpr hd, rfl⟩)

/-! ### What keeps the invariant -/

/-- A state with the memory and the code of another keeps its invariant. -/
theorem Inv.congr {s t : State} (h : Inv s) (hm : t.mem = s.mem) (he : t.errcode = s.errcode) : Inv t := by
  rw [Inv, hm, he]
  exact h

theorem Inv.endCommand {s : State} (h : Inv s) (c : ErrCode) : Inv (s.endCommand c) := ⟨h.1, errCode_le c⟩

/-- Reset keeps memory and clears ERRCODE (70_reset_and_hazards.md R240). -/
theorem inv_applyReset {s : State} (h : s.mem.wf = true) : Inv s.applyReset := ⟨h, Nat.zero_le 7⟩

@[simp] theorem writeReg_mem (s : State) (v : Word) (r : Reg) : (writeReg s v r).mem = s.mem := by cases r <;> rfl

@[simp] theorem writeReg_errcode (s : State) (v : Word) (r : Reg) : (writeReg s v r).errcode = s.errcode := by
  cases r <;> rfl

@[simp] theorem busWrite_mem (s : State) (o : BitVec 8) (v : Word) : (busWrite s o v).mem = s.mem := by
  unfold busWrite
  split
  · exact writeReg_mem s v _
  · rfl

@[simp] theorem busWrite_errcode (s : State) (o : BitVec 8) (v : Word) : (busWrite s o v).errcode = s.errcode := by
  unfold busWrite
  split
  · exact writeReg_errcode s v _
  · rfl

theorem exec_keeps_inv {i : Instr} {s t : State} (hs : Inv s) (h : exec i s = .next t) : Inv t := by
  obtain ⟨-, hwf, c, hc⟩ := exec_within i s t h
  exact ⟨hwf hs.1, hc ▸ errCode_le c⟩

theorem issue_keeps_inv {w : Word} {s t : State} (hs : Inv s) (h : issue w s = .next t) : Inv t := by
  unfold issue at h
  split at h
  · cases h
    exact hs.endCommand .illegalCommand
  · exact exec_keeps_inv hs h

/-- An action that is answered ended in a next state. -/
theorem respondWith_next {r : Response} {o : Host.Outcome State Fault Refusal} {t : State}
    (h : respondWith r o = .next t) : ∃ u, o = .next u ∧ t = u.respond r := by
  cases o with
  | next u =>
    cases h
    exact ⟨u, rfl, rfl⟩
  | fault e => cases h
  | refused e => cases h

theorem transact_keeps_inv {t : Transaction} {s u : State} (hs : Inv s) (h : transact t s = .next u) : Inv u := by
  unfold transact at h
  split at h
  case h_1 =>
    cases h
    exact hs.congr rfl rfl
  case h_2 =>
    split at h
    · obtain ⟨v, hv, rfl⟩ := respondWith_next h
      exact (issue_keeps_inv hs hv).congr rfl rfl
    · cases h
      exact hs.congr (busWrite_mem s _ _) (busWrite_errcode s _ _)

theorem serveBus_keeps_inv {t : Transaction} {s u : State} (hs : Inv s) (h : serveBus t s = .next u) : Inv u := by
  unfold serveBus at h
  split at h
  · exact transact_keeps_inv hs h
  · cases h

theorem hostWrite_keeps_inv {a : Nat} {v : Byte} {s t : State} (hs : Inv s) (h : hostWrite a v s = .next t) : Inv t := by
  obtain ⟨ha, -, rfl⟩ := hostWrite_eq_next.mp h
  obtain ⟨hw, he⟩ := hs
  exact ⟨Memory.wf_write s.mem a v hw ha, he⟩

theorem hostRead_keeps_inv {a : Nat} {s t : State} (hs : Inv s) (h : hostRead a s = .next t) : Inv t := by
  obtain ⟨-, -, rfl⟩ := hostRead_eq_next.mp h
  exact hs.congr rfl rfl

/-- Every byte that a command whose checks pass writes lies in the address space (R50, R110). -/
theorem commandWrites_lt {i : Instr} {s : State} (h : firstFailure (formatOf i) s (checksOf i) = none) {d : Host.Cell}
    (hd : d ∈ commandWrites i s) : d.1 < Config.addressSpace :=
  destination_lt i s h _ (commandWrites_destination i s h d hd)

/-- A command stopped by reset leaves canonical memory: what it wrote and what it would have written lie in the address
space (R241). -/
theorem stoppedMemory_wf {i : Instr} {s : State} (k : Nat) (h : firstFailure (formatOf i) s (checksOf i) = none)
    (hw : s.mem.wf = true) : (stoppedMemory i k s).mem.wf = true := by
  refine Memory.wf_scramble _ _ _ (Memory.wf_writeAll _ _ hw fun d hd => ?_) fun a ha => ?_
  · exact commandWrites_lt h (writesUntilFault_subset i s d ((List.take_sublist k _).subset hd))
  · obtain ⟨⟨d, hd, rfl⟩, -⟩ := unwrittenAddrs_subset i k s a ha
    exact commandWrites_lt h hd

/-- What a reset during a command answers, if it is not refused: the reset state, from memory as it was or as a command
whose checks pass left it when it was stopped (R241). -/
theorem resetDuring_next {w : Word} {k : Nat} {s t : State} (h : resetDuring w k s = .next t) :
    t = s.applyReset.respond .aborted ∨
      ∃ i, firstFailure (formatOf i) s (checksOf i) = none ∧ t = (stoppedMemory i k s).applyReset.respond .aborted := by
  unfold resetDuring at h
  split at h
  · cases h
    exact .inl rfl
  · rename_i i _
    split at h
    · cases h
      exact .inl rfl
    · rename_i hf
      split at h
      · cases h
      · cases h
        exact .inr ⟨i, hf, rfl⟩

theorem resetDuring_keeps_inv {w : Word} {k : Nat} {s t : State} (hs : Inv s) (h : resetDuring w k s = .next t) :
    Inv t := by
  rcases resetDuring_next h with rfl | ⟨i, hf, rfl⟩
  · exact (inv_applyReset hs.1).congr rfl rfl
  · exact (inv_applyReset (stoppedMemory_wf k hf hs.1)).congr rfl rfl

theorem serve_keeps_inv {a : HostAction} {s t : State} (hs : Inv s) (h : serve a s = .next t) : Inv t := by
  cases a with
  | bus x => exact serveBus_keeps_inv hs h
  | memWrite addr v => exact hostWrite_keeps_inv hs h
  | memRead addr => exact hostRead_keeps_inv hs h
  | reset =>
    cases h
    exact inv_applyReset hs.1
  | resetDuring w k => exact resetDuring_keeps_inv hs h

/-- Settles O22: an idle step changes nothing, and every action that is served keeps the invariant. -/
theorem stepKeepsInvariant : Obligations.StepKeepsInvariant := by
  unfold Obligations.StepKeepsInvariant
  intro s t hs h
  cases hp : s.pending with
  | nil =>
    simp only [step, serveNext, hp] at h
    cases h
    exact hs
  | cons a rest =>
    have hs' : Inv { s with pending := rest } := hs.congr rfl rfl
    exact serve_keeps_inv hs' ((step_pending hp).symm.trans h)

end Sys2Proof.Machine
end

section
/-! PROOFS. No command touches memory outside its buffers (20_memory.md R50): what each part of a body does on two
machines that differ in memory outside the two buffers, and the statements O57 and O58. -/

namespace Sys2Proof.Machine

open Sys2Proof.Spec

/-- Settles O57: a byte outside the destination keeps its value (`exec_within`). -/
theorem storesStayInDestinationBuffer : Obligations.StoresStayInDestinationBuffer := by
  unfold Obligations.StoresStayInDestinationBuffer
  intro i s t a h hne
  obtain ⟨⟨-, hread, -⟩, -, -⟩ := exec_within i s t h
  by_contra hout
  exact hne (hread a hout)

/-! ### The checks of a state with another frame or another memory -/

theorem SameFrame.dim {s t : State} (h : SameFrame s t) : DimFails t ↔ DimFails s := by
  simp only [DimFails, h.width, h.height]

theorem SameFrame.rawReady {s t : State} (h : SameFrame s t) : RawReady t ↔ RawReady s := by
  simp only [RawReady, RawRangeFails, h.dim, h.rawSize, h.rawBase, h.rawLen]

theorem SameFrame.cmpReady {s t : State} (h : SameFrame s t) (f : Format) : CmpReady f t ↔ CmpReady f s := by
  simp only [CmpReady, CmpRangeFails, h.dim, h.cmpSize, h.cmpBase, h.cmpLen]

/-- The checks read no byte of memory. -/
@[simp] theorem firstFailure_setMem (f : Format) (s : State) (m : Memory) (l : List Check) :
    firstFailure f { s with mem := m } l = firstFailure f s l := by
  induction l with
  | nil => rfl
  | cons c l ih =>
    have hc : Check.fails f { s with mem := m } c = Check.fails f s c := by cases c <;> rfl
    simp only [firstFailure, hc, ih]

@[simp] theorem usesDevice_setMem (i : Instr) (s : State) (m : Memory) :
    usesDevice i { s with mem := m } = usesDevice i s := rfl

/-- The cursor of a block of the grid passes BLOCK (40_host_interface.md R112). -/
theorem setCursor_block_passes {s : State} {x y : Nat} (hx : x < gx s) (hy : y < gy s) :
    ¬ BlockFails (s.setCursor x y) := by
  obtain ⟨ex, ey⟩ := setCursor_toNat s hx hy
  have hf := setCursor_frame s x y
  simp only [BlockFails, ex, ey, hf.gx, hf.gy]
  omega

/-! ### The writes of a body part lie in the address space -/

theorem inRaw_lt {s : State} (h : RawReady s) {a : Nat} (ha : InRaw s a) : a < Config.addressSpace := by
  obtain ⟨-, -, hr⟩ := h
  simp only [RawRangeFails, InRaw, InBuffer] at hr ha
  unfold Config.addressSpace
  omega

theorem inCmp_lt {f : Format} {s : State} (h : CmpReady f s) {a : Nat} (ha : InCmp s a) : a < Config.addressSpace := by
  obtain ⟨-, -, hr⟩ := h
  simp only [CmpRangeFails, InCmp, InBuffer] at hr ha
  unfold Config.addressSpace
  omega

/-- The bytes of the block at the cursor lie in the compressed buffer (R54, R181). -/
theorem cursorByte_inCmp {f : Format} {s : State} (h : CmpReady f s) (hb : ¬ BlockFails s) {j : Nat} (hj : j < stride f) :
    InCmp s (blockByte f s s.blkX.toNat s.blkY.toNat j) := by
  obtain ⟨-, hc, -⟩ := h
  simp only [BlockFails, not_or, not_le, ge_iff_le] at hb
  exact blockByte_inCmp hc hb.1 hb.2 hj

theorem tileWrites_lt {s : State} (h : RawReady s) (d : Host.Cell) (hd : d ∈ tileWrites s) :
    d.1 < Config.addressSpace := by
  obtain ⟨k, c, -, hc, hin, rfl⟩ := (mem_tileWrites s d).mp hd
  have hsize : ¬ RawSizeFails s := h.2.1
  exact inRaw_lt h (pixelByte_inRaw hsize hin hc)

theorem blockWrites_lt {f : Format} {s : State} (h : CmpReady f s) (hb : ¬ BlockFails s) (d : Host.Cell)
    (hd : d ∈ blockWrites f s) : d.1 < Config.addressSpace := by
  obtain ⟨j, hj, rfl⟩ := (mem_blockWrites f s d).mp hd
  exact inCmp_lt h (cursorByte_inCmp h hb hj)

theorem clearWrites_lt {s : State} (h : RawReady s) (d : Host.Cell) (hd : d ∈ clearWrites s) :
    d.1 < Config.addressSpace :=
  inRaw_lt h ((mem_clearWrites s d).mp hd).1

/-! ### Two runs on the same two buffers -/

/-- Two states of two runs of a command launched from the geometry of `g`: both memories canonical, the same bytes in the
two buffers, and every register the same. -/
structure Alike (g s t : State) : Prop where
  frame : SameFrame g s
  registers : SameButMem s t
  read : ∀ a, InRaw g a ∨ InCmp g a → t.mem.read a = s.mem.read a
  wf_left : s.mem.wf = true
  wf_right : t.mem.wf = true

/-- Two results that end in the same way, in states related by `R`. -/
inductive BodyResult.Both (R : State → State → Prop) : BodyResult → BodyResult → Prop
  | done {s t : State} (h : R s t) : Both R (.done s) (.done t)
  | busError {s t : State} (h : R s t) : Both R (.busError s) (.busError t)

open BodyResult (Both)

theorem BodyResult.Both.of_done {R : State → State → Prop} {s : State} {q : BodyResult} (h : Both R (.done s) q) :
    ∃ t, q = .done t ∧ R s t := by
  cases h with
  | done h => exact ⟨_, rfl, h⟩

theorem BodyResult.Both.of_busError {R : State → State → Prop} {s : State} {q : BodyResult}
    (h : Both R (.busError s) q) : ∃ t, q = .busError t ∧ R s t := by
  cases h with
  | busError h => exact ⟨_, rfl, h⟩

/-- Related first parts, and related second parts from wherever the first ones complete, make related sequences. -/
theorem BodyResult.Both.andThen {R : State → State → Prop} {p q : BodyResult} {f f' : State → BodyResult}
    (h : Both R p q) (hf : ∀ s t, p = .done s → R s t → Both R (f s) (f' t)) : Both R (p.andThen f) (q.andThen f') := by
  cases h with
  | done h => exact hf _ _ rfl h
  | busError h => exact .busError h

/-- Bodies related block by block make related loops. -/
theorem forBlocks_both {R : State → State → Prop} {body : Nat → Nat → State → BodyResult} (l : List (Nat × Nat))
    (hb : ∀ x y, (x, y) ∈ l → ∀ s t, R s t → Both R (body x y s) (body x y t)) {s t : State} (h : R s t) :
    Both R (forBlocks body l s) (forBlocks body l t) := by
  induction l generalizing s t with
  | nil => exact .done h
  | cons c rest ih =>
    obtain ⟨x, y⟩ := c
    exact (hb x y (by simp) s t h).andThen fun u v _ huv => ih (fun x y hxy => hb x y (by simp [hxy])) huv

section
variable {g s t : State} (h : Alike g s t)
include h

/-- An update that keeps the frame and neither reads nor writes memory. -/
theorem Alike.update {f : State → State} (hf : ∀ u m, f { u with mem := m } = { f u with mem := m })
    (hs : SameFrame s (f s)) : Alike g (f s) (f t) := by
  have hm : (f s).mem = s.mem := by rw [show f s = { f s with mem := s.mem } from hf s s.mem]
  have ht : f t = { f s with mem := t.mem } := by rw [h.registers]; exact hf s t.mem
  refine ⟨h.frame.trans hs, ?_, fun a ha => ?_, hm ▸ h.wf_left, ?_⟩
  · rw [ht]; rfl
  · rw [ht, hm]; exact h.read a ha
  · rw [ht]; exact h.wf_right

theorem Alike.setCursor (x y : Nat) : Alike g (s.setCursor x y) (t.setCursor x y) :=
  h.update (f := fun u => u.setCursor x y) (fun _ _ => rfl) (setCursor_frame s x y)

theorem Alike.encodeBlock (f : Format) : Alike g (encodeBlock f s) (encodeBlock f t) :=
  h.update (fun _ _ => by cases f <;> rfl) (encodeBlock_frame f s)

theorem Alike.decodeBlock (f : Format) : Alike g (decodeBlock f s) (decodeBlock f t) :=
  h.update (fun _ _ => by cases f <;> rfl) (decodeBlock_frame f s)

theorem Alike.freeRegisters (w : Touched) : Alike g (s.freeRegisters w) (t.freeRegisters w) :=
  h.update (f := fun u => u.freeRegisters w) (fun _ _ => rfl) (freeRegisters_frame s w)

theorem Alike.endCommand (c : ErrCode) : Alike g (s.endCommand c) (t.endCommand c) :=
  h.update (f := fun u => u.endCommand c) (fun _ _ => rfl) (endCommand_frame s c)

/-- The same byte writes inside the address space. -/
theorem Alike.writeAll {cells : List Host.Cell} (hc : ∀ d, d ∈ cells → d.1 < Config.addressSpace) :
    Alike g { s with mem := s.mem.writeAll cells } { t with mem := t.mem.writeAll cells } where
  frame := h.frame.trans (setMem_frame s _)
  registers := by rw [h.registers]; rfl
  read := fun a ha => Memory.read_writeAll_congr _ _ cells a h.wf_right h.wf_left hc (h.read a ha)
  wf_left := Memory.wf_writeAll _ cells h.wf_left hc
  wf_right := Memory.wf_writeAll _ cells h.wf_right hc

theorem Alike.platform : t.platform = s.platform := by rw [h.registers]

/-- The same list of byte writes meets the same bus error, or none, in both runs. -/
theorem Alike.storeBytes {cells : List Host.Cell} (hc : ∀ d, d ∈ cells → d.1 < Config.addressSpace) :
    Both (Alike g) (storeBytes cells s) (storeBytes cells t) := by
  obtain ⟨made, rest, rfl, hmade, ⟨rfl, hs⟩ | ⟨c, post, rfl, hfault, hs⟩⟩ := storeBytes_cases cells s
  · rw [List.append_nil] at hs hc ⊢
    rw [hs, storeBytes_done made t (by rwa [h.platform])]
    exact .done (h.writeAll hc)
  · rw [hs, storeBytes_busError made c post t (by rwa [h.platform]) (by rwa [h.platform])]
    exact .busError (h.writeAll fun d hd => hc d (List.mem_append_left _ hd))

theorem Alike.storeTile (hr : RawReady g) : Both (Alike g) (storeTile s) (storeTile t) := by
  have hcells : tileWrites t = tileWrites s := by rw [h.registers]; rfl
  unfold Machine.storeTile
  rw [hcells]
  exact h.storeBytes (tileWrites_lt (h.frame.rawReady.mpr hr))

theorem Alike.putBlock {f : Format} (hc : CmpReady f g) (hb : ¬ BlockFails s) :
    Both (Alike g) (putBlock f s) (putBlock f t) := by
  have hcells : blockWrites f t = blockWrites f s := by rw [h.registers]; cases f <;> rfl
  unfold Machine.putBlock
  rw [hcells]
  exact h.storeBytes (blockWrites_lt ((h.frame.cmpReady f).mpr hc) hb)

theorem Alike.clearRaw (hr : RawReady g) : Both (Alike g) (clearRaw s) (clearRaw t) := by
  have hcells : clearWrites t = clearWrites s := by rw [h.registers]; rfl
  unfold Machine.clearRaw
  rw [hcells]
  exact h.storeBytes (clearWrites_lt (h.frame.rawReady.mpr hr))

end

/-! ### Reads of the two buffers -/

/-- The tile at the cursor is the same in every memory with the same raw bytes (R182, R184). -/
theorem tilePixel_setMem {s : State} {m : Memory} (hs : ¬ RawSizeFails s)
    (hm : ∀ a, InRaw s a → m.read a = s.mem.read a) (k : Nat) : tilePixel { s with mem := m } k = tilePixel s k := by
  show (if s.inBounds k then _ else _) = tilePixel s k
  unfold tilePixel
  split
  · rename_i hin
    have byte : ∀ c, c < 4 → m.read (s.pixelAddr k + c) = s.mem.read (s.pixelAddr k + c) := fun c hc =>
      hm _ (pixelByte_inRaw hs ((inBounds_iff s k).mp hin) hc)
    rw [Pixel.mk.injEq]
    exact ⟨byte 0 (by decide), byte 1 (by decide), byte 2 (by decide), byte 3 (by decide)⟩
  · rfl

theorem loadedTile_setMem {s : State} {m : Memory} (hs : ¬ RawSizeFails s)
    (hm : ∀ a, InRaw s a → m.read a = s.mem.read a) :
    loadedTile { s with mem := m } = { loadedTile s with mem := m } := by
  have hpix : vecOf 16 (tilePixel { s with mem := m }) = vecOf 16 (tilePixel s) :=
    vecOf_congr fun k _ => tilePixel_setMem hs hm k
  unfold loadedTile
  rw [hpix]

/-- The block at the cursor is the same in every memory with the same compressed bytes (R181, R187). -/
theorem gottenBlock_setMem {f : Format} {s : State} {m : Memory} (hc : CmpReady f s) (hb : ¬ BlockFails s)
    (hm : ∀ a, InCmp s a → m.read a = s.mem.read a) :
    gottenBlock f { s with mem := m } = { gottenBlock f s with mem := m } := by
  have byte : ∀ j, j < stride f → m.read (blockByte f s s.blkX.toNat s.blkY.toNat j) =
      s.mem.read (blockByte f s s.blkX.toNat s.blkY.toNat j) := fun j hj => hm _ (cursorByte_inCmp hc hb hj)
  cases f with
  | bc1 =>
    have hcblk : vecOf 8 (fun j => m.read (colourByteAddr .bc1 s j)) =
        vecOf 8 (fun j => s.mem.read (colourByteAddr .bc1 s j)) := vecOf_congr byte
    show ({ s with cblk := vecOf 8 fun j => m.read (colourByteAddr .bc1 s j), mem := m } : State) = _
    rw [hcblk]
    rfl
  | bc3 =>
    have hablk : vecOf 8 (fun j => m.read (alphaByteAddr s j)) = vecOf 8 (fun j => s.mem.read (alphaByteAddr s j)) :=
      vecOf_congr fun j hj => byte j (Nat.lt_trans hj (by decide))
    have hcblk : vecOf 8 (fun j => m.read (colourByteAddr .bc3 s j)) =
        vecOf 8 (fun j => s.mem.read (colourByteAddr .bc3 s j)) :=
      vecOf_congr fun j hj => by
        rw [colourByteAddr_bc3]
        exact byte (8 + j) (Nat.add_lt_add_left hj 8)
    show ({ s with
      ablk := vecOf 8 fun j => m.read (alphaByteAddr s j)
      cblk := vecOf 8 fun j => m.read (colourByteAddr .bc3 s j)
      mem := m } : State) = _
    rw [hablk, hcblk]
    rfl

section
variable {g s t : State} (h : Alike g s t)
include h

theorem Alike.loadedTile (hr : RawReady g) : Alike g (loadedTile s) (loadedTile t) := by
  obtain ⟨-, hsize, -⟩ := h.frame.rawReady.mpr hr
  have ht : Machine.loadedTile t = { Machine.loadedTile s with mem := t.mem } := by
    conv_lhs => rw [h.registers]
    exact loadedTile_setMem hsize fun a ha => h.read a (.inl ((h.frame.inRaw a).mp ha))
  rw [ht]
  exact ⟨h.frame.trans (loadedTile_frame s), rfl, h.read, h.wf_left, h.wf_right⟩

theorem Alike.gottenBlock {f : Format} (hc : CmpReady f g) (hb : ¬ BlockFails s) :
    Alike g (gottenBlock f s) (gottenBlock f t) := by
  have ht : Machine.gottenBlock f t = { Machine.gottenBlock f s with mem := t.mem } := by
    conv_lhs => rw [h.registers]
    exact gottenBlock_setMem ((h.frame.cmpReady f).mpr hc) hb fun a ha => h.read a (.inr ((h.frame.inCmp a).mp ha))
  have hm := gottenBlock_mem f s
  rw [ht]
  exact ⟨h.frame.trans (gottenBlock_frame f s), rfl, hm ▸ h.read, hm ▸ h.wf_left, h.wf_right⟩

theorem Alike.loadTile (hr : RawReady g) : Both (Alike g) (loadTile s) (loadTile t) := by
  have hreads : tileReads t = tileReads s := by rw [h.registers]; rfl
  unfold Machine.loadTile
  rw [hreads, h.platform]
  split
  · exact .busError h
  · exact .done (h.loadedTile hr)

theorem Alike.getBlock {f : Format} (hc : CmpReady f g) (hb : ¬ BlockFails s) :
    Both (Alike g) (getBlock f s) (getBlock f t) := by
  have hreads : blockReads f t = blockReads f s := by rw [h.registers]; cases f <;> rfl
  unfold Machine.getBlock
  rw [hreads, h.platform]
  split
  · exact .busError h
  · exact .done (h.gottenBlock hc hb)

end

/-! ### The image commands and every body -/

section
variable {g s t : State} (h : Alike g s t)
include h

theorem Alike.compressBlock {f : Format} (hr : RawReady g) (hc : CmpReady f g) {x y : Nat} (hx : x < gx g)
    (hy : y < gy g) : Both (Alike g) (compressBlock f x y s) (compressBlock f x y t) := by
  refine ((h.setCursor x y).loadTile hr).andThen fun u v hu huv => (huv.encodeBlock f).putBlock hc ?_
  have hgrid : ¬ BlockFails (s.setCursor x y) :=
    setCursor_block_passes (by rwa [h.frame.gx]) (by rwa [h.frame.gy])
  rcases loadTile_cases (s.setCursor x y) with ⟨-, hl⟩ | ⟨-, hl⟩
  · rw [hl] at hu
    cases hu
  · rw [hl] at hu
    cases hu
    cases f <;> exact hgrid

theorem Alike.decompressBlock {f : Format} (hr : RawReady g) (hc : CmpReady f g) {x y : Nat} (hx : x < gx g)
    (hy : y < gy g) : Both (Alike g) (decompressBlock f x y s) (decompressBlock f x y t) :=
  have hgrid : ¬ BlockFails (s.setCursor x y) :=
    setCursor_block_passes (by rwa [h.frame.gx]) (by rwa [h.frame.gy])
  ((h.setCursor x y).getBlock hc hgrid).andThen fun _ _ _ huv => (huv.decodeBlock f).storeTile hr

theorem Alike.blocks : t.blocks = s.blocks := h.registers.frame.blocks

theorem Alike.compress {f : Format} (hr : RawReady g) (hc : CmpReady f g) :
    Both (Alike g) (compress f s) (compress f t) := by
  unfold Machine.compress
  rw [h.blocks, h.frame.blocks]
  refine forBlocks_both g.blocks (fun x y hxy u v huv => ?_) h
  obtain ⟨hx, hy⟩ := (mem_blocks g x y).mp hxy
  exact huv.compressBlock hr hc hx hy

theorem Alike.decompress {f : Format} (hr : RawReady g) (hc : CmpReady f g) :
    Both (Alike g) (decompress f s) (decompress f t) := by
  unfold Machine.decompress
  rw [h.blocks, h.frame.blocks]
  refine (h.clearRaw hr).andThen fun u v _ huv => forBlocks_both g.blocks (fun x y hxy p q hpq => ?_) huv
  obtain ⟨hx, hy⟩ := (mem_blocks g x y).mp hxy
  exact hpq.decompressBlock hr hc hx hy

end

/-- Every body, once its checks pass, does the same in two runs from the same bytes of the two buffers. -/
theorem Alike.bodyOf {i : Instr} {s t : State} (h : Alike s s t)
    (hf : firstFailure (formatOf i) s (checksOf i) = none) : Both (Alike s) (bodyOf i s) (bodyOf i t) := by
  cases i with
  | nop => exact .done h
  | encColor =>
    exact .done (h.update (f := fun u => { u with cblk := colourEncode u.pix }) (fun _ _ => rfl)
      ⟨rfl, rfl, rfl, rfl, rfl, rfl, rfl, rfl, rfl⟩)
  | decColor =>
    exact .done (h.update (f := fun u => { u with pix := colourDecode u.cblk }) (fun _ _ => rfl)
      ⟨rfl, rfl, rfl, rfl, rfl, rfl, rfl, rfl, rfl⟩)
  | encAlpha =>
    exact .done (h.update (f := fun u => { u with ablk := alphaEncode u.pix }) (fun _ _ => rfl)
      ⟨rfl, rfl, rfl, rfl, rfl, rfl, rfl, rfl, rfl⟩)
  | decAlpha =>
    exact .done (h.update (f := fun u => { u with pix := overrideAlpha u.pix (alphaDecode u.ablk) }) (fun _ _ => rfl)
      ⟨rfl, rfl, rfl, rfl, rfl, rfl, rfl, rfl, rfl⟩)
  | encBc3 => exact .done (h.encodeBlock .bc3)
  | decBc3 => exact .done (h.decodeBlock .bc3)
  | loadTile => exact h.loadTile ((tile_checks_pass_iff _ s).mp hf).1
  | storeTile => exact h.storeTile ((tile_checks_pass_iff _ s).mp hf).1
  | clearRaw => exact h.clearRaw ((clear_checks_pass_iff _ s).mp hf)
  | putBlockBc1 | putBlockBc3 =>
    obtain ⟨hc, hb⟩ := (block_checks_pass_iff _ s).mp hf
    exact h.putBlock hc hb
  | getBlockBc1 | getBlockBc3 =>
    obtain ⟨hc, hb⟩ := (block_checks_pass_iff _ s).mp hf
    exact h.getBlock hc hb
  | compressBc1 | compressBc3 =>
    obtain ⟨hr, hc, -⟩ := (image_checks_pass_iff _ s).mp hf
    exact h.compress hr hc
  | decompressBc1 | decompressBc3 =>
    obtain ⟨hr, hc, -⟩ := (image_checks_pass_iff _ s).mp hf
    exact h.decompress hr hc

/-- What a command answers on two runs that are alike when it is launched is alike. -/
theorem Alike.exec {i : Instr} {s t u : State} (h : Alike s s t) (hu : exec i s = .next u) :
    ∃ v, exec i t = .next v ∧ Alike s u v := by
  rw [exec_eq] at hu ⊢
  have hchecks : firstFailure (formatOf i) t (checksOf i) = firstFailure (formatOf i) s (checksOf i) := by
    rw [h.registers, firstFailure_setMem]
  have hdevice : usesDevice i t = usesDevice i s := by rw [h.registers, usesDevice_setMem]
  rcases runCommand_cases i (Machine.bodyOf i) s with ⟨c, hf, hr⟩ | ⟨-, -, hr⟩ | ⟨hf, hd, hbody⟩
  · rw [hr] at hu
    cases hu
    refine ⟨t.endCommand c, ?_, h.endCommand c⟩
    simp only [runCommand, hchecks, hf]
  · rw [hr] at hu
    cases hu
  · have hboth := h.bodyOf hf
    rcases hbody with ⟨p, hp, hr⟩ | ⟨p, hp, hr⟩
    · rw [hr] at hu
      cases hu
      obtain ⟨q, hq, hpq⟩ := (hp ▸ hboth).of_done
      exact ⟨_, runCommand_done i _ t q (hchecks.trans hf) (hdevice.trans hd) hq, hpq.endCommand .ok⟩
    · rw [hr] at hu
      cases hu
      obtain ⟨q, hq, hpq⟩ := (hp ▸ hboth).of_busError
      exact ⟨_, runCommand_busError i _ t q (hchecks.trans hf) (hdevice.trans hd) hq,
        (hpq.freeRegisters (touchedOf i)).endCommand .busError⟩

/-- Settles O58: the two launches are alike, so what they answer is alike (`Alike.exec`). -/
theorem commandsReadOnlyTheirBuffers : Obligations.CommandsReadOnlyTheirBuffers := by
  unfold Obligations.CommandsReadOnlyTheirBuffers
  intro i s t m hs hm hread h
  have launch : Alike s s { s with mem := m } := ⟨.refl s, rfl, hread, hs, hm⟩
  obtain ⟨t', ht', alike⟩ := launch.exec h
  have herr : t'.errcode = t.errcode := by rw [alike.registers]
  exact ⟨t', ht', herr, fun _ => alike.registers, alike.read⟩

end Sys2Proof.Machine
end

section
/-! PROOFS. The tile primitives on the bytes they move (43_tiler.md R184 to R187; 20_memory.md R53 to R56): the
statements O39 to O42. -/

namespace Sys2Proof.Machine

open Sys2Proof.Spec

/-! ### A tile or block command that completes -/

/-- A tile command past its checks, away from devices, whose body completes, ends with code 0 (R104, R106, R114). -/
theorem exec_tile_done {i : Instr} {s t : State} (hi : checksOf i = [.dim, .rawSize, .rawRange, .block])
    (hr : RawReady s) (hb : ¬ BlockFails s) (hd : ClearOfDevices s s.rawBase.toNat s.rawLen.toNat)
    (ht : bodyOf i s = .done t) : exec i s = .next (t.endCommand .ok) := by
  rw [exec_eq]
  refine runCommand_done i _ s t (hi ▸ (tile_checks_pass_iff _ s).mpr ⟨hr, hb⟩) ?_ ht
  rw [usesDevice_false_iff, hi]
  exact ⟨fun _ => hd, fun h => absurd h (by decide)⟩

/-- A block command past its checks, away from devices, whose body completes, ends with code 0. -/
theorem exec_block_done {i : Instr} {s t : State} (hi : checksOf i = [.dim, .cmpSize, .cmpRange, .block])
    (hc : CmpReady (formatOf i) s) (hb : ¬ BlockFails s) (hd : ClearOfDevices s s.cmpBase.toNat s.cmpLen.toNat)
    (ht : bodyOf i s = .done t) : exec i s = .next (t.endCommand .ok) := by
  rw [exec_eq]
  refine runCommand_done i _ s t (hi ▸ (block_checks_pass_iff _ s).mpr ⟨hc, hb⟩) ?_ ht
  rw [usesDevice_false_iff, hi]
  exact ⟨fun h => absurd h (by decide), fun _ => hd⟩

theorem exec_putBlockOf_done {f : Format} {s t : State} (hc : CmpReady f s) (hb : ¬ BlockFails s)
    (hd : ClearOfDevices s s.cmpBase.toNat s.cmpLen.toNat) (ht : putBlock f s = .done t) :
    exec (putBlockOf f) s = .next (t.endCommand .ok) := by
  cases f <;> exact exec_block_done rfl hc hb hd ht

theorem exec_getBlockOf_done {f : Format} {s t : State} (hc : CmpReady f s) (hb : ¬ BlockFails s)
    (hd : ClearOfDevices s s.cmpBase.toNat s.cmpLen.toNat) (ht : getBlock f s = .done t) :
    exec (getBlockOf f) s = .next (t.endCommand .ok) := by
  cases f <;> exact exec_block_done rfl hc hb hd ht

/-! ### What the writes of a tile or of a block leave in memory -/

/-- Each byte of an entry in bounds holds its channel: no other entry or channel has its address (R53, R185). -/
theorem read_writeAll_tileWrites {s : State} (hw : s.mem.wf = true) (hr : RawReady s) {k c : Nat} (hk : k < 16)
    (hc : c < 4) (hin : InImage s s.blkX.toNat s.blkY.toNat k) :
    (s.mem.writeAll (tileWrites s)).read (pixelByte s s.blkX.toNat s.blkY.toNat k c) = channel (pixAt s.pix k) c := by
  refine Memory.read_writeAll_mem _ _ _ _ hw (tileWrites_lt hr)
    ((mem_tileWrites s _).mpr ⟨k, c, hk, hc, hin, rfl⟩) fun d hd he => ?_
  obtain ⟨k', c', hk', hc', hin', rfl⟩ := (mem_tileWrites s d).mp hd
  obtain ⟨-, -, rfl, rfl⟩ := pixelByte_inj hin' hin hk' hk hc' hc he
  rfl

/-- Each byte of the block at the cursor holds its byte of the block registers (R54, R186). -/
theorem read_writeAll_blockWrites {f : Format} {s : State} (hw : s.mem.wf = true) (hc : CmpReady f s)
    (hb : ¬ BlockFails s) {j : Nat} (hj : j < stride f) :
    (s.mem.writeAll (blockWrites f s)).read (blockByte f s s.blkX.toNat s.blkY.toNat j) =
      blockImage f s.ablk s.cblk j := by
  have hx : s.blkX.toNat < gx s := Nat.lt_of_not_le fun h => hb (.inl h)
  refine Memory.read_writeAll_mem _ _ _ _ hw (blockWrites_lt hc hb) ((mem_blockWrites f s _).mpr ⟨j, hj, rfl⟩)
    fun d hd he => ?_
  obtain ⟨j', hj', rfl⟩ := (mem_blockWrites f s d).mp hd
  obtain ⟨-, -, rfl⟩ := blockByte_inj hx hx hj' hj he
  rfl

/-! ### The statements -/

/-- Settles O39: no read of the tile faults, so PIX is the tile at the cursor (`loadedTile_spec`). -/
theorem loadTileLoadsTile : Obligations.LoadTileLoadsTile := by
  unfold Obligations.LoadTileLoadsTile
  intro s hr hb hd hanswer
  have hreads : readsFault s.platform (tileReads s) = false := (readsFault_eq_false _ _).mpr fun a ha => by
    obtain ⟨k, c, hk, hc, hin, rfl⟩ := (mem_tileReads s a).mp ha
    exact hanswer k c hk hc hin
  have hbody : loadTile s = .done (loadedTile s) := by rw [loadTile, hreads]; rfl
  exact ⟨_, exec_tile_done rfl hr hb hd hbody, rfl, loadedTile_spec s⟩

/-- Settles O40: no write of the tile faults, so memory holds them all, and they are the bytes of the entries in
bounds (`mem_tileWrites`). -/
theorem storeTileStoresTile : Obligations.StoreTileStoresTile := by
  unfold Obligations.StoreTileStoresTile
  intro s hw hr hb hd hanswer
  have hbody : storeTile s = .done { s with mem := s.mem.writeAll (tileWrites s) } := storeBytes_done _ s fun d hd => by
    obtain ⟨k, c, hk, hc, hin, rfl⟩ := (mem_tileWrites s d).mp hd
    exact hanswer k c hk hc hin
  refine ⟨_, exec_tile_done rfl hr hb hd hbody, rfl, fun k c hk hc hin => read_writeAll_tileWrites hw hr hk hc hin,
    fun a hother => Memory.read_writeAll_other _ _ a fun d hd he => ?_⟩
  obtain ⟨k, c, hk, hc, hin, rfl⟩ := (mem_tileWrites s d).mp hd
  exact hother k c hk hc hin he.symm

/-- Settles O41: no write of the block faults, so memory holds them all, and they are the bytes of the block at the
cursor (`mem_blockWrites`). -/
theorem putBlockStoresBlock : Obligations.PutBlockStoresBlock := by
  unfold Obligations.PutBlockStoresBlock
  intro f s hw hc hb hd hanswer
  have hbody : putBlock f s = .done { s with mem := s.mem.writeAll (blockWrites f s) } :=
    storeBytes_done _ s fun d hd => by
      obtain ⟨j, hj, rfl⟩ := (mem_blockWrites f s d).mp hd
      exact hanswer j hj
  refine ⟨_, exec_putBlockOf_done hc hb hd hbody, rfl, fun j hj => read_writeAll_blockWrites hw hc hb hj,
    fun a hother => Memory.read_writeAll_other _ _ a fun d hd he => ?_⟩
  obtain ⟨j, hj, rfl⟩ := (mem_blockWrites f s d).mp hd
  exact hother j hj he.symm

/-- Settles O42: no read of the block faults, so the block registers hold its bytes (`gottenBlock_spec`). -/
theorem getBlockLoadsBlock : Obligations.GetBlockLoadsBlock := by
  unfold Obligations.GetBlockLoadsBlock
  intro f s hc hb hd hanswer
  have hreads : readsFault s.platform (blockReads f s) = false := (readsFault_eq_false _ _).mpr fun a ha => by
    obtain ⟨j, hj, rfl⟩ := (mem_blockReads f s a).mp ha
    exact hanswer j hj
  have hbody : getBlock f s = .done (gottenBlock f s) := by rw [getBlock, hreads]; rfl
  refine ⟨_, exec_getBlockOf_done hc hb hd hbody, by cases f <;> rfl, fun hf => ?_, fun j hj => gottenBlock_spec f s j hj⟩
  subst hf
  rfl

end Sys2Proof.Machine
end

section
/-! PROOFS. The encoding of commands (30_encoding.md R70 to R76): a word is its fields, the decoder reads the opcode map
backwards, and an illegal word at CMD only sets ERRCODE: the statements O1 to O4. -/

namespace Sys2Proof

open Sys2Proof.Machine

/-! ### A command word and its fields -/

/-- No bit of a word lies outside the three fields (R70). -/
@[simp] theorem Command.toWord_ofWord (w : Word) : (Command.ofWord w).toWord = w := by
  apply BitVec.eq_of_getLsbD_eq
  intro k hk
  simp only [toWord, ofWord, BitVec.getLsbD_append, BitVec.getLsbD_extractLsb', BitVec.getLsbD_ofBool]
  rcases Nat.lt_trichotomy k 8 with hop | rfl | hrsv
  · simp [hop, show k < 9 by omega]
  · simp
  · simp [show ¬ k < 9 by omega, show 9 + (k - 9) = k by omega, show k - 9 < 23 by omega]

/-- The three fields do not overlap (R70). -/
@[simp] theorem Command.ofWord_toWord (c : Command) : Command.ofWord c.toWord = c := by
  have hop : c.toWord.extractLsb' 0 8 = c.op := by
    apply BitVec.eq_of_toNat_eq
    simp only [toWord, toNat_append_add, toNat_extract]
    omega
  have hf : c.toWord.getLsbD 8 = c.f := by
    rw [toWord, BitVec.getLsbD_append, BitVec.getLsbD_append]
    simp
  have hrsv : c.toWord.extractLsb' 9 23 = c.rsv := by
    apply BitVec.eq_of_toNat_eq
    simp only [toWord, toNat_append_add, toNat_extract]
    omega
  simp only [ofWord, hop, hf, hrsv]

theorem eq_encode_iff (w : Word) (i : Instr) : w = encode i ↔ Command.ofWord w = fieldsOf i := by
  constructor
  · rintro rfl
    exact Command.ofWord_toWord _
  · intro h
    rw [encode, ← h, Command.toWord_ofWord]

/-! ### What the decoder accepts -/

theorem decodePlain_ok_iff (f : Bool) (i j : Instr) : decodePlain f i = .ok j ↔ f = false ∧ i = j := by
  cases f <;> simp [decodePlain]

/-- The opcode map answers an instruction only at its own OP and F (R74). -/
theorem fieldsOf_of_decodeOp_ok {n : Nat} {f : Bool} {i : Instr} (h : decodeOp n f = .ok i) :
    fieldsOf i = ⟨BitVec.ofNat 8 n, f, 0#23⟩ := by
  unfold decodeOp at h
  split at h
  case h_1 | h_2 | h_3 | h_4 | h_5 | h_6 | h_7 | h_8 | h_9 | h_12 =>
    obtain ⟨rfl, rfl⟩ := (decodePlain_ok_iff _ _ _).mp h
    rfl
  case h_10 | h_11 | h_13 | h_14 =>
    cases h
    cases f <;> rfl
  case h_15 => cases h

/-- The opcode map answers every instruction at its OP and F (R74). -/
theorem decodeOp_fieldsOf (i : Instr) : decodeOp (fieldsOf i).op.toNat (fieldsOf i).f = .ok i := by
  cases i <;> rfl

@[simp] theorem fieldsOf_rsv (i : Instr) : (fieldsOf i).rsv = 0#23 := by
  cases i <;> rfl

/-- A word decodes to an instruction exactly when its fields are that instruction's (R75). -/
theorem decode_ok_iff (w : Word) (i : Instr) : decode w = .ok i ↔ Command.ofWord w = fieldsOf i := by
  constructor
  · intro h
    simp only [decode] at h
    split at h
    case isTrue => cases h
    case isFalse hrsv =>
      rw [fieldsOf_of_decodeOp_ok h, BitVec.ofNat_toNat, BitVec.setWidth_eq, ← not_not.mp hrsv]
  · intro h
    simp only [decode, h, fieldsOf_rsv, ne_eq, not_true_eq_false, if_false, decodeOp_fieldsOf]

/-- Settles O2: both sides say that the fields of the word are the instruction's. -/
theorem decodeEncodeAgree : Obligations.DecodeEncodeAgree := by
  unfold Obligations.DecodeEncodeAgree
  intro w i
  rw [decode_ok_iff, eq_encode_iff]

/-- Settles O1: each of the five words is the encoding of its instruction. -/
theorem sampleWordsDecode : Obligations.SampleWordsDecode := by
  have decodes {w : Word} {i : Instr} (h : w = encode i) : decode w = .ok i := (decodeEncodeAgree w i).mpr h
  exact ⟨decodes rfl, decodes rfl, decodes rfl, decodes rfl, decodes rfl⟩

/-! ### The opcode map -/

/-- The instructions in the order of the opcode map (R74). -/
def Instr.all : List Instr :=
  [.nop, .encColor, .decColor, .encAlpha, .decAlpha, .encBc3, .decBc3, .loadTile, .storeTile, .putBlockBc1,
    .putBlockBc3, .getBlockBc1, .getBlockBc3, .clearRaw, .compressBc1, .compressBc3, .decompressBc1, .decompressBc3]

theorem Instr.mem_all (i : Instr) : i ∈ Instr.all := by
  cases i <;> decide

theorem mem_map_encode_iff (w : Word) (i : Instr) :
    (w, i) ∈ Instr.all.map (fun j => (encode j, j)) ↔ w = encode i := by
  simp [Instr.mem_all, eq_comm]

/-- Settles O3: the 18 rows are the instructions, each with its encoding. -/
theorem opcodeMapIsWhole : Obligations.OpcodeMapIsWhole := by
  unfold Obligations.OpcodeMapIsWhole
  intro w i
  exact (decodeEncodeAgree w i).trans (mem_map_encode_iff w i).symm

/-! ### Illegal words -/

theorem mem_definedOps_iff (op : BitVec 8) : op ∈ definedOps ↔
    op.toNat ≤ 0x06 ∨ (0x08 ≤ op.toNat ∧ op.toNat ≤ 0x0C) ∨ op.toNat = 0x10 ∨ op.toNat = 0x11 := by
  simp only [definedOps, List.mem_cons, List.not_mem_nil, or_false, ← BitVec.toNat_inj, BitVec.toNat_ofNat]
  omega

theorem mem_formatOps_iff (op : BitVec 8) : op ∈ formatOps ↔
    op.toNat = 0x0A ∨ op.toNat = 0x0B ∨ op.toNat = 0x10 ∨ op.toNat = 0x11 := by
  simp [formatOps, ← BitVec.toNat_inj]

/-- A command is rejected exactly when one of the three checks fails (R76). -/
theorem Command.problem_eq_some_iff (c : Command) : (∃ e, c.problem = some e) ↔
    c.rsv ≠ 0#23 ∨ c.op ∉ definedOps ∨ (c.f = true ∧ c.op ∉ formatOps) := by
  unfold problem
  split_ifs with hrsv hop hf
  · simp [hrsv]
  · simp [hf]
  · simpa [hop, hf] using hrsv
  · simp [hop]

theorem ofWord_op_toNat (w : Word) : (Command.ofWord w).op.toNat = w.toNat % 256 := by
  simp [Command.ofWord]

theorem ofWord_rsv_ne_zero_iff (w : Word) : (Command.ofWord w).rsv ≠ 0#23 ↔ w.toNat / 512 ≠ 0 := by
  have hrsv : (Command.ofWord w).rsv.toNat = w.toNat / 512 % 2 ^ 23 := toNat_extract w 9 23
  rw [ne_eq, ← BitVec.toNat_inj, hrsv, BitVec.toNat_ofNat]
  omega

/-- The words the decoder rejects, in numbers (R76). -/
theorem decode_error_iff_toNat (w : Word) : (∃ e, decode w = .error e) ↔
    w.toNat / 512 ≠ 0 ∨
      (w.toNat % 256 = 0x07 ∨ w.toNat % 256 = 0x0D ∨ w.toNat % 256 = 0x0E ∨ w.toNat % 256 = 0x0F ∨
        0x12 ≤ w.toNat % 256) ∨
      (w.getLsbD 8 = true ∧
        (w.toNat % 256 ≤ 0x06 ∨ w.toNat % 256 = 0x08 ∨ w.toNat % 256 = 0x09 ∨ w.toNat % 256 = 0x0C)) := by
  have hf : (Command.ofWord w).f = w.getLsbD 8 := rfl
  simp only [decode_error_iff, Command.problem_eq_some_iff, ofWord_rsv_ne_zero_iff, mem_definedOps_iff,
    mem_formatOps_iff, ofWord_op_toNat, hf]
  cases w.getLsbD 8 with
  | false =>
    simp only [Bool.false_eq_true, false_and, or_false]
    omega
  | true =>
    simp only [true_and]
    omega

/-! ### A step on a CMD write -/

/-- A write to CMD issues its word and is answered when the command has ended (40_host_interface.md R104, R105). -/
theorem serveBus_cmdWrite (w : Word) (s : State) : serveBus (cmdWrite w) s = respondWith .written (issue w s) :=
  have aligned : (regOffset .cmd).toNat % 4 = 0 := by decide
  calc serveBus (cmdWrite w) s = transact (cmdWrite w) s := if_pos (wf_of_aligned rfl aligned)
    _ = respondWith .written (issue w s) := rfl

theorem issue_of_decode_error {w : Word} {e : Illegal} (h : decode w = .error e) (s : State) :
    issue w s = .next (s.endCommand .illegalCommand) := by
  rw [issue, h]

/-- Settles O4: the decoder rejects what fails a check, and the step only ends the command with code 1. -/
theorem illegalWordsOnlySetErrcode : Obligations.IllegalWordsOnlySetErrcode := by
  unfold Obligations.IllegalWordsOnlySetErrcode
  refine ⟨decode_error_iff_toNat, fun w s rest ⟨e, he⟩ hpend => ?_⟩
  calc step s = serveBus (cmdWrite w) { s with pending := rest } := step_bus hpend
    _ = respondWith .written (issue w { s with pending := rest }) := serveBus_cmdWrite w _
    _ = respondWith .written (.next ({ s with pending := rest }.endCommand .illegalCommand)) := by
      rw [issue_of_decode_error he]
    _ = .next { s with pending := rest, responses := s.responses ++ [.written], errcode := 1#4 } := rfl

end Sys2Proof
end

section
/-! PROOFS. The register window (40_host_interface.md R100 to R105): the register at each offset, what a read returns and
a write stores there, what a transaction is refused for, and the order of service: the statements O5 and O7 to O11. -/

namespace Sys2Proof.Machine

open Sys2Proof.Spec

/-! ### The map of the window -/

@[simp] theorem regOffset_pix_toNat (k : Fin 16) : (regOffset (.pix k)).toNat = 0x40 + 4 * k.val := by
  simp only [regOffset, BitVec.toNat_ofNat]
  omega

@[simp] theorem regOffset_ablk_toNat (j : Fin 2) : (regOffset (.ablk j)).toNat = 0x80 + 4 * j.val := by
  simp only [regOffset, BitVec.toNat_ofNat]
  omega

@[simp] theorem regOffset_cblk_toNat (j : Fin 2) : (regOffset (.cblk j)).toNat = 0x88 + 4 * j.val := by
  simp only [regOffset, BitVec.toNat_ofNat]
  omega

/-- The map of the window is read backwards without loss: no two registers share an offset (R20). -/
@[simp] theorem regAt_regOffset (r : Reg) : regAt (regOffset r) = some r := by
  cases r with
  | id | cmd | status | width | height | rawBase | rawLen | cmpBase | cmpLen | blkX | blkY => rfl
  | pix k => revert k; decide
  | ablk j => revert j; decide
  | cblk j => revert j; decide

theorem regOffset_aligned (r : Reg) : (regOffset r).toNat % 4 = 0 := by
  cases r with
  | id | cmd | status | width | height | rawBase | rawLen | cmpBase | cmpLen | blkX | blkY => rfl
  | pix k =>
    rw [regOffset_pix_toNat]
    omega
  | ablk j =>
    rw [regOffset_ablk_toNat]
    omega
  | cblk j =>
    rw [regOffset_cblk_toNat]
    omega

theorem regOffset_injective : Function.Injective regOffset := fun r q h =>
  Option.some.inj ((regAt_regOffset r).symm.trans ((congrArg regAt h).trans (regAt_regOffset q)))

/-- Between BLK_Y and PIX, and past CBLK, the window is unmapped (R20, R41). -/
theorem regAt_unmapped {o : BitVec 8} (h : (0x2C ≤ o.toNat ∧ o.toNat < 0x40) ∨ 0x90 ≤ o.toNat) : regAt o = none := by
  have hpix : ¬ (16 ≤ o.toNat / 4 ∧ o.toNat / 4 < 32) := by omega
  have hablk : ¬ (32 ≤ o.toNat / 4 ∧ o.toNat / 4 < 34) := by omega
  have hcblk : ¬ (34 ≤ o.toNat / 4 ∧ o.toNat / 4 < 36) := by omega
  unfold regAt
  split
  case h_1 | h_2 | h_3 | h_4 | h_5 | h_6 | h_7 | h_8 | h_9 | h_10 | h_11 => omega
  case h_12 => exact (if_neg hpix).trans ((if_neg hablk).trans (if_neg hcblk))

/-! ### Register words as numbers -/

theorem pixelWord_toNat (p : Pixel) :
    (pixelWord p).toNat = p.r.toNat + 2 ^ 8 * p.g.toNat + 2 ^ 16 * p.b.toNat + 2 ^ 24 * p.a.toNat := by
  simp only [pixelWord, toNat_append_add]
  omega

theorem pixelOfWord_toNat (v : Word) :
    (pixelOfWord v).r.toNat = v.toNat % 256 ∧ (pixelOfWord v).g.toNat = v.toNat / 2 ^ 8 % 256 ∧
      (pixelOfWord v).b.toNat = v.toNat / 2 ^ 16 % 256 ∧ (pixelOfWord v).a.toNat = v.toNat / 2 ^ 24 := by
  simp only [pixelOfWord, toNat_extract]
  omega

/-- Word `j` of a sub-block register takes the four bytes of the word, low byte first; the other word stays (R101). -/
theorem byteNum_setSubBlockWord (b : Vector Byte 8) (j : Nat) (v : Word) {i : Nat} (hi : i < 8) :
    byteNum (setSubBlockWord b j v) i = if i / 4 = j then v.toNat / 256 ^ (i % 4) % 256 else byteNum b i := by
  have hpow : 2 ^ (8 * (i % 4)) = 256 ^ (i % 4) := Nat.pow_mul 2 8 (i % 4)
  simp only [byteNum, byteAt_setSubBlockWord b j v hi]
  split
  · rw [toNat_extract, hpow]
    rfl
  · rfl

/-! ### What a read returns -/

theorem busRead_regOffset (s : State) {o : BitVec 8} (r : Reg) (h : o.toNat = (regOffset r).toNat) :
    busRead s o = readReg s r := by
  obtain rfl := BitVec.eq_of_toNat_eq h
  rw [busRead, regAt_regOffset]

theorem busRead_unmapped (s : State) {o : BitVec 8} (h : (0x2C ≤ o.toNat ∧ o.toNat < 0x40) ∨ 0x90 ≤ o.toNat) :
    busRead s o = 0#32 := by
  rw [busRead, regAt_unmapped h]

/-- Settles O8: the step answers the word of the register at the offset and changes no register. -/
theorem registerReadReturns : Obligations.RegisterReadReturns := by
  unfold Obligations.RegisterReadReturns
  intro s rest o d hpend ho
  have read (r : Reg) (h : o.toNat = (regOffset r).toNat) : busRead s o = readReg s r := busRead_regOffset s r h
  refine ⟨busRead s o, ?_, read .id, read .cmd, fun h => ?_, read .width, read .height, read .rawBase, read .rawLen,
    read .cmpBase, read .cmpLen, read .blkX, read .blkY, fun k hk h => ?_, fun j hj h => ?_, fun j hj h => ?_,
    busRead_unmapped s⟩
  · rw [step_bus hpend, serveBus_read _ d ho]
    exact congrArg (fun v => Host.Outcome.next (State.respond { s with pending := rest } (.data v)))
      (busRead_of_queues s rest s.responses o)
  · rw [read .status h]
    exact BitVec.toNat_setWidth_of_le (by decide)
  · rw [read (.pix ⟨k, hk⟩) (h.trans (regOffset_pix_toNat ⟨k, hk⟩).symm)]
    exact pixelWord_toNat _
  · rw [read (.ablk ⟨j, hj⟩) (h.trans (regOffset_ablk_toNat ⟨j, hj⟩).symm)]
    exact subBlockWord_toNat s.ablk j
  · rw [read (.cblk ⟨j, hj⟩) (h.trans (regOffset_cblk_toNat ⟨j, hj⟩).symm)]
    exact subBlockWord_toNat s.cblk j

/-! ### A step on a CMD write -/

/-- The step that takes a waiting CMD write issues its word and answers the write (R104, R105). -/
theorem step_cmdWrite {s : State} {w : Word} {rest : List HostAction} (h : s.pending = .bus (cmdWrite w) :: rest) :
    step s = respondWith .written (issue w { s with pending := rest }) :=
  (step_bus h).trans (serveBus_cmdWrite w _)

theorem issue_of_decode_ok {w : Word} {i : Instr} (h : decode w = .ok i) (s : State) : issue w s = exec i s := by
  rw [issue, h]

/-- Settles O5: the step issues the word, and issuing a legal word is `exec` of its instruction. -/
theorem stepRunsDecodedCommand : Obligations.StepRunsDecodedCommand := by
  unfold Obligations.StepRunsDecodedCommand
  intro s rest w i hpend hw
  have hstep : step s = respondWith .written (exec i { s with pending := rest }) := by
    rw [step_cmdWrite hpend, issue_of_decode_ok hw]
  constructor
  · intro t ht
    rw [hstep, ht]
    rfl
  · intro r hr
    rw [hstep, hr]
    rfl

/-! ### What a write stores -/

/-- The step that takes a legal write anywhere but at CMD stores its word and answers it (R101, R102). -/
theorem step_write {s : State} {rest : List HostAction} {o : BitVec 8} {v : Word}
    (hpend : s.pending = .bus { dir := .write, offset := o, size := 4, data := v } :: rest) (ho : o.toNat % 4 = 0)
    (hc : o ≠ regOffset .cmd) :
    step s = .next ((busWrite { s with pending := rest } o v).respond .written) :=
  (step_bus hpend).trans (serveBus_write _ v ho hc)

theorem step_write_reg {s : State} {rest : List HostAction} {o : BitVec 8} {v : Word}
    (hpend : s.pending = .bus { dir := .write, offset := o, size := 4, data := v } :: rest) {r : Reg} (hr : r ≠ .cmd)
    (h : o.toNat = (regOffset r).toNat) :
    step s = .next ((writeReg { s with pending := rest } v r).respond .written) := by
  obtain rfl := BitVec.eq_of_toNat_eq h
  rw [step_write hpend (regOffset_aligned r) (regOffset_injective.ne hr), busWrite, regAt_regOffset]

/-- Settles O9: a write at CMD issues its word (O4, O5), any other write stores its word in the register at the offset. -/
theorem registerWriteStores : Obligations.RegisterWriteStores := by
  unfold Obligations.RegisterWriteStores
  intro s rest o v hpend
  have write (r : Reg) (hr : r ≠ .cmd) (h : o.toNat = (regOffset r).toNat) :
      step s = .next ((writeReg { s with pending := rest } v r).respond .written) := step_write_reg hpend hr h
  refine ⟨fun h => ?_, write .width (by decide), write .height (by decide), write .rawBase (by decide),
    write .rawLen (by decide), write .cmpBase (by decide), write .cmpLen (by decide), write .blkX (by decide),
    write .blkY (by decide), fun k hk h => ?_, fun j hj h => ?_, fun j hj h => ?_⟩
  · obtain rfl : o = 0x04#8 := BitVec.eq_of_toNat_eq h
    obtain ⟨-, illegal⟩ := illegalWordsOnlySetErrcode
    refine ⟨fun e he => illegal v s rest ⟨e, he⟩ hpend, fun i t hi ht => ?_⟩
    obtain ⟨answered, -⟩ := stepRunsDecodedCommand s rest v i hpend hi
    exact answered t ht
  · refine ⟨s.pix.set k (pixelOfWord v), write (.pix ⟨k, hk⟩) (by simp)
      (h.trans (regOffset_pix_toNat ⟨k, hk⟩).symm), ?_, fun i _ hne => ?_⟩
    · rw [pixAt_set, if_pos rfl]
      exact pixelOfWord_toNat v
    · rw [pixAt_set, if_neg hne]
  · exact ⟨setSubBlockWord s.ablk j v, write (.ablk ⟨j, hj⟩) (by simp)
      (h.trans (regOffset_ablk_toNat ⟨j, hj⟩).symm), fun i hi => byteNum_setSubBlockWord s.ablk j v hi⟩
  · exact ⟨setSubBlockWord s.cblk j v, write (.cblk ⟨j, hj⟩) (by simp)
      (h.trans (regOffset_cblk_toNat ⟨j, hj⟩).symm), fun i hi => byteNum_setSubBlockWord s.cblk j v hi⟩

/-- Settles O10: ID and STATUS store no write, and an unmapped offset has no register. -/
theorem ignoredWritesChangeNothing : Obligations.IgnoredWritesChangeNothing := by
  unfold Obligations.IgnoredWritesChangeNothing
  intro s rest o v hpend ho hoff
  rcases hoff with hid | hstatus | hunmapped
  · exact step_write_reg hpend (r := .id) (by decide) hid
  · exact step_write_reg hpend (r := .status) (by decide) hstatus
  · have hcmd : o ≠ regOffset .cmd := by
      rintro rfl
      revert hunmapped
      decide
    rw [step_write hpend ho hcmd, busWrite, regAt_unmapped hunmapped]
    rfl

/-! ### Refused transactions -/

theorem wf_eq_false_iff (t : Transaction) : t.wf = false ↔ t.size ≠ 4 ∨ t.offset.toNat % 4 ≠ 0 := by
  unfold Transaction.wf Transaction.problem
  split_ifs with hsize halign
  · simp [hsize]
  · simp [halign]
  · simp [hsize, halign]

/-- Settles O11: the transaction fails a check of R103. -/
theorem illegalTransactionsRefused : Obligations.IllegalTransactionsRefused := by
  unfold Obligations.IllegalTransactionsRefused
  intro s rest t hpend hbad
  rw [step_bus hpend, serveBus, (wf_eq_false_iff t).mpr hbad]
  rfl

/-! ### The order of service -/

/-- From `s` to `t` no action was taken and nothing was answered. -/
structure SameQueues (s t : State) : Prop where
  pending : t.pending = s.pending
  responses : t.responses = s.responses

/-- From `s` to `t` no action was taken and at most one response was given, at the end of the record. -/
structure AnswersOnce (s t : State) : Prop where
  pending : t.pending = s.pending
  responses : t.responses = s.responses ∨ ∃ r, t.responses = s.responses ++ [r]

theorem SameQueues.answersOnce {s t : State} (h : SameQueues s t) : AnswersOnce s t := ⟨h.pending, .inl h.responses⟩

theorem SameQueues.respond {s t : State} (h : SameQueues s t) (r : Response) : AnswersOnce s (t.respond r) :=
  ⟨h.pending, .inr ⟨r, by rw [← h.responses]; rfl⟩⟩

theorem SameFrame.sameQueues {s t : State} (h : SameFrame s t) : SameQueues s t := ⟨h.pending, h.responses⟩

/-- What waits outside the engine stays over a reset (log 9). -/
theorem applyReset_sameQueues (s : State) : SameQueues s s.applyReset := ⟨rfl, rfl⟩

/-- A reset during a command touches memory and registers only (R241; log 9). -/
theorem stoppedReset_sameQueues (i : Instr) (k : Nat) (s : State) : SameQueues s (stoppedMemory i k s).applyReset :=
  ⟨rfl, rfl⟩

theorem issue_sameQueues {w : Word} {s t : State} (h : issue w s = .next t) : SameQueues s t := by
  unfold issue at h
  split at h
  · cases h
    exact ⟨rfl, rfl⟩
  · obtain ⟨⟨frame, -, -⟩, -, -⟩ := exec_within _ s t h
    exact frame.sameQueues

theorem transact_answersOnce {x : Transaction} {s t : State} (h : transact x s = .next t) : AnswersOnce s t := by
  unfold transact at h
  split at h
  case h_1 =>
    cases h
    exact SameQueues.respond ⟨rfl, rfl⟩ _
  case h_2 =>
    split at h
    · obtain ⟨u, hu, rfl⟩ := respondWith_next h
      exact (issue_sameQueues hu).respond .written
    · cases h
      exact SameQueues.respond ⟨busWrite_pending s _ _, busWrite_responses s _ _⟩ .written

theorem serveBus_answersOnce {x : Transaction} {s t : State} (h : serveBus x s = .next t) : AnswersOnce s t := by
  unfold serveBus at h
  split at h
  · exact transact_answersOnce h
  · cases h

theorem serve_answersOnce {a : HostAction} {s t : State} (h : serve a s = .next t) : AnswersOnce s t := by
  cases a with
  | bus x => exact serveBus_answersOnce h
  | memWrite addr v =>
    obtain ⟨-, -, rfl⟩ := hostWrite_eq_next.mp h
    exact (setMem_frame s (s.mem.write addr v)).sameQueues.respond .written
  | memRead addr =>
    obtain ⟨-, -, rfl⟩ := hostRead_eq_next.mp h
    exact SameQueues.respond ⟨rfl, rfl⟩ _
  | reset =>
    cases h
    exact (applyReset_sameQueues s).answersOnce
  | resetDuring w k =>
    rcases resetDuring_next h with rfl | ⟨i, -, rfl⟩
    · exact (applyReset_sameQueues s).respond .aborted
    · exact (stoppedReset_sameQueues i k s).respond .aborted

/-- Settles O7: the step serves the oldest action on the state without it, and serving takes no action from the list. -/
theorem actionsServedInArrivalOrder : Obligations.ActionsServedInArrivalOrder := by
  unfold Obligations.ActionsServedInArrivalOrder
  intro s t a rest hpend ht
  obtain ⟨hp, hr⟩ := serve_answersOnce ((step_pending hpend).symm.trans ht)
  exact ⟨hp, hr⟩

end Sys2Proof.Machine
end

section
/-! PROOFS. The frame of a command (40_host_interface.md R104 to R113): the first failing check, refusal and completion,
NOP, and the commands on an empty image (43_tiler.md R194): the statements O23 to O26 and O47. -/

namespace Sys2Proof.Machine

open Sys2Proof.Spec

/-! ### Failing checks, refusal, completion -/

/-- A command whose first failing check reports `c` ends with that code (R106). -/
theorem exec_of_firstFailure {i : Instr} {s : State} {c : ErrCode}
    (h : firstFailure (formatOf i) s (checksOf i) = some c) : exec i s = .next (s.endCommand c) := by
  rw [exec_eq, runCommand, h]

/-- Settles O23: the table's first failing check is the model's (`firstFails_iff`). -/
theorem firstFailingCheckDecides : Obligations.FirstFailingCheckDecides := by
  unfold Obligations.FirstFailingCheckDecides
  intro i s c h
  obtain ⟨e, he, rfl⟩ := (firstFails_iff i s c).mp h
  exact exec_of_firstFailure he

/-- A command whose checks pass, over no device, answers a next state with code 0 or 7 (R104, R223). -/
theorem exec_of_checks_pass {i : Instr} {s : State} (h : firstFailure (formatOf i) s (checksOf i) = none)
    (hd : usesDevice i s = false) : ∃ t, exec i s = .next t ∧ (t.errcode = 0#4 ∨ t.errcode = 7#4) := by
  rw [exec_eq]
  cases hb : bodyOf i s with
  | done t => exact ⟨_, runCommand_done i _ s t h hd hb, .inl rfl⟩
  | busError t => exact ⟨_, runCommand_busError i _ s t h hd hb, .inr rfl⟩

/-- A command whose checks pass is refused over a device (R247; log 6). -/
theorem exec_over_device {i : Instr} {s : State} (h : firstFailure (formatOf i) s (checksOf i) = none)
    (hd : usesDevice i s = true) : exec i s = .refused .bufferOverDevice := by
  rw [exec_eq, runCommand, h, hd]
  rfl

/-- Settles O24: past its checks a command is refused or ends with code 0 or 7. -/
theorem checksPassedEndsOkOrBusError : Obligations.ChecksPassedEndsOkOrBusError := by
  unfold Obligations.ChecksPassedEndsOkOrBusError
  intro i s t hpass ht
  have hf := (no_firstFails_iff i s).mp hpass
  cases hd : usesDevice i s with
  | true =>
    rw [exec_over_device hf hd] at ht
    cases ht
  | false =>
    obtain ⟨u, hu, hcode⟩ := exec_of_checks_pass hf hd
    rw [hu] at ht
    cases ht
    exact hcode

/-- Settles O25: a failing check ends the command, and past the checks only a launch over a device is refused. -/
theorem commandAnswersUnlessOverDevice : Obligations.CommandAnswersUnlessOverDevice := by
  unfold Obligations.CommandAnswersUnlessOverDevice
  intro i s
  refine ⟨fun hpass hover => ?_, fun h => ?_⟩
  · exact exec_over_device ((no_firstFails_iff i s).mp hpass) ((launchOverDevice_iff i s).mp hover)
  · cases hf : firstFailure (formatOf i) s (checksOf i) with
    | some e => exact ⟨_, exec_of_firstFailure hf⟩
    | none =>
      have hover : ¬ LaunchOverDevice i s := h.resolve_left fun ⟨c, hc⟩ => (no_firstFails_iff i s).mpr hf c hc
      rw [launchOverDevice_iff, Bool.not_eq_true] at hover
      obtain ⟨t, ht, -⟩ := exec_of_checks_pass hf hover
      exact ⟨t, ht⟩

/-- Settles O26: NOP makes no check, uses no buffer, and its body does nothing. -/
theorem nopOnlyClearsErrcode : Obligations.NopOnlyClearsErrcode :=
  ⟨(decodeEncodeAgree _ .nop).mpr rfl, fun s => runCommand_done .nop .done s s rfl rfl rfl⟩

/-! ### Empty images -/

/-- An image with no pixel, its dimensions legal and its two buffers empty (R194). -/
structure EmptyImage (s : State) : Prop where
  dim : ¬ DimFails s
  noPixel : s.width = 0#32 ∨ s.height = 0#32
  rawLen : s.rawLen = 0#32
  cmpLen : s.cmpLen = 0#32

namespace EmptyImage

variable {s : State}

theorem gx_or_gy_eq_zero (h : EmptyImage s) : gx s = 0 ∨ gy s = 0 :=
  h.noPixel.imp (fun hw => by rw [gx, hw]; rfl) (fun hh => by rw [gy, hh]; rfl)

theorem rawReady (h : EmptyImage s) : RawReady s := by
  have hsize : s.width.toNat * s.height.toNat = 0 := by
    rcases h.noPixel with hw | hh
    · simp [hw]
    · simp [hh]
  have hbase := s.rawBase.isLt
  refine ⟨h.dim, ?_, ?_⟩
  · simp [RawSizeFails, h.rawLen, hsize]
  · simp only [RawRangeFails, h.rawLen, BitVec.toNat_zero]
    omega

theorem cmpReady (h : EmptyImage s) (f : Format) : CmpReady f s := by
  have hsize : gx s * gy s = 0 := Nat.mul_eq_zero.mpr h.gx_or_gy_eq_zero
  have hbase := s.cmpBase.isLt
  refine ⟨h.dim, ?_, ?_⟩
  · simp [CmpSizeFails, h.cmpLen, hsize]
  · simp only [CmpRangeFails, h.cmpLen, BitVec.toNat_zero]
    omega

/-- An empty raw buffer shares no byte with the compressed one (R111). -/
theorem not_overlapFails (h : EmptyImage s) : ¬ OverlapFails s := by
  rintro ⟨a, ⟨hlo, hhi⟩, -⟩
  rw [h.rawLen, BitVec.toNat_zero] at hhi
  omega

/-- No block lies in an empty grid (R112). -/
theorem blockFails (h : EmptyImage s) : BlockFails s := by
  rcases h.gx_or_gy_eq_zero with hx | hy
  · exact .inl (hx ▸ Nat.zero_le _)
  · exact .inr (hy ▸ Nat.zero_le _)

/-- An empty buffer covers no device register (R247). -/
theorem usesDevice_eq_false (h : EmptyImage s) (i : Instr) : usesDevice i s = false := by
  have clear (base : Nat) : ClearOfDevices s base 0 := fun r _ a ⟨hlo, hhi⟩ => by omega
  rw [usesDevice_false_iff, h.rawLen, h.cmpLen]
  exact ⟨fun _ => clear _, fun _ => clear _⟩

theorem blocks_eq_nil (h : EmptyImage s) : s.blocks = [] := by
  refine List.eq_nil_iff_forall_not_mem.mpr fun ⟨x, y⟩ hxy => ?_
  obtain ⟨hx, hy⟩ := (mem_blocks s x y).mp hxy
  have := h.gx_or_gy_eq_zero
  omega

theorem compress_eq_done (h : EmptyImage s) (f : Format) : compress f s = .done s := by
  rw [compress, h.blocks_eq_nil, forBlocks]

theorem clearRaw_eq_done (h : EmptyImage s) : clearRaw s = .done s := by
  have hnil : clearWrites s = [] := by simp [clearWrites, h.rawLen]
  rw [clearRaw, hnil]
  rfl

theorem decompress_eq_done (h : EmptyImage s) (f : Format) : decompress f s = .done s := by
  rw [decompress, andThen_state_of_done h.clearRaw_eq_done, h.blocks_eq_nil, forBlocks]

/-- A command whose checks pass and whose body leaves the state only sets ERRCODE to 0. -/
theorem exec_eq_ok (h : EmptyImage s) {i : Instr} (hf : firstFailure (formatOf i) s (checksOf i) = none)
    (hb : bodyOf i s = .done s) : exec i s = .next { s with errcode := 0#4 } :=
  (exec_eq i s).trans (runCommand_done i _ s s hf (h.usesDevice_eq_false i) hb)

theorem image_checks_pass (h : EmptyImage s) (f : Format) :
    firstFailure f s [.dim, .rawSize, .cmpSize, .rawRange, .cmpRange, .overlap] = none :=
  (image_checks_pass_iff f s).mpr ⟨h.rawReady, h.cmpReady f, h.not_overlapFails⟩

theorem clear_checks_pass (h : EmptyImage s) (f : Format) : firstFailure f s [.dim, .rawSize, .rawRange] = none :=
  (clear_checks_pass_iff f s).mpr h.rawReady

/-- The checks of a tile command pass up to BLOCK, which fails (R106). -/
theorem tile_firstFails (h : EmptyImage s) :
    FirstFails [(DimFails s, 2#4), (RawSizeFails s, 3#4), (RawRangeFails s, 4#4), (BlockFails s, 6#4)] 6#4 := by
  obtain ⟨hdim, hsize, hrange⟩ := h.rawReady
  exact .inr ⟨hdim, .inr ⟨hsize, .inr ⟨hrange, .inl ⟨h.blockFails, rfl⟩⟩⟩⟩

/-- The checks of a block command pass up to BLOCK, which fails (R106). -/
theorem block_firstFails (h : EmptyImage s) (f : Format) :
    FirstFails [(DimFails s, 2#4), (CmpSizeFails f s, 3#4), (CmpRangeFails s, 4#4), (BlockFails s, 6#4)] 6#4 := by
  obtain ⟨hdim, hsize, hrange⟩ := h.cmpReady f
  exact .inr ⟨hdim, .inr ⟨hsize, .inr ⟨hrange, .inl ⟨h.blockFails, rfl⟩⟩⟩⟩

end EmptyImage

/-- Settles O47: the grid and both buffers are empty, so the image commands and CLEAR_RAW pass their checks and have
nothing to do, and BLOCK is the first check that the tile primitives fail. -/
theorem emptyImageCommands : Obligations.EmptyImageCommands := by
  unfold Obligations.EmptyImageCommands
  intro s hdim hpix hraw hcmp
  have h : EmptyImage s := ⟨hdim, hpix, hraw, hcmp⟩
  simp only [List.forall_mem_cons, List.not_mem_nil, false_implies, implies_true, and_true]
  refine ⟨⟨?_, ?_, ?_, ?_, ?_⟩, ?_, ?_, ?_, ?_, ?_, ?_⟩
  · exact h.exec_eq_ok (h.image_checks_pass .bc1) (h.compress_eq_done .bc1)
  · exact h.exec_eq_ok (h.image_checks_pass .bc3) (h.compress_eq_done .bc3)
  · exact h.exec_eq_ok (h.image_checks_pass .bc1) (h.decompress_eq_done .bc1)
  · exact h.exec_eq_ok (h.image_checks_pass .bc3) (h.decompress_eq_done .bc3)
  · exact h.exec_eq_ok (h.clear_checks_pass .bc1) h.clearRaw_eq_done
  · exact firstFailingCheckDecides .loadTile s _ h.tile_firstFails
  · exact firstFailingCheckDecides .storeTile s _ h.tile_firstFails
  · exact firstFailingCheckDecides .putBlockBc1 s _ (h.block_firstFails .bc1)
  · exact firstFailingCheckDecides .putBlockBc3 s _ (h.block_firstFails .bc3)
  · exact firstFailingCheckDecides .getBlockBc1 s _ (h.block_firstFails .bc1)
  · exact firstFailingCheckDecides .getBlockBc3 s _ (h.block_firstFails .bc3)

end Sys2Proof.Machine
end

section
/-! PROOFS. The colour codec (41_color_codec.md), padding in a block that is encoded (43_tiler.md R192), and the block
registers a command leaves unchanged (R130 to R190): the statements O27 to O32, O44 and O56. -/

namespace Sys2Proof.Machine

open Sys2Proof.Spec

/-! ### A codec command -/

/-- A command that makes no check and whose body completes ends with code 0 (40_host_interface.md R104, R106, R114). -/
theorem exec_unchecked_done {i : Instr} {s t : State} (hi : checksOf i = []) (ht : bodyOf i s = .done t) :
    exec i s = .next (t.endCommand .ok) := by
  rw [exec_eq]
  refine runCommand_done i _ s t (by rw [hi]; rfl) ?_ ht
  rw [usesDevice_eq, hi]
  rfl

theorem exec_encColor (s : State) :
    exec .encColor s = .next (State.endCommand { s with cblk := colourEncode s.pix } .ok) := exec_unchecked_done rfl rfl

theorem exec_decColor (s : State) :
    exec .decColor s = .next (State.endCommand { s with pix := colourDecode s.cblk } .ok) := exec_unchecked_done rfl rfl

theorem exec_encBc3 (s : State) : exec .encBc3 s = .next ((encodeBlock .bc3 s).endCommand .ok) :=
  exec_unchecked_done rfl rfl

/-- Settles O27: the body of ENC_COLOR is `colourEncode`, which meets R122 to R127. -/
theorem encColorEncodesPix : Obligations.EncColorEncodesPix :=
  ⟨(decodeEncodeAgree _ .encColor).mpr rfl, fun s => ⟨_, exec_encColor s, rfl, colourEncode_spec s.pix⟩⟩

/-- Settles O28: the body of DEC_COLOR is `colourDecode`, which meets R128 and R129. -/
theorem decColorDecodesCblk : Obligations.DecColorDecodesCblk :=
  ⟨(decodeEncodeAgree _ .decColor).mpr rfl, fun s => ⟨_, exec_decColor s, rfl, colourDecode_spec s.cblk⟩⟩

/-! ### The colour-space helpers -/

theorem quantize_expand (v : Nat) : quantize (expand v 0) (expand v 1) (expand v 2) = v := by
  simp only [quantize, expand]
  omega

/-- A colour whose dropped low bits are 0 survives quantizing (R120, R121). -/
theorem expand_quantize {r g b : Nat} (hr : r % 8 = 0) (hg : g % 4 = 0) (hb : b % 8 = 0) (hg' : g < 256)
    (hb' : b < 256) :
    expand (quantize r g b) 0 = r ∧ expand (quantize r g b) 1 = g ∧ expand (quantize r g b) 2 = b := by
  simp only [quantize, expand]
  omega

/-- Settles O29: in numbers, quantizing undoes the expansion (`quantize_expand`). -/
theorem quantizeAfterExpandIsIdentity : Obligations.QuantizeAfterExpandIsIdentity := by
  unfold Obligations.QuantizeAfterExpandIsIdentity
  intro v
  obtain ⟨hr, hg, hb⟩ := rgb565To888_toNat v
  apply BitVec.eq_of_toNat_eq
  rw [rgbTo565_toNat, hr, hg, hb, quantize_expand]

/-- Settles O30: the helpers against `quantize` and `expand`, which are these formulas. -/
theorem colourHelpersAreShifts : Obligations.ColourHelpersAreShifts :=
  ⟨rgbTo565_toNat, rgb565To888_toNat⟩

/-! ### A block encoded and then decoded -/

/-- Two pixels with the same four channels are the same pixel. -/
theorem pixel_ext_channel {p q : Pixel} (h : ∀ c, c < 4 → channel p c = channel q c) : p = q := by
  obtain ⟨pr, pg, pb, pa⟩ := p
  obtain ⟨qr, qg, qb, qa⟩ := q
  rw [Pixel.mk.injEq]
  exact ⟨h 0 (by omega), h 1 (by omega), h 2 (by omega), h 3 (by omega)⟩

/-- ENC_COLOR and then DEC_COLOR: the block between the two is the encoding of PIX, and PIX becomes its decoding. -/
theorem encColor_decColor {s t u : State} (ht : exec .encColor s = .next t) (hu : exec .decColor t = .next u) :
    IsColourEncoding s.pix t.cblk ∧ ∀ k, k < 16 → IsColourDecoding 4 t.cblk k (pixAt u.pix k) := by
  rw [exec_encColor] at ht
  cases ht
  rw [exec_decColor] at hu
  cases hu
  exact ⟨colourEncode_spec s.pix, colourDecode_spec _⟩

/-- With ordered endpoints the decoder's entry 3 is 0 in every channel (R128). -/
theorem decEntry_three_of_le {c0 c1 : Nat} (h : c0 ≤ c1) (c : Nat) : decEntry c0 c1 3 c = 0 := by
  simp [decEntry, Nat.not_lt.mpr h]

/-- With ordered endpoints the decoder's entry 2 is the average of the two colours (R128). -/
theorem decEntry_two_of_le {c0 c1 c : Nat} (h : c0 ≤ c1) (hc : c < 3) :
    decEntry c0 c1 2 c = (expand c0 c + expand c1 c) / 2 := by
  simp [decEntry, Nat.not_lt.mpr h, Nat.ne_of_lt hc]

/-- In both palettes the decoder's entry 0 is the first endpoint, with alpha 255 (R128). -/
theorem decEntry_zero (c0 c1 c : Nat) : decEntry c0 c1 0 c = if c = 3 then 255 else expand c0 c := by
  simp [decEntry, encEntry]

/-- Settles O31: the decoder's entries 3 and 2 under ordered endpoints (R128), which the encoder's palette does not
have (R125). -/
theorem paletteMismatchWhenOrdered : Obligations.PaletteMismatchWhenOrdered := by
  unfold Obligations.PaletteMismatchWhenOrdered
  intro s t u k hk ht hu hle
  obtain ⟨-, hdec⟩ := encColor_decColor ht hu
  refine ⟨fun h3 => ?_, fun h2 c hc => ?_⟩
  · refine pixel_ext_channel fun c hc => BitVec.eq_of_toNat_eq ?_
    have hzero : (channel Pixel.zero c).toNat = 0 := by unfold channel; split <;> rfl
    rw [hdec k hk c hc, h3, decEntry_three_of_le hle, hzero]
  · rw [hdec k hk c (by omega), h2, decEntry_two_of_le hle hc]

/-- The search stops at index 0 when no value is less than the first (00_scope.md R10). -/
theorem isFirstArgmin_eq_zero {n : Nat} {f : Nat → Int} {i : Nat} (h : IsFirstArgmin n f i) (h0 : f 0 ≤ f i) :
    i = 0 := by
  obtain ⟨-, -, hfirst⟩ := h
  exact Nat.eq_zero_of_not_pos fun hi => absurd (hfirst 0 hi) (not_lt.mpr h0)

theorem sqDist_nonneg (p : Pixel) (c0 c1 j : Nat) : 0 ≤ sqDist p c0 c1 j := by
  unfold sqDist
  positivity

/-- A pixel that is the first endpoint lies at distance 0 from entry 0 (R125, R126). -/
theorem sqDist_zero_of_expand {p : Pixel} {c0 : Nat} (c1 : Nat) (hr : expand c0 0 = p.r.toNat)
    (hg : expand c0 1 = p.g.toNat) (hb : expand c0 2 = p.b.toNat) : sqDist p c0 c1 0 = 0 := by
  simp [sqDist, encEntry, hr, hg, hb]

/-- Settles O32: the first endpoint is the colour itself, so every pixel lies at distance 0 from entry 0, gets index 0
and decodes to that endpoint. -/
theorem solidColourRoundTrip : Obligations.SolidColourRoundTrip := by
  unfold Obligations.SolidColourRoundTrip
  intro s t u r g b hr hg hb hsolid ht hu k hk
  obtain ⟨⟨⟨i, ⟨hi, -⟩, hc0⟩, -, hidx⟩, hdec⟩ := encColor_decColor ht hu
  obtain ⟨hri, hgi, hbi⟩ := hsolid i hi
  obtain ⟨hrk, hgk, hbk⟩ := hsolid k hk
  obtain ⟨er, eg, eb⟩ := expand_quantize hr hg hb g.isLt b.isLt
  rw [hri, hgi, hbi] at hc0
  have hdist : sqDist (pixAt s.pix k) (color0 t.cblk) (color1 t.cblk) 0 = 0 :=
    sqDist_zero_of_expand _ (by rw [hc0, er, hrk]) (by rw [hc0, eg, hgk]) (by rw [hc0, eb, hbk])
  have hindex : colourIdx t.cblk k = 0 := isFirstArgmin_eq_zero (hidx k hk) (hdist ▸ sqDist_nonneg _ _ _ _)
  refine pixel_ext_channel fun c hc => BitVec.eq_of_toNat_eq ?_
  rw [hdec k hk c hc, hindex, decEntry_zero, hc0]
  match c, hc with
  | 0, _ => exact er
  | 1, _ => exact eg
  | 2, _ => exact eb
  | 3, _ => rfl

/-! ### Padding in an encoded block -/

/-- A failing check never reports code 0 (R106). -/
theorem firstFailure_ne_ok {f : Format} {s : State} {l : List Check} : firstFailure f s l ≠ some .ok := by
  induction l with
  | nil => nofun
  | cons k rest ih =>
    rw [firstFailure]
    split
    · cases k <;> simp [Check.code]
    · exact ih

theorem errCode_value_eq_zero_iff (c : ErrCode) : c.value = 0#4 ↔ c = .ok := by cases c <;> decide

/-- A command that ends with code 0 has completed its body (R104, R114). -/
theorem exec_ok_body {i : Instr} {s t : State} (h : exec i s = .next t) (h0 : t.errcode = 0#4) :
    ∃ u, bodyOf i s = .done u ∧ t = u.endCommand .ok := by
  rw [exec_eq] at h
  rcases runCommand_cases i (bodyOf i) s with ⟨c, hf, hr⟩ | ⟨-, -, hr⟩ | ⟨-, -, ⟨u, hb, hr⟩ | ⟨u, hb, hr⟩⟩
  all_goals rw [hr] at h; cases h
  · obtain rfl := (errCode_value_eq_zero_iff c).mp h0
    exact absurd hf firstFailure_ne_ok
  · exact ⟨u, hb, rfl⟩
  · cases (errCode_value_eq_zero_iff .busError).mp h0

/-- PIX after a LOAD_TILE that ends with code 0 is the tile at the cursor (R184). -/
theorem loadTile_ok_isTile {s t : State} (h : exec .loadTile s = .next t) (h0 : t.errcode = 0#4) :
    IsTile s s.blkX.toNat s.blkY.toNat t.pix := by
  obtain ⟨u, hb, rfl⟩ := exec_ok_body h h0
  change loadTile s = .done u at hb
  rcases loadTile_cases s with ⟨-, hl⟩ | ⟨-, hl⟩ <;> rw [hl] at hb <;> cases hb
  exact loadedTile_spec s

/-- A block with a transparent black entry encodes `color0 = 0`: the least luminance is 0 (R123, R124). -/
theorem color0_eq_zero_of_zero_pixel {p : Vector Pixel 16} {b : Vector Byte 8} (h : IsColourEncoding p b) {k : Nat}
    (hk : k < 16) (hz : pixAt p k = Pixel.zero) : color0 b = 0 := by
  obtain ⟨⟨i, ⟨-, hmin, -⟩, hc0⟩, -, -⟩ := h
  have hlum : lum (pixAt p i) ≤ lum Pixel.zero := hz ▸ hmin k hk
  simp only [lum, BitVec.toNat_zero] at hlum
  rw [hc0, quantize]
  omega

/-- A block with a transparent black entry encodes `alpha0 = 0` (R150). -/
theorem alpha0_eq_zero_of_zero_pixel {p : Vector Pixel 16} {b : Vector Byte 8} (h : IsAlphaEncoding p b) {k : Nat}
    (hk : k < 16) (hz : pixAt p k = Pixel.zero) : byteNum b 0 = 0 := by
  obtain ⟨⟨-, hmin⟩, -, -⟩ := h
  exact Nat.le_zero.mp ((hmin k hk).trans_eq (by rw [hz]; rfl))

/-- Settles O44: a padding entry is transparent black (R183), which is least in luminance and in alpha. -/
theorem paddedBlockEncodesZeroEndpoint : Obligations.PaddedBlockEncodesZeroEndpoint := by
  unfold Obligations.PaddedBlockEncodesZeroEndpoint
  rintro s t u ht h0 hu ⟨k, hk, hout⟩
  obtain ⟨-, hpad⟩ := loadTile_ok_isTile ht h0 k hk
  rw [exec_encBc3] at hu
  cases hu
  have hc0 := color0_eq_zero_of_zero_pixel (colourEncode_spec t.pix) hk (hpad hout)
  have ha0 := alpha0_eq_zero_of_zero_pixel (alphaEncode_spec t.pix) hk (hpad hout)
  exact ⟨hc0, ha0, hc0.trans_le (Nat.zero_le _)⟩

/-! ### The block registers a command leaves unchanged -/

/-- From `s` to `t` the block registers outside `w` keep their values. -/
structure KeepsUntouched (w : Touched) (s t : State) : Prop where
  pix : w.pix = false → t.pix = s.pix
  ablk : w.ablk = false → t.ablk = s.ablk
  cblk : w.cblk = false → t.cblk = s.cblk
  cursor : w.cursor = false → t.blkX = s.blkX ∧ t.blkY = s.blkY

theorem KeepsUntouched.trans {w : Touched} {s t u : State} (h : KeepsUntouched w s t) (k : KeepsUntouched w t u) :
    KeepsUntouched w s u where
  pix hw := (k.pix hw).trans (h.pix hw)
  ablk hw := (k.ablk hw).trans (h.ablk hw)
  cblk hw := (k.cblk hw).trans (h.cblk hw)
  cursor hw := ⟨(k.cursor hw).1.trans (h.cursor hw).1, (k.cursor hw).2.trans (h.cursor hw).2⟩

theorem SameButMem.keepsUntouched {s t : State} (h : SameButMem s t) (w : Touched) : KeepsUntouched w s t := by
  rw [h]
  exact ⟨fun _ => rfl, fun _ => rfl, fun _ => rfl, fun _ => ⟨rfl, rfl⟩⟩

theorem endCommand_keepsUntouched (w : Touched) (s : State) (c : ErrCode) : KeepsUntouched w s (s.endCommand c) :=
  ⟨fun _ => rfl, fun _ => rfl, fun _ => rfl, fun _ => ⟨rfl, rfl⟩⟩

theorem freeRegisters_keepsUntouched (w : Touched) (s : State) : KeepsUntouched w s (s.freeRegisters w) :=
  ⟨freeRegisters_pix s w, freeRegisters_ablk s w, freeRegisters_cblk s w, freeRegisters_cursor s w⟩

theorem storeBytes_ablk (cells : List Host.Cell) (s : State) : (storeBytes cells s).state.ablk = s.ablk := by
  rw [storeBytes_registers cells s]

theorem loadTile_ablk (s : State) : (loadTile s).state.ablk = s.ablk := by
  rcases loadTile_cases s with ⟨-, h⟩ | ⟨-, h⟩ <;> rw [h] <;> rfl

theorem getBlock_bc1_ablk (s : State) : (getBlock .bc1 s).state.ablk = s.ablk := by
  rcases getBlock_cases .bc1 s with ⟨-, h⟩ | ⟨-, h⟩ <;> rw [h] <;> rfl

/-- COMPRESS.BC1 has no alpha sub-block: each of its blocks leaves ABLK (R189). -/
theorem compress_bc1_ablk (s : State) : (compress .bc1 s).state.ablk = s.ablk :=
  forBlocks_invariant (P := fun t => t.ablk = s.ablk) s.blocks (fun x y _ t ht =>
    andThen_invariant (P := fun u => u.ablk = s.ablk) ((loadTile_ablk (t.setCursor x y)).trans ht) fun u hu =>
      (storeBytes_ablk _ (encodeBlock .bc1 u)).trans hu) s rfl

/-- DECOMPRESS.BC1 has no alpha sub-block: its clear and each of its blocks leave ABLK (R190). -/
theorem decompress_bc1_ablk (s : State) : (decompress .bc1 s).state.ablk = s.ablk :=
  andThen_invariant (P := fun t => t.ablk = s.ablk) (storeBytes_ablk _ s) fun c hc =>
    forBlocks_invariant (P := fun t => t.ablk = s.ablk) s.blocks (fun x y _ t ht =>
      andThen_invariant (P := fun u => u.ablk = s.ablk) ((getBlock_bc1_ablk (t.setCursor x y)).trans ht) fun u hu =>
        (storeBytes_ablk _ (decodeBlock .bc1 u)).trans hu) c hc

/-- Every body leaves the block registers that its command does not write, however it ends. -/
theorem bodyOf_keepsUntouched (i : Instr) (s : State) : KeepsUntouched (touchedOf i) s (bodyOf i s).state := by
  cases i with
  | nop => exact ⟨fun _ => rfl, fun _ => rfl, fun _ => rfl, fun _ => ⟨rfl, rfl⟩⟩
  | encColor => exact ⟨fun _ => rfl, fun _ => rfl, nofun, fun _ => ⟨rfl, rfl⟩⟩
  | encAlpha => exact ⟨fun _ => rfl, nofun, fun _ => rfl, fun _ => ⟨rfl, rfl⟩⟩
  | encBc3 => exact ⟨fun _ => rfl, nofun, nofun, fun _ => ⟨rfl, rfl⟩⟩
  | decColor | decAlpha | decBc3 => exact ⟨nofun, fun _ => rfl, fun _ => rfl, fun _ => ⟨rfl, rfl⟩⟩
  | loadTile =>
    change KeepsUntouched _ s (loadTile s).state
    rcases loadTile_cases s with ⟨-, h⟩ | ⟨-, h⟩ <;> rw [h] <;>
      exact ⟨nofun, fun _ => rfl, fun _ => rfl, fun _ => ⟨rfl, rfl⟩⟩
  | getBlockBc1 =>
    change KeepsUntouched _ s (getBlock .bc1 s).state
    rcases getBlock_cases .bc1 s with ⟨-, h⟩ | ⟨-, h⟩ <;> rw [h] <;>
      exact ⟨fun _ => rfl, fun _ => rfl, nofun, fun _ => ⟨rfl, rfl⟩⟩
  | getBlockBc3 =>
    change KeepsUntouched _ s (getBlock .bc3 s).state
    rcases getBlock_cases .bc3 s with ⟨-, h⟩ | ⟨-, h⟩ <;> rw [h] <;>
      exact ⟨fun _ => rfl, nofun, nofun, fun _ => ⟨rfl, rfl⟩⟩
  | storeTile | putBlockBc1 | putBlockBc3 | clearRaw => exact (storeBytes_registers _ s).keepsUntouched _
  | compressBc1 => exact ⟨nofun, fun _ => compress_bc1_ablk s, nofun, nofun⟩
  | decompressBc1 => exact ⟨nofun, fun _ => decompress_bc1_ablk s, nofun, nofun⟩
  | compressBc3 | decompressBc3 => exact ⟨nofun, nofun, nofun, nofun⟩

/-- Every next state of a command keeps the block registers that the command does not write. -/
theorem exec_keepsUntouched {i : Instr} {s t : State} (h : exec i s = .next t) : KeepsUntouched (touchedOf i) s t := by
  rw [exec_eq] at h
  have hbody := bodyOf_keepsUntouched i s
  rcases runCommand_cases i (bodyOf i) s with ⟨c, -, hr⟩ | ⟨-, -, hr⟩ | ⟨-, -, ⟨u, hb, hr⟩ | ⟨u, hb, hr⟩⟩
  all_goals rw [hr] at h; cases h
  · exact endCommand_keepsUntouched _ s c
  · rw [hb] at hbody
    exact hbody.trans (endCommand_keepsUntouched _ u .ok)
  · rw [hb] at hbody
    exact (hbody.trans (freeRegisters_keepsUntouched _ u)).trans (endCommand_keepsUntouched _ _ .busError)

/-- A command outside the list of those that touch a register does not touch it. -/
theorem touchedOf_eq_false_of_not_mem {reg : Touched → Bool} {l : List Instr}
    (hl : Instr.all.filter (fun i => reg (touchedOf i)) = l) {i : Instr} (hi : i ∉ l) : reg (touchedOf i) = false := by
  rw [← hl, List.mem_filter, not_and, Bool.not_eq_true] at hi
  exact hi i.mem_all

/-- Settles O56: the lists of the statement are the commands that write each block register (`touchedOf`), and no
outcome changes another. -/
theorem commandsKeepOtherBlockRegisters : Obligations.CommandsKeepOtherBlockRegisters := by
  unfold Obligations.CommandsKeepOtherBlockRegisters
  intro i s t h
  have keep := exec_keepsUntouched h
  exact ⟨fun hi => keep.pix (touchedOf_eq_false_of_not_mem rfl hi),
    fun hi => keep.ablk (touchedOf_eq_false_of_not_mem rfl hi),
    fun hi => keep.cblk (touchedOf_eq_false_of_not_mem rfl hi),
    fun hi => keep.cursor (touchedOf_eq_false_of_not_mem rfl hi)⟩

end Sys2Proof.Machine
end

section
/-! PROOFS. The alpha codec and the BC3 block commands (42_alpha_codec.md): the statements O33 to O38. -/

namespace Sys2Proof.Machine

open Sys2Proof.Spec

/-! ### The commands -/

theorem exec_encAlpha (s : State) :
    exec .encAlpha s = .next (State.endCommand { s with ablk := alphaEncode s.pix } .ok) := exec_unchecked_done rfl rfl

theorem exec_decAlpha (s : State) :
    exec .decAlpha s = .next (State.endCommand { s with pix := overrideAlpha s.pix (alphaDecode s.ablk) } .ok) :=
  exec_unchecked_done rfl rfl

theorem exec_decBc3 (s : State) : exec .decBc3 s = .next ((decodeBlock .bc3 s).endCommand .ok) :=
  exec_unchecked_done rfl rfl

/-- Settles O33: the body of ENC_ALPHA is `alphaEncode`, which meets R150 to R153. -/
theorem encAlphaEncodesPix : Obligations.EncAlphaEncodesPix :=
  ⟨(decodeEncodeAgree _ .encAlpha).mpr rfl, fun s => ⟨_, exec_encAlpha s, rfl, alphaEncode_spec s.pix⟩⟩

/-- An entry of an overridden block has the alpha that its sub-block decodes to (R154, R156). -/
theorem overrideAlpha_alphaDecode_a (p : Vector Pixel 16) (b : Vector Byte 8) {k : Nat} (hk : k < 16) :
    (pixAt (overrideAlpha p (alphaDecode b)) k).a.toNat = decodedAlpha b k := by
  rw [pixAt_overrideAlpha p _ k hk]
  exact alphaDecode_toNat b k

/-- Overriding the alpha of a block changes nothing but the alpha of an entry (R156). -/
theorem pixAt_overrideAlpha_rgb (p : Vector Pixel 16) (t : Nat → Byte) {k : Nat} (hk : k < 16) :
    pixAt (overrideAlpha p t) k = { pixAt p k with a := (pixAt (overrideAlpha p t) k).a } := by
  rw [pixAt_overrideAlpha p t k hk]

/-- Settles O34: the body of DEC_ALPHA is `overrideAlpha`, which keeps R, G and B and puts the decoded alpha. -/
theorem decAlphaOverridesOnlyAlpha : Obligations.DecAlphaOverridesOnlyAlpha :=
  ⟨(decodeEncodeAgree _ .decAlpha).mpr rfl, fun s => ⟨_, exec_decAlpha s, rfl, fun _ hk =>
    ⟨pixAt_overrideAlpha_rgb s.pix _ hk, overrideAlpha_alphaDecode_a s.pix s.ablk hk⟩⟩⟩

/-- Settles O35: the body of ENC_BC3 is both encoders, each of which meets its own rules. -/
theorem encBc3EncodesBoth : Obligations.EncBc3EncodesBoth :=
  ⟨(decodeEncodeAgree _ .encBc3).mpr rfl,
    fun s => ⟨_, exec_encBc3 s, rfl, alphaEncode_spec s.pix, colourEncode_spec s.pix⟩⟩

/-- Overriding the alpha of a block keeps the channels R, G and B (R156). -/
theorem channel_overrideAlpha (p : Vector Pixel 16) (t : Nat → Byte) {k c : Nat} (hk : k < 16) (hc : c < 3) :
    channel (pixAt (overrideAlpha p t) k) c = channel (pixAt p k) c := by
  rw [pixAt_overrideAlpha p t k hk]
  match c, hc with
  | 0, _ | 1, _ | 2, _ => rfl

/-- Settles O36: the colour decode gives R, G and B, which the override keeps, and the alpha decode gives A. -/
theorem decBc3DecodesBoth : Obligations.DecBc3DecodesBoth := by
  refine ⟨(decodeEncodeAgree _ .decBc3).mpr rfl, fun s => ⟨_, exec_decBc3 s, rfl, fun k hk => ?_⟩⟩
  refine ⟨fun c hc => ?_, ?_⟩
  · exact (congrArg BitVec.toNat (channel_overrideAlpha _ _ hk hc)).trans (colourDecode_spec s.cblk k hk c (by omega))
  · exact overrideAlpha_alphaDecode_a _ s.ablk hk

/-! ### The encoder's palette and its round trips -/

/-- ENC_ALPHA and then DEC_ALPHA: the block between the two is the encoding of PIX.A, and PIX.A becomes its decoding. -/
theorem encAlpha_decAlpha {s t u : State} (ht : exec .encAlpha s = .next t) (hu : exec .decAlpha t = .next u) :
    IsAlphaEncoding s.pix t.ablk ∧ ∀ k, k < 16 → (pixAt u.pix k).a.toNat = decodedAlpha t.ablk k := by
  rw [exec_encAlpha] at ht
  cases ht
  rw [exec_decAlpha] at hu
  cases hu
  exact ⟨alphaEncode_spec s.pix, fun k hk => overrideAlpha_alphaDecode_a _ _ hk⟩

/-- The search never stops at an index when an earlier one has no greater value (00_scope.md R10). -/
theorem isFirstArgmin_ne {n : Nat} {f : Nat → Int} {i j l : Nat} (h : IsFirstArgmin n f i) (hlj : l < j)
    (hle : f l ≤ f j) : i ≠ j := by
  obtain ⟨-, -, hfirst⟩ := h
  rintro rfl
  exact absurd (hfirst l hlj) (not_lt.mpr hle)

theorem alphaEntry_zero (a0 a1 : Nat) : alphaEntry a0 a1 0 = a0 := rfl

theorem alphaEntry_one (a0 a1 : Nat) : alphaEntry a0 a1 1 = a1 := rfl

/-- With ordered endpoints slots 6 and 7 of the palette are 0 and 255 (R151). -/
theorem alphaEntry_six_seven_of_le {a0 a1 : Nat} (h : a0 ≤ a1) :
    alphaEntry a0 a1 6 = 0 ∧ alphaEntry a0 a1 7 = 255 := by
  simp [alphaEntry, Nat.not_lt.mpr h]

/-- An alpha between the endpoints is no nearer to 0 than to the least, and no nearer to 255 than to the greatest, so
slots 0 and 1 come before slots 6 and 7 (R151, R152, R159). -/
theorem alphaIdx_lt_six {p : Vector Pixel 16} {b : Vector Byte 8} (h : IsAlphaEncoding p b) {k : Nat} (hk : k < 16) :
    alphaIdx b k < 6 := by
  obtain ⟨⟨-, hmin⟩, ⟨-, hmax⟩, hidx⟩ := h
  have h0 := hmin k hk
  have h1 := hmax k hk
  obtain ⟨e6, e7⟩ := alphaEntry_six_seven_of_le (h0.trans h1)
  have hb := byteNum_lt b 1
  have h6 : alphaIdx b k ≠ 6 := by
    refine isFirstArgmin_ne (hidx k hk) (l := 0) (by omega) ?_
    rw [alphaEntry_zero, e6]
    exact abs_le_abs_of_nonneg (by omega) (by omega)
  have h7 : alphaIdx b k ≠ 7 := by
    refine isFirstArgmin_ne (hidx k hk) (l := 1) (by omega) ?_
    rw [alphaEntry_one, e7]
    exact abs_le_abs_of_nonpos (by omega) (by omega)
  obtain ⟨h8, -⟩ := hidx k hk
  omega

/-- Settles O37: the endpoints are the least and the greatest alpha, and no index is 6 or 7 (`alphaIdx_lt_six`). -/
theorem encoderAlphaStaysSixLevel : Obligations.EncoderAlphaStaysSixLevel := by
  unfold Obligations.EncoderAlphaStaysSixLevel
  intro s t ht
  rw [exec_encAlpha] at ht
  cases ht
  have henc := alphaEncode_spec s.pix
  refine ⟨?_, fun k hk => alphaIdx_lt_six henc hk⟩
  obtain ⟨⟨-, hmin⟩, ⟨-, hmax⟩, -⟩ := henc
  exact (hmin 0 (by omega)).trans (hmax 0 (by omega))

/-- An alpha that is an entry of the palette lies at distance 0 from its nearest entry, and decodes to itself (R152,
R154). -/
theorem decodedAlpha_of_alphaEntry {p : Vector Pixel 16} {b : Vector Byte 8} (h : IsAlphaEncoding p b) {k j : Nat}
    (hk : k < 16) (hj : j < 8) (ha : alphaEntry (byteNum b 0) (byteNum b 1) j = (pixAt p k).a.toNat) :
    decodedAlpha b k = (pixAt p k).a.toNat := by
  obtain ⟨-, -, hidx⟩ := h
  obtain ⟨-, hle, -⟩ := hidx k hk
  have hdist := hle j hj
  simp only [ha, sub_self, abs_zero, abs_nonpos_iff] at hdist
  unfold decodedAlpha
  omega

/-- In a constant block, and in a block of 0 and 255, every alpha is the least or the greatest of the block (R150,
R160). -/
theorem endpoint_of_twoValued {p : Vector Pixel 16} {b : Vector Byte 8} (h : IsAlphaEncoding p b) {x y : Byte}
    (hxy : x = y ∨ (x = 0#8 ∧ y = 255#8)) (hvals : ∀ k, k < 16 → (pixAt p k).a = x ∨ (pixAt p k).a = y)
    {k : Nat} (hk : k < 16) : byteNum b 0 = (pixAt p k).a.toNat ∨ byteNum b 1 = (pixAt p k).a.toNat := by
  obtain ⟨⟨⟨i, hi, h0⟩, hmin⟩, ⟨-, hmax⟩, -⟩ := h
  rcases hxy with rfl | ⟨rfl, rfl⟩
  · have hik : (pixAt p i).a = (pixAt p k).a := (or_self_iff.mp (hvals i hi)).trans (or_self_iff.mp (hvals k hk)).symm
    exact .inl (h0.trans (congrArg BitVec.toNat hik))
  · rcases hvals k hk with hzero | hfull
    · have hle := hmin k hk
      rw [hzero] at hle ⊢
      exact .inl (Nat.le_zero.mp hle)
    · have hge := hmax k hk
      rw [hfull] at hge ⊢
      exact .inr (Nat.le_antisymm (Nat.le_of_lt_succ (byteNum_lt b 1)) hge)

/-- Settles O38: each alpha is an endpoint of the block (`endpoint_of_twoValued`), so it is entry 0 or entry 1 of the
palette and decodes to itself. -/
theorem twoValuedAlphaRoundTrip : Obligations.TwoValuedAlphaRoundTrip := by
  unfold Obligations.TwoValuedAlphaRoundTrip
  intro s t u x y hxy hvals ht hu k hk
  obtain ⟨henc, hdec⟩ := encAlpha_decAlpha ht hu
  apply BitVec.eq_of_toNat_eq
  rw [hdec k hk]
  rcases endpoint_of_twoValued henc hxy hvals hk with h0 | h1
  · exact decodedAlpha_of_alphaEntry henc (j := 0) hk (by omega) h0
  · exact decodedAlpha_of_alphaEntry henc (j := 1) hk (by omega) h1

end Sys2Proof.Machine
end

section
/-! PROOFS. When a command stops on a bus error (60_exceptions.md R222): a command past its checks and over no device, and
when the body of each tile and image command completes (43_tiler.md R184 to R190): the statements O49 and O52. -/

namespace Sys2Proof.Machine

open Sys2Proof.Spec

/-! ### A command that runs its body -/

/-- The command passes its checks and no buffer it uses covers a device register: its body runs (R104, R106, R247). -/
structure Launches (i : Instr) (s : State) : Prop where
  checks : firstFailure (formatOf i) s (checksOf i) = none
  offDevice : usesDevice i s = false

theorem launches_tile {i : Instr} {s : State} (hi : checksOf i = [.dim, .rawSize, .rawRange, .block]) (hr : RawReady s)
    (hb : ¬ BlockFails s) (hd : ClearOfDevices s s.rawBase.toNat s.rawLen.toNat) : Launches i s := by
  refine ⟨hi ▸ (tile_checks_pass_iff _ s).mpr ⟨hr, hb⟩, ?_⟩
  rw [usesDevice_false_iff, hi]
  exact ⟨fun _ => hd, fun h => absurd h (by decide)⟩

theorem launches_block {i : Instr} {s : State} (hi : checksOf i = [.dim, .cmpSize, .cmpRange, .block])
    (hc : CmpReady (formatOf i) s) (hb : ¬ BlockFails s) (hd : ClearOfDevices s s.cmpBase.toNat s.cmpLen.toNat) :
    Launches i s := by
  refine ⟨hi ▸ (block_checks_pass_iff _ s).mpr ⟨hc, hb⟩, ?_⟩
  rw [usesDevice_false_iff, hi]
  exact ⟨fun h => absurd h (by decide), fun _ => hd⟩

theorem launches_clearRaw {s : State} (hr : RawReady s) (hd : ClearOfDevices s s.rawBase.toNat s.rawLen.toNat) :
    Launches .clearRaw s := by
  refine ⟨(clear_checks_pass_iff _ s).mpr hr, ?_⟩
  rw [usesDevice_false_iff]
  exact ⟨fun _ => hd, fun h => absurd h (by decide)⟩

/-- An image command runs its body exactly on a state that is ready for it (R106, R247). -/
theorem launches_image_iff {i : Instr} {s : State}
    (hi : checksOf i = [.dim, .rawSize, .cmpSize, .rawRange, .cmpRange, .overlap]) :
    Launches i s ↔ ImageReady (formatOf i) s := by
  have hdevice : usesDevice i s = false ↔
      ClearOfDevices s s.rawBase.toNat s.rawLen.toNat ∧ ClearOfDevices s s.cmpBase.toNat s.cmpLen.toNat := by
    rw [usesDevice_false_iff, hi]
    simp
  constructor
  · rintro ⟨hf, hd⟩
    rw [hi, image_checks_pass_iff] at hf
    obtain ⟨hr, hc, ho⟩ := hf
    exact ⟨hr, hc, ho, hdevice.mp hd⟩
  · rintro ⟨hr, hc, ho, hd⟩
    exact ⟨hi ▸ (image_checks_pass_iff _ s).mpr ⟨hr, hc, ho⟩, hdevice.mpr hd⟩

theorem launches_putBlockOf {f : Format} {s : State} (hc : CmpReady f s) (hb : ¬ BlockFails s)
    (hd : ClearOfDevices s s.cmpBase.toNat s.cmpLen.toNat) : Launches (putBlockOf f) s := by
  cases f <;> exact launches_block rfl hc hb hd

theorem launches_getBlockOf {f : Format} {s : State} (hc : CmpReady f s) (hb : ¬ BlockFails s)
    (hd : ClearOfDevices s s.cmpBase.toNat s.cmpLen.toNat) : Launches (getBlockOf f) s := by
  cases f <;> exact launches_block rfl hc hb hd

theorem launches_compressOf_iff {f : Format} {s : State} : Launches (compressOf f) s ↔ ImageReady f s := by
  cases f <;> exact launches_image_iff rfl

theorem launches_decompressOf_iff {f : Format} {s : State} : Launches (decompressOf f) s ↔ ImageReady f s := by
  cases f <;> exact launches_image_iff rfl

@[simp] theorem bodyOf_putBlockOf (f : Format) : bodyOf (putBlockOf f) = putBlock f := by cases f <;> rfl

@[simp] theorem bodyOf_getBlockOf (f : Format) : bodyOf (getBlockOf f) = getBlock f := by cases f <;> rfl

@[simp] theorem bodyOf_compressOf (f : Format) : bodyOf (compressOf f) = compress f := by cases f <;> rfl

@[simp] theorem bodyOf_decompressOf (f : Format) : bodyOf (decompressOf f) = decompress f := by cases f <;> rfl

theorem Launches.exec_done {i : Instr} {s t : State} (h : Launches i s) (hb : bodyOf i s = .done t) :
    exec i s = .next (t.endCommand .ok) :=
  (exec_eq i s).trans (runCommand_done i _ s t h.checks h.offDevice hb)

theorem Launches.exec_busError {i : Instr} {s t : State} (h : Launches i s) (hb : bodyOf i s = .busError t) :
    exec i s = .next ((t.freeRegisters (touchedOf i)).endCommand .busError) :=
  (exec_eq i s).trans (runCommand_busError i _ s t h.checks h.offDevice hb)

/-- A command that ends with code 0 has run its body (R104). -/
theorem launches_of_ok {i : Instr} {s t : State} (h : exec i s = .next t) (h0 : t.errcode = 0#4) : Launches i s := by
  rw [exec_eq] at h
  rcases runCommand_cases i (bodyOf i) s with ⟨c, hf, hr⟩ | ⟨-, -, hr⟩ | ⟨hf, hd, -⟩
  · rw [hr] at h
    cases h
    rw [(errCode_value_eq_zero_iff c).mp h0] at hf
    exact absurd hf firstFailure_ne_ok
  · rw [hr] at h
    cases h
  · exact ⟨hf, hd⟩

/-- Every next state of a command, written out: no register of the geometry and the buffers changes, nor what waits. -/
theorem exec_eq_update {i : Instr} {s t : State} (h : exec i s = .next t) {c : BitVec 4} (hc : t.errcode = c) :
    t = { s with mem := t.mem, pix := t.pix, ablk := t.ablk, cblk := t.cblk, blkX := t.blkX, blkY := t.blkY,
                 draws := t.draws, errcode := c } := by
  obtain ⟨⟨hframe, -, -⟩, -⟩ := exec_within i s t h
  subst hc
  exact hframe.eq

/-- A next state for which no free value is drawn, written out. -/
theorem exec_eq_update_of_draws {i : Instr} {s t : State} (h : exec i s = .next t) (hd : t.draws = s.draws)
    {c : BitVec 4} (hc : t.errcode = c) :
    t = { s with mem := t.mem, pix := t.pix, ablk := t.ablk, cblk := t.cblk, blkX := t.blkX, blkY := t.blkY,
                 errcode := c } := by
  have heq := exec_eq_update h hc
  rwa [hd] at heq

/-! ### When a body completes -/

/-- The body part ends without a bus error. -/
def BodyResult.Completes (r : BodyResult) : Prop := ∃ t, r = .done t

theorem BodyResult.completes_done (t : State) : (BodyResult.done t).Completes := ⟨t, rfl⟩

theorem BodyResult.not_completes_busError (t : State) : ¬ (BodyResult.busError t).Completes := nofun

theorem BodyResult.exists_busError {r : BodyResult} (h : ¬ r.Completes) : ∃ t, r = .busError t := by
  cases r with
  | done t => exact absurd (completes_done t) h
  | busError t => exact ⟨t, rfl⟩

theorem BodyResult.completes_andThen_iff (r : BodyResult) (f : State → BodyResult) :
    (r.andThen f).Completes ↔ ∃ t, r = .done t ∧ (f t).Completes := by
  cases r with
  | done t => simp [andThen]
  | busError t => simp [andThen, not_completes_busError]

theorem BodyResult.andThen_eq_done {r : BodyResult} {f : State → BodyResult} {u : State} (h : r.andThen f = .done u) :
    ∃ t, r = .done t ∧ f t = .done u := by
  cases r with
  | done t => exact ⟨t, rfl, h⟩
  | busError t => cases h

/-- A command that runs its body answers a next state, with code 7 exactly when the body does not complete (R222). -/
theorem Launches.answers {i : Instr} {s : State} (h : Launches i s) :
    ∃ t, exec i s = .next t ∧ (t.errcode = 7#4 ↔ ¬ (bodyOf i s).Completes) := by
  cases hb : bodyOf i s with
  | done u => exact ⟨_, h.exec_done hb, iff_of_false nofun fun hn => hn (BodyResult.completes_done u)⟩
  | busError u => exact ⟨_, h.exec_busError hb, iff_of_true rfl (BodyResult.not_completes_busError u)⟩

theorem storeBytes_completes_iff (cells : List Host.Cell) (s : State) :
    (storeBytes cells s).Completes ↔ ∀ d, d ∈ cells → s.platform.busFault d.1 .write = false := by
  constructor
  · rintro ⟨t, ht⟩ d hd
    obtain ⟨made, rest, rfl, hmade, ⟨rfl, -⟩ | ⟨c, post, -, -, hstop⟩⟩ := storeBytes_cases cells s
    · exact hmade d (by simpa using hd)
    · rw [hstop] at ht
      cases ht
  · exact fun h => ⟨_, storeBytes_done cells s h⟩

theorem readsFault_tileReads_iff (s : State) :
    readsFault s.platform (tileReads s) = false ↔ TileAnswers s .read s.blkX.toNat s.blkY.toNat := by
  rw [readsFault_eq_false]
  constructor
  · exact fun h k c hk hc hin => h _ ((mem_tileReads s _).mpr ⟨k, c, hk, hc, hin, rfl⟩)
  · intro h a ha
    obtain ⟨k, c, hk, hc, hin, rfl⟩ := (mem_tileReads s a).mp ha
    exact h k c hk hc hin

theorem readsFault_blockReads_iff (f : Format) (s : State) :
    readsFault s.platform (blockReads f s) = false ↔ BlockAnswers f s .read s.blkX.toNat s.blkY.toNat := by
  rw [readsFault_eq_false]
  constructor
  · exact fun h j hj => h _ ((mem_blockReads f s _).mpr ⟨j, hj, rfl⟩)
  · intro h a ha
    obtain ⟨j, hj, rfl⟩ := (mem_blockReads f s a).mp ha
    exact h j hj

theorem loadTile_completes_iff (s : State) :
    (loadTile s).Completes ↔ TileAnswers s .read s.blkX.toNat s.blkY.toNat := by
  rw [← readsFault_tileReads_iff]
  rcases loadTile_cases s with ⟨hf, hl⟩ | ⟨hf, hl⟩ <;> simp [hf, hl, BodyResult.Completes]

theorem getBlock_completes_iff (f : Format) (s : State) :
    (getBlock f s).Completes ↔ BlockAnswers f s .read s.blkX.toNat s.blkY.toNat := by
  rw [← readsFault_blockReads_iff]
  rcases getBlock_cases f s with ⟨hf, hl⟩ | ⟨hf, hl⟩ <;> simp [hf, hl, BodyResult.Completes]

theorem storeTile_completes_iff (s : State) :
    (storeTile s).Completes ↔ TileAnswers s .write s.blkX.toNat s.blkY.toNat := by
  refine (storeBytes_completes_iff _ s).trans ⟨fun h k c hk hc hin => ?_, fun h d hd => ?_⟩
  · exact h _ ((mem_tileWrites s _).mpr ⟨k, c, hk, hc, hin, rfl⟩)
  · obtain ⟨k, c, hk, hc, hin, rfl⟩ := (mem_tileWrites s d).mp hd
    exact h k c hk hc hin

theorem putBlock_completes_iff (f : Format) (s : State) :
    (putBlock f s).Completes ↔ BlockAnswers f s .write s.blkX.toNat s.blkY.toNat := by
  refine (storeBytes_completes_iff _ s).trans ⟨fun h j hj => ?_, fun h d hd => ?_⟩
  · exact h _ ((mem_blockWrites f s _).mpr ⟨j, hj, rfl⟩)
  · obtain ⟨j, hj, rfl⟩ := (mem_blockWrites f s d).mp hd
    exact h j hj

theorem clearRaw_completes_iff (s : State) :
    (clearRaw s).Completes ↔ ∀ a, InRaw s a → s.platform.busFault a .write = false := by
  refine (storeBytes_completes_iff _ s).trans ⟨fun h a ha => ?_, fun h d hd => ?_⟩
  · exact h (a, 0#8) ((mem_clearWrites s _).mpr ⟨ha, rfl⟩)
  · exact h d.1 ((mem_clearWrites s d).mp hd).1

theorem SameFrame.tileAnswers {s t : State} (h : SameFrame s t) (d : Dir) (x y : Nat) :
    TileAnswers t d x y ↔ TileAnswers s d x y := by
  simp only [TileAnswers, h.inImage, h.pixelByte, h.platform]

theorem SameFrame.blockAnswers {s t : State} (h : SameFrame s t) (f : Format) (d : Dir) (x y : Nat) :
    BlockAnswers f t d x y ↔ BlockAnswers f s d x y := by
  simp only [BlockAnswers, h.blockByte, h.platform]

/-- One block of COMPRESS, from any state with the frame of `s`: its tile is read, then its bytes are written (R189). -/
theorem compressBlock_completes_iff {f : Format} {s t : State} (h : SameFrame s t) {x y : Nat} (hx : x < gx s)
    (hy : y < gy s) :
    (compressBlock f x y t).Completes ↔ TileAnswers s .read x y ∧ BlockAnswers f s .write x y := by
  have hcursor : SameFrame s (t.setCursor x y) := h.trans (setCursor_frame t x y)
  obtain ⟨ex, ey⟩ := setCursor_toNat t (h.gx ▸ hx) (h.gy ▸ hy)
  have hread := loadTile_completes_iff (t.setCursor x y)
  rw [ex, ey, hcursor.tileAnswers] at hread
  have hencoded : SameFrame s (encodeBlock f (loadedTile (t.setCursor x y))) :=
    (hcursor.trans (loadedTile_frame _)).trans (encodeBlock_frame f _)
  obtain ⟨cx, cy⟩ := encodeBlock_cursor f (loadedTile (t.setCursor x y))
  have hwrite := putBlock_completes_iff f (encodeBlock f (loadedTile (t.setCursor x y)))
  rw [cx, cy, loadedTile_blkX, loadedTile_blkY, ex, ey, hencoded.blockAnswers] at hwrite
  rw [compressBlock, BodyResult.completes_andThen_iff, ← hread, ← hwrite]
  rcases loadTile_cases (t.setCursor x y) with ⟨-, hl⟩ | ⟨-, hl⟩ <;> simp [hl, BodyResult.Completes]

/-- One block of DECOMPRESS, from any state with the frame of `s`: its bytes are read, then its tile is written (R190). -/
theorem decompressBlock_completes_iff {f : Format} {s t : State} (h : SameFrame s t) {x y : Nat} (hx : x < gx s)
    (hy : y < gy s) :
    (decompressBlock f x y t).Completes ↔ BlockAnswers f s .read x y ∧ TileAnswers s .write x y := by
  have hcursor : SameFrame s (t.setCursor x y) := h.trans (setCursor_frame t x y)
  obtain ⟨ex, ey⟩ := setCursor_toNat t (h.gx ▸ hx) (h.gy ▸ hy)
  have hread := getBlock_completes_iff f (t.setCursor x y)
  rw [ex, ey, hcursor.blockAnswers] at hread
  have hdecoded : SameFrame s (decodeBlock f (gottenBlock f (t.setCursor x y))) :=
    (hcursor.trans (gottenBlock_frame f _)).trans (decodeBlock_frame f _)
  obtain ⟨cx, cy⟩ := decodeBlock_cursor f (gottenBlock f (t.setCursor x y))
  obtain ⟨cx', cy'⟩ := gottenBlock_cursor f (t.setCursor x y)
  have hwrite := storeTile_completes_iff (decodeBlock f (gottenBlock f (t.setCursor x y)))
  rw [cx, cy, cx', cy', ex, ey, hdecoded.tileAnswers] at hwrite
  rw [decompressBlock, BodyResult.completes_andThen_iff, ← hread, ← hwrite]
  rcases getBlock_cases f (t.setCursor x y) with ⟨-, hl⟩ | ⟨-, hl⟩ <;> simp [hl, BodyResult.Completes]

/-- A loop over blocks completes exactly when the body of each block does, where that depends only on what every body
keeps. -/
theorem forBlocks_completes_iff {P : State → Prop} {good : Nat → Nat → Prop} {body : Nat → Nat → State → BodyResult}
    (l : List (Nat × Nat)) (hkeep : ∀ x y, (x, y) ∈ l → ∀ t, P t → P (body x y t).state)
    (hgood : ∀ x y, (x, y) ∈ l → ∀ t, P t → ((body x y t).Completes ↔ good x y)) {s : State} (hs : P s) :
    (forBlocks body l s).Completes ↔ ∀ x y, (x, y) ∈ l → good x y := by
  induction l generalizing s with
  | nil => exact iff_of_true (BodyResult.completes_done s) (by simp)
  | cons c rest ih =>
    obtain ⟨x, y⟩ := c
    have hfirst := hgood x y (by simp) s hs
    have hnext := hkeep x y (by simp) s hs
    rw [forBlocks, BodyResult.completes_andThen_iff]
    cases hb : body x y s with
    | done t =>
      rw [hb] at hfirst hnext
      change P t at hnext
      have hrest := ih (fun x y h => hkeep x y (by simp [h])) (fun x y h => hgood x y (by simp [h])) hnext
      have hxy : good x y := hfirst.mp (BodyResult.completes_done t)
      simp [hrest, hxy, or_imp, forall_and]
    | busError t =>
      rw [hb] at hfirst
      have hxy : ¬ good x y := fun h => BodyResult.not_completes_busError t (hfirst.mpr h)
      simpa using ⟨x, y, .inl ⟨rfl, rfl⟩, hxy⟩

/-- Each block of COMPRESS stays in the compressed buffer (R189). -/
theorem compressBlock_keeps_within {f : Format} {s : State} (hc : ¬ CmpSizeFails f s) (x y : Nat)
    (hxy : (x, y) ∈ s.blocks) (t : State) (ht : Within (InCmp s) s t) :
    Within (InCmp s) s (compressBlock f x y t).state := by
  obtain ⟨hx, hy⟩ := (mem_blocks s x y).mp hxy
  have hb := compressBlock_within f t x y ((ht.frame.cmpSize f).not.mpr hc) (ht.frame.gx.symm ▸ hx)
    (ht.frame.gy.symm ▸ hy)
  rw [ht.frame.inCmp_eq] at hb
  exact ht.trans hb

/-- Each block of DECOMPRESS stays in the raw buffer (R190). -/
theorem decompressBlock_keeps_within {f : Format} {s : State} (hr : ¬ RawSizeFails s) (x y : Nat) (t : State)
    (ht : Within (InRaw s) s t) : Within (InRaw s) s (decompressBlock f x y t).state := by
  have hb := decompressBlock_within f t x y (ht.frame.rawSize.not.mpr hr)
  rw [ht.frame.inRaw_eq] at hb
  exact ht.trans hb

theorem rawSize_passes {s : State} (h : RawReady s) : ¬ RawSizeFails s := h.2.1

theorem cmpSize_passes {f : Format} {s : State} (h : CmpReady f s) : ¬ CmpSizeFails f s := h.2.1

/-! ### Every byte of a buffer belongs to a block -/

/-- Every byte of the raw buffer is a channel of an entry in bounds of some block of the grid (R53, R182). -/
theorem exists_pixelByte {s : State} (hr : RawReady s) {a : Nat} (ha : InRaw s a) :
    ∃ x y k c, x < gx s ∧ y < gy s ∧ k < 16 ∧ c < 4 ∧ InImage s x y k ∧ a = pixelByte s x y k c := by
  obtain ⟨-, hsize, -⟩ := hr
  obtain ⟨hlo, hhi⟩ := ha
  have hlen : s.rawLen.toNat = s.width.toNat * s.height.toNat * 4 := not_not.mp hsize
  obtain ⟨o, rfl⟩ := Nat.exists_eq_add_of_le hlo
  have hpix : o / 4 < s.width.toNat * s.height.toNat := by omega
  have hw : 0 < s.width.toNat := Nat.pos_of_ne_zero fun h => by simp [h] at hpix
  have hpx : o / 4 % s.width.toNat < s.width.toNat := Nat.mod_lt _ hw
  have hpy : o / 4 / s.width.toNat < s.height.toNat := Nat.div_lt_of_lt_mul hpix
  have hdiv := Nat.div_add_mod (o / 4) s.width.toNat
  rw [Nat.mul_comm] at hdiv
  generalize o / 4 % s.width.toNat = px at *
  generalize o / 4 / s.width.toNat = py at *
  have ex : 4 * (px / 4) + (4 * (py % 4) + px % 4) % 4 = px := by omega
  have ey : 4 * (py / 4) + (4 * (py % 4) + px % 4) / 4 = py := by omega
  refine ⟨px / 4, py / 4, 4 * (py % 4) + px % 4, o % 4, ?_, ?_, by omega, by omega, ⟨?_, ?_⟩, ?_⟩
  · unfold gx; omega
  · unfold gy; omega
  · rw [ex]; exact hpx
  · rw [ey]; exact hpy
  · rw [pixelByte, ex, ey, hdiv]; omega

/-- Every byte of the compressed buffer is a byte of some block of the grid (R54, R181). -/
theorem exists_blockByte {f : Format} {s : State} (hc : CmpReady f s) {a : Nat} (ha : InCmp s a) :
    ∃ x y j, x < gx s ∧ y < gy s ∧ j < stride f ∧ a = blockByte f s x y j := by
  obtain ⟨-, hsize, -⟩ := hc
  obtain ⟨hlo, hhi⟩ := ha
  have hlen : s.cmpLen.toNat = stride f * (gx s * gy s) := by rw [Nat.mul_comm]; exact not_not.mp hsize
  obtain ⟨o, rfl⟩ := Nat.exists_eq_add_of_le hlo
  have hstride : 0 < stride f := by cases f <;> decide
  have hblk : o / stride f < gx s * gy s := Nat.div_lt_of_lt_mul (by omega)
  have hgx : 0 < gx s := Nat.pos_of_ne_zero fun h => by simp [h] at hblk
  refine ⟨o / stride f % gx s, o / stride f / gx s, o % stride f, Nat.mod_lt _ hgx, Nat.div_lt_of_lt_mul hblk,
    Nat.mod_lt _ hstride, ?_⟩
  rw [blockByte, Nat.div_add_mod', Nat.add_assoc, Nat.div_add_mod']

/-- The tiles of the grid answer exactly when every raw byte does. -/
theorem forall_tileAnswers_iff {s : State} (hr : RawReady s) (d : Dir) :
    (∀ x y, x < gx s → y < gy s → TileAnswers s d x y) ↔ ∀ a, InRaw s a → s.platform.busFault a d = false := by
  constructor
  · intro h a ha
    obtain ⟨x, y, k, c, hx, hy, hk, hc, hin, rfl⟩ := exists_pixelByte hr ha
    exact h x y hx hy k c hk hc hin
  · exact fun h x y _ _ k c _ hc hin => h _ (pixelByte_inRaw (rawSize_passes hr) hin hc)

/-- The blocks of the grid answer exactly when every compressed byte does. -/
theorem forall_blockAnswers_iff {f : Format} {s : State} (hc : CmpReady f s) (d : Dir) :
    (∀ x y, x < gx s → y < gy s → BlockAnswers f s d x y) ↔ ∀ a, InCmp s a → s.platform.busFault a d = false := by
  constructor
  · intro h a ha
    obtain ⟨x, y, j, hx, hy, hj, rfl⟩ := exists_blockByte hc ha
    exact h x y hx hy j hj
  · exact fun h x y hx hy j hj => h _ (blockByte_inCmp (cmpSize_passes hc) hx hy hj)

/-- COMPRESS completes exactly when no raw byte faults on a read and no compressed byte on a write (R189, R222). -/
theorem compress_completes_iff {f : Format} {s : State} (h : ImageReady f s) :
    (compress f s).Completes ↔ (∀ a, InRaw s a → s.platform.busFault a .read = false) ∧
      ∀ a, InCmp s a → s.platform.busFault a .write = false := by
  obtain ⟨hr, hc, -⟩ := h
  rw [← forall_tileAnswers_iff hr, ← forall_blockAnswers_iff hc, compress,
    forBlocks_completes_iff s.blocks (compressBlock_keeps_within (cmpSize_passes hc))
      (fun x y hxy t ht => compressBlock_completes_iff ht.frame ((mem_blocks s x y).mp hxy).1 ((mem_blocks s x y).mp hxy).2)
      (.refl _ s)]
  simp only [mem_blocks, and_imp]
  exact ⟨fun h => ⟨fun x y hx hy => (h x y hx hy).1, fun x y hx hy => (h x y hx hy).2⟩,
    fun h x y hx hy => ⟨h.1 x y hx hy, h.2 x y hx hy⟩⟩

/-- DECOMPRESS completes exactly when no raw byte faults on a write and no compressed byte on a read: the writes of the
tiles meet no fault that the clear has not met (R190, R222). -/
theorem decompress_completes_iff {f : Format} {s : State} (h : ImageReady f s) :
    (decompress f s).Completes ↔ (∀ a, InRaw s a → s.platform.busFault a .write = false) ∧
      ∀ a, InCmp s a → s.platform.busFault a .read = false := by
  obtain ⟨hr, hc, -⟩ := h
  have hloop : ∀ t, clearRaw s = .done t → ((forBlocks (decompressBlock f) s.blocks t).Completes ↔
      ∀ x y, (x, y) ∈ s.blocks → BlockAnswers f s .read x y ∧ TileAnswers s .write x y) := fun t ht => by
    have hclear := clearRaw_within s
    rw [ht] at hclear
    exact forBlocks_completes_iff s.blocks (fun x y _ => decompressBlock_keeps_within (rawSize_passes hr) x y)
      (fun x y hxy u hu => decompressBlock_completes_iff hu.frame ((mem_blocks s x y).mp hxy).1
        ((mem_blocks s x y).mp hxy).2) hclear
  rw [decompress, BodyResult.completes_andThen_iff, ← forall_blockAnswers_iff hc]
  constructor
  · rintro ⟨t, ht, hblocks⟩
    refine ⟨(clearRaw_completes_iff s).mp ⟨t, ht⟩, fun x y hx hy => ?_⟩
    exact ((hloop t ht).mp hblocks x y ((mem_blocks s x y).mpr ⟨hx, hy⟩)).1
  · rintro ⟨hwrite, hread⟩
    obtain ⟨t, ht⟩ := (clearRaw_completes_iff s).mpr hwrite
    refine ⟨t, ht, (hloop t ht).mpr fun x y hxy => ?_⟩
    obtain ⟨hx, hy⟩ := (mem_blocks s x y).mp hxy
    exact ⟨hread x y hx hy, (forall_tileAnswers_iff hr .write).mpr hwrite x y hx hy⟩

/-- Settles O52: the code is 7 exactly when the body does not complete, which some faulting access decides
(`compress_completes_iff`, `decompress_completes_iff`). -/
theorem imageBusErrorExactly : Obligations.ImageBusErrorExactly := by
  unfold Obligations.ImageBusErrorExactly
  intro f s h
  obtain ⟨t, ht, hcode⟩ := (launches_compressOf_iff.mpr h).answers
  obtain ⟨u, hu, hcode'⟩ := (launches_decompressOf_iff.mpr h).answers
  rw [bodyOf_compressOf, compress_completes_iff h] at hcode
  rw [bodyOf_decompressOf, decompress_completes_iff h] at hcode'
  refine ⟨⟨t, ht, hcode.trans ?_⟩, u, hu, hcode'.trans ?_⟩ <;>
    simp only [not_and_or, not_forall, exists_prop, Bool.not_eq_false]

/-- Settles O49: a faulting read stops LOAD_TILE and GET_BLOCK before a register is loaded, and the bus error frees the
registers they write (`Launches.exec_busError`). -/
theorem faultingReadEndsWithBusError : Obligations.FaultingReadEndsWithBusError := by
  unfold Obligations.FaultingReadEndsWithBusError
  constructor
  · intro s k c hr hb hd hk hc hin hfault
    have hstop : ¬ (loadTile s).Completes := fun h => by
      rw [(loadTile_completes_iff s).mp h k c hk hc hin] at hfault
      cases hfault
    rcases loadTile_cases s with ⟨-, hl⟩ | ⟨-, hl⟩
    · exact ⟨_, (launches_tile rfl hr hb hd).exec_busError hl, rfl⟩
    · exact absurd ⟨_, hl⟩ hstop
  · intro f s j hc hb hd hj hfault
    have hstop : ¬ (getBlock f s).Completes := fun h => by
      rw [(getBlock_completes_iff f s).mp h j hj] at hfault
      cases hfault
    rcases getBlock_cases f s with ⟨-, hl⟩ | ⟨-, hl⟩
    · have hexec := (launches_getBlockOf hc hb hd).exec_busError ((congrFun (bodyOf_getBlockOf f) s).trans hl)
      refine ⟨_, hexec, ?_, by cases f <;> rfl⟩
      rintro rfl
      rfl
    · exact absurd ⟨_, hl⟩ hstop

end Sys2Proof.Machine
end

section
/-! PROOFS. The byte writes a command makes before its first faulting access (60_exceptions.md R222), and what they leave
in memory: the statements O43, O50 and O51 of the tile family (43_tiler.md R185, R186, R188). -/

namespace Sys2Proof.Machine

open Sys2Proof.Spec

/-! ### The part of an ordered list before the first element that fails a test -/

/-- In a list in strict order, the part before the first element that fails a test holds what comes before that element. -/
theorem mem_takeWhile_iff_before {α : Type} {r : α → α → Prop} {l : List α} {q : α → Bool} {a : α} (hl : l.Pairwise r)
    (hr : ∀ b c, r b c → ¬ r c b) (ha : a ∈ l) (hqa : q a = false) (hq : ∀ b, b ∈ l → r b a → q b = true) (b : α) :
    b ∈ l.takeWhile q ↔ b ∈ l ∧ r b a := by
  obtain ⟨pre, post, rfl⟩ := List.append_of_mem ha
  obtain ⟨-, htail, hbefore⟩ := List.pairwise_append.mp hl
  obtain ⟨hafter, -⟩ := List.pairwise_cons.mp htail
  have hpre : ∀ c, c ∈ pre → r c a := fun c hc => hbefore c hc a (by simp)
  have htake : (pre ++ a :: post).takeWhile q = pre := by
    rw [List.takeWhile_append_of_pos fun c hc => hq c (by simp [hc]) (hpre c hc)]
    simp [hqa]
  rw [htake]
  refine ⟨fun hb => ⟨by simp [hb], hpre b hb⟩, fun ⟨hb, hba⟩ => ?_⟩
  rcases List.mem_append.mp hb with hb | hb
  · exact hb
  · rcases List.mem_cons.mp hb with rfl | hb
    · exact absurd hba (hr b b hba)
    · exact absurd hba (hr a b (hafter b hb))

/-- An element that passes a test, as all before it do, lies in the part before the first that fails. -/
theorem mem_takeWhile_of_before {α : Type} {r : α → α → Prop} {l : List α} {q : α → Bool} {a : α} (hl : l.Pairwise r)
    (ha : a ∈ l) (hqa : q a = true) (hq : ∀ b, b ∈ l → r b a → q b = true) : a ∈ l.takeWhile q := by
  obtain ⟨pre, post, rfl⟩ := List.append_of_mem ha
  obtain ⟨-, -, hbefore⟩ := List.pairwise_append.mp hl
  rw [List.takeWhile_append_of_pos fun c hc => hq c (by simp [hc]) (hbefore c hc a (by simp))]
  simp [hqa]

/-! ### Byte writes in order -/

theorem untilFault_eq_self {p : Platform} {cells : List Host.Cell}
    (h : ∀ d, d ∈ cells → p.busFault d.1 .write = false) : untilFault p cells = cells :=
  takeWhile_eq_self_of_all _ _ (List.all_eq_true.mpr fun d hd => by simp [h d hd])

/-- Past a write that faults no write is made (R222). -/
theorem untilFault_append_of_fault {p : Platform} {cells more : List Host.Cell}
    (h : ∃ d, d ∈ cells ∧ p.busFault d.1 .write = true) : untilFault p (cells ++ more) = untilFault p cells := by
  obtain ⟨d, hd, hfault⟩ := h
  rw [untilFault, untilFault, List.takeWhile_append, if_neg]
  intro hlen
  have hall := (List.takeWhile_sublist _).eq_of_length hlen
  rw [List.takeWhile_eq_self_iff] at hall
  simpa [hfault] using hall d hd

/-- The writes made of a list with one write for each of some places in strict order: those before the first place whose
write faults (R222). -/
theorem mem_untilFault_iff {ι : Type} {r : ι → ι → Prop} {l : List ι} {cell : ι → Host.Cell} {p : Platform} {i : ι}
    (hl : l.Pairwise r) (hr : ∀ a b, r a b → ¬ r b a) (hi : i ∈ l) (hfault : p.busFault (cell i).1 .write = true)
    (hanswer : ∀ j, j ∈ l → r j i → p.busFault (cell j).1 .write = false) (d : Host.Cell) :
    d ∈ untilFault p (l.map cell) ↔ ∃ j, (j ∈ l ∧ r j i) ∧ d = cell j := by
  have hbefore := mem_takeWhile_iff_before (q := fun j => !p.busFault (cell j).1 .write) hl hr hi (by simp [hfault])
    fun j hj hji => by simp [hanswer j hj hji]
  rw [untilFault, List.takeWhile_map, List.mem_map]
  exact exists_congr fun j => and_congr (hbefore j) eq_comm

/-- A list of byte writes one of which faults makes the writes before the first that does (R222). -/
theorem storeBytes_eq_busError {cells : List Host.Cell} {s : State}
    (h : ∃ d, d ∈ cells ∧ s.platform.busFault d.1 .write = true) :
    storeBytes cells s = .busError { s with mem := s.mem.writeAll (untilFault s.platform cells) } := by
  obtain ⟨d, hd, hfault⟩ := h
  have hstop : ¬ (storeBytes cells s).Completes := fun hc => by
    rw [(storeBytes_completes_iff cells s).mp hc d hd] at hfault
    cases hfault
  obtain ⟨t, ht⟩ := BodyResult.exists_busError hstop
  have hreg := storeBytes_registers cells s
  have hmem := storeBytes_mem cells s
  rw [ht] at hreg hmem
  rw [ht, ← hmem]
  exact congrArg BodyResult.busError hreg

/-- What writes to places with addresses of their own leave in memory: each place written holds its byte, and every other
address reads as before. -/
theorem Memory.read_writeAll_places {ι : Type} {m : Memory} {cells : List Host.Cell} {I : ι → Prop} {addr : ι → Nat}
    {val : ι → Byte} (hw : m.wf = true) (hcells : ∀ d, d ∈ cells ↔ ∃ i, I i ∧ d = (addr i, val i))
    (hlt : ∀ i, I i → addr i < Config.addressSpace) (hinj : ∀ i j, I i → I j → addr i = addr j → i = j) :
    (∀ i, I i → (m.writeAll cells).read (addr i) = val i) ∧
      ∀ a, (∀ i, I i → a ≠ addr i) → (m.writeAll cells).read a = m.read a := by
  constructor
  · intro i hi
    refine Memory.read_writeAll_mem _ _ _ _ hw (fun d hd => ?_) ((hcells _).mpr ⟨i, hi, rfl⟩) fun d hd he => ?_
    · obtain ⟨j, hj, rfl⟩ := (hcells d).mp hd
      exact hlt j hj
    · obtain ⟨j, hj, rfl⟩ := (hcells d).mp hd
      rw [hinj j i hj hi he]
  · intro a ha
    refine Memory.read_writeAll_other _ _ a fun d hd he => ?_
    obtain ⟨j, hj, rfl⟩ := (hcells d).mp hd
    exact ha j hj he.symm

/-! ### The raw buffer cleared -/

/-- Writes of 0 to the first `n` raw bytes leave 0 there and every other byte as it was (R188). -/
theorem read_writeAll_cleared {s : State} {n : Nat} {cells : List Host.Cell} (hw : s.mem.wf = true) (hr : RawReady s)
    (hn : n ≤ s.rawLen.toNat) (hcells : ∀ d, d ∈ cells ↔ ∃ o, o < n ∧ d = (s.rawBase.toNat + o, 0#8)) :
    (∀ o, o < n → (s.mem.writeAll cells).read (s.rawBase.toNat + o) = 0#8) ∧
      ∀ a, (∀ o, o < n → a ≠ s.rawBase.toNat + o) → (s.mem.writeAll cells).read a = s.mem.read a :=
  Memory.read_writeAll_places hw hcells (fun _ ho => inRaw_lt hr ⟨by omega, by omega⟩) fun _ _ _ _ he =>
    Nat.add_left_cancel he

/-- The clear stopped at raw byte `n` has written the bytes before it (R188, R222). -/
theorem mem_untilFault_clearWrites_iff {s : State} {n : Nat} (hn : n < s.rawLen.toNat)
    (hfault : s.platform.busFault (s.rawBase.toNat + n) .write = true)
    (hanswer : ∀ o, o < n → s.platform.busFault (s.rawBase.toNat + o) .write = false) (d : Host.Cell) :
    d ∈ untilFault s.platform (clearWrites s) ↔ ∃ o, o < n ∧ d = (s.rawBase.toNat + o, 0#8) := by
  refine (mem_untilFault_iff List.pairwise_lt_range (fun _ _ => Nat.lt_asymm) (List.mem_range.mpr hn) hfault
    (fun o _ ho => hanswer o ho) d).trans (exists_congr fun o => and_congr_left fun _ => ?_)
  rw [List.mem_range]
  omega

/-- Settles O43: no write of the clear faults, so every raw byte is 0 (`read_writeAll_cleared`). -/
theorem clearRawZeroesBuffer : Obligations.ClearRawZeroesBuffer := by
  unfold Obligations.ClearRawZeroesBuffer
  intro s hw hr hd hanswer
  have hbody : clearRaw s = .done { s with mem := s.mem.writeAll (clearWrites s) } :=
    storeBytes_done _ s fun d hd => hanswer d.1 ((mem_clearWrites s d).mp hd).1
  obtain ⟨hzero, hother⟩ := read_writeAll_cleared (cells := clearWrites s) hw hr le_rfl fun d => by
    simp only [clearWrites, List.mem_map, List.mem_range, eq_comm]
  refine ⟨_, (launches_clearRaw hr hd).exec_done hbody, rfl, fun a ⟨hlo, hhi⟩ => ?_, fun a ha => hother a ?_⟩
  · obtain ⟨o, rfl⟩ := Nat.exists_eq_add_of_le hlo
    exact hzero o (by omega)
  · rintro o ho rfl
    exact ha ⟨by omega, by omega⟩

/-- Settles O50: the writes of both commands are in the order of their bytes, so those made are the first `n`
(`mem_untilFault_iff`). -/
theorem faultingWriteKeepsEarlierWrites : Obligations.FaultingWriteKeepsEarlierWrites := by
  unfold Obligations.FaultingWriteKeepsEarlierWrites
  constructor
  · intro f s n hw hc hb hd hn hfault hanswer
    have hbody : putBlock f s = .busError { s with mem := s.mem.writeAll (untilFault s.platform (blockWrites f s)) } :=
      storeBytes_eq_busError ⟨_, (mem_blockWrites f s _).mpr ⟨n, hn, rfl⟩, hfault⟩
    have hx : s.blkX.toNat < gx s := Nat.lt_of_not_le fun h => hb (.inl h)
    have hmade : ∀ d, d ∈ untilFault s.platform (blockWrites f s) ↔
        ∃ j, j < n ∧ d = (blockByte f s s.blkX.toNat s.blkY.toNat j, blockImage f s.ablk s.cblk j) := fun d => by
      rw [blockWrites_eq]
      refine (mem_untilFault_iff List.pairwise_lt_range (fun _ _ => Nat.lt_asymm) (List.mem_range.mpr hn) hfault
        (fun j _ hj => hanswer j hj) d).trans (exists_congr fun j => and_congr_left fun _ => ?_)
      rw [List.mem_range]
      omega
    refine ⟨_, (launches_putBlockOf hc hb hd).exec_busError ((congrFun (bodyOf_putBlockOf f) s).trans hbody),
      by cases f <;> rfl, Memory.read_writeAll_places hw hmade (fun j hj => ?_) fun i j hi hj he => ?_⟩
    · exact inCmp_lt hc (cursorByte_inCmp hc hb (hj.trans hn))
    · obtain ⟨-, -, hij⟩ := blockByte_inj hx hx (hi.trans hn) (hj.trans hn) he
      exact hij
  · intro s n hw hr hd hn hfault hanswer
    have hbody : clearRaw s = .busError { s with mem := s.mem.writeAll (untilFault s.platform (clearWrites s)) } :=
      storeBytes_eq_busError ⟨(_, 0#8), (mem_clearWrites s _).mpr ⟨⟨by simp, by simpa using hn⟩, rfl⟩, hfault⟩
    exact ⟨_, (launches_clearRaw hr hd).exec_busError hbody, rfl,
      read_writeAll_cleared hw hr hn.le (mem_untilFault_clearWrites_iff hn hfault hanswer)⟩

/-! ### A tile stored -/

/-- The channels of the entries in bounds, in the order in which STORE_TILE writes them (R185). -/
def tileChannels (s : State) : List (Nat × Nat) :=
  (List.range 16).flatMap fun k => if s.inBounds k then (List.range 4).map fun c => (k, c) else []

theorem mem_tileChannels (s : State) (k c : Nat) :
    (k, c) ∈ tileChannels s ↔ k < 16 ∧ c < 4 ∧ InImage s s.blkX.toNat s.blkY.toNat k := by
  simp only [tileChannels, List.mem_flatMap, List.mem_range, ← inBounds_iff]
  constructor
  · rintro ⟨k', hk, hc⟩
    split at hc
    · next hin =>
      obtain ⟨c', hc, he⟩ := List.mem_map.mp hc
      cases he
      exact ⟨hk, List.mem_range.mp hc, hin⟩
    · simp at hc
  · rintro ⟨hk, hc, hin⟩
    exact ⟨k, hk, by simpa [hin] using hc⟩

theorem tileChannels_pairwise (s : State) :
    (tileChannels s).Pairwise fun i j => 4 * i.1 + i.2 < 4 * j.1 + j.2 := by
  have hentry : ∀ k i, i ∈ (if s.inBounds k then (List.range 4).map fun c => (k, c) else []) → i.1 = k ∧ i.2 < 4 := by
    intro k i hi
    split at hi
    · obtain ⟨c, hc, rfl⟩ := List.mem_map.mp hi
      exact ⟨rfl, List.mem_range.mp hc⟩
    · simp at hi
  refine List.pairwise_flatMap.mpr ⟨fun k _ => ?_, List.pairwise_lt_range.imp fun hkl i hi j hj => ?_⟩
  · split
    · exact List.pairwise_map.mpr (List.pairwise_lt_range.imp fun h => Nat.add_lt_add_left h _)
    · exact .nil
  · obtain ⟨rfl, hi⟩ := hentry _ i hi
    obtain ⟨rfl, hj⟩ := hentry _ j hj
    omega

theorem tileWrites_eq_map (s : State) :
    tileWrites s = (tileChannels s).map fun i =>
      (pixelByte s s.blkX.toNat s.blkY.toNat i.1 i.2, channel (pixAt s.pix i.1) i.2) := by
  rw [tileWrites_eq, tileChannels, List.map_flatMap]
  refine List.flatMap_congr fun k _ => ?_
  unfold entryCells
  split <;> rfl

/-- Settles O51: the channels of the entries in bounds are written in order (`tileChannels_pairwise`), so those made are
the ones before the faulting one. -/
theorem faultingStoreTileKeepsEarlierWrites : Obligations.FaultingStoreTileKeepsEarlierWrites := by
  unfold Obligations.FaultingStoreTileKeepsEarlierWrites
  intro s k c hw hr hb hd hk hc hin hfault hanswer
  have hbody : storeTile s = .busError { s with mem := s.mem.writeAll (untilFault s.platform (tileWrites s)) } :=
    storeBytes_eq_busError ⟨_, (mem_tileWrites s _).mpr ⟨k, c, hk, hc, hin, rfl⟩, hfault⟩
  have hmade := mem_untilFault_iff (cell := fun i : Nat × Nat =>
      (pixelByte s s.blkX.toNat s.blkY.toNat i.1 i.2, channel (pixAt s.pix i.1) i.2))
    (tileChannels_pairwise s) (fun _ _ => Nat.lt_asymm) ((mem_tileChannels s k c).mpr ⟨hk, hc, hin⟩) hfault
    fun ⟨k', c'⟩ hi hbefore => by
      obtain ⟨hk', hc', hin'⟩ := (mem_tileChannels s k' c').mp hi
      exact hanswer k' c' hk' hc' hbefore hin'
  rw [← tileWrites_eq_map] at hmade
  obtain ⟨hwritten, hother⟩ := Memory.read_writeAll_places hw hmade
    (fun ⟨k', c'⟩ ⟨hi, _⟩ => by
      obtain ⟨-, hc', hin'⟩ := (mem_tileChannels s k' c').mp hi
      exact inRaw_lt hr (pixelByte_inRaw (rawSize_passes hr) hin' hc'))
    fun ⟨k₁, c₁⟩ ⟨k₂, c₂⟩ ⟨h₁, _⟩ ⟨h₂, _⟩ he => by
      obtain ⟨hk₁, hc₁, hin₁⟩ := (mem_tileChannels s k₁ c₁).mp h₁
      obtain ⟨hk₂, hc₂, hin₂⟩ := (mem_tileChannels s k₂ c₂).mp h₂
      obtain ⟨-, -, rfl, rfl⟩ := pixelByte_inj hin₁ hin₂ hk₁ hk₂ hc₁ hc₂ he
      rfl
  refine ⟨_, (launches_tile rfl hr hb hd).exec_busError hbody, rfl, fun k' c' hk' hc' hbefore hin' => ?_,
    fun a ha => hother a fun ⟨k', c'⟩ ⟨hi, hbefore⟩ => ?_⟩
  · exact hwritten (k', c') ⟨(mem_tileChannels s k' c').mpr ⟨hk', hc', hin'⟩, hbefore⟩
  · obtain ⟨hk', hc', hin'⟩ := (mem_tileChannels s k' c').mp hi
    exact ha k' c' hk' hc' hbefore hin'

end Sys2Proof.Machine
end

section
/-! PROOFS. The blocks of the grid in order (43_tiler.md R180), how an image command ends, and COMPRESS (R189): the bytes
that hold the encoding of their tile, and what the last block leaves in the registers: the statements O45 and O53. -/

namespace Sys2Proof.Machine

open Sys2Proof.Spec

/-! ### The blocks of the grid in order -/

theorem blocks_pairwise (s : State) : s.blocks.Pairwise fun c d => BlockBefore c.1 c.2 d.1 d.2 := by
  refine List.pairwise_flatMap.mpr ⟨fun y _ => ?_, List.pairwise_lt_range.imp fun hlt c hc d hd => ?_⟩
  · exact List.pairwise_map.mpr (List.pairwise_lt_range.imp fun h => .inr ⟨rfl, h⟩)
  · obtain ⟨x, -, rfl⟩ := List.mem_map.mp hc
    obtain ⟨x', -, rfl⟩ := List.mem_map.mp hd
    exact .inl hlt

theorem blockBefore_asymm {x y x' y' : Nat} (h : BlockBefore x y x' y') : ¬ BlockBefore x' y' x y := by
  unfold BlockBefore at *
  omega

theorem blockBefore_trans {x y x' y' x'' y'' : Nat} (h : BlockBefore x y x' y') (k : BlockBefore x' y' x'' y'') :
    BlockBefore x y x'' y'' := by
  unfold BlockBefore at *
  omega

theorem byteBefore_zero_iff (x' y' j x y : Nat) : ByteBefore x' y' j x y 0 ↔ BlockBefore x' y' x y := by
  simp [ByteBefore]

theorem byteBefore_asymm {x y j x' y' j' : Nat} (h : ByteBefore x y j x' y' j') : ¬ ByteBefore x' y' j' x y j := by
  unfold ByteBefore BlockBefore at *
  omega

/-- The last block of a grid that is not empty (R180). -/
theorem blocks_eq_append_last {s : State} (h : 0 < gx s * gy s) :
    ∃ init, s.blocks = init ++ [(gx s - 1, gy s - 1)] := by
  have hx := Nat.pos_of_mul_pos_right h
  have hy := Nat.pos_of_mul_pos_left h
  obtain ⟨init, post, he⟩ := List.append_of_mem ((mem_blocks s (gx s - 1) (gy s - 1)).mpr ⟨by omega, by omega⟩)
  have hnil : post = [] := List.eq_nil_iff_forall_not_mem.mpr fun ⟨x, y⟩ hxy => by
    obtain ⟨hlx, hly⟩ := (mem_blocks s x y).mp (he ▸ by simp [hxy])
    obtain ⟨-, htail, -⟩ := List.pairwise_append.mp (he ▸ blocks_pairwise s)
    obtain ⟨hlast, -⟩ := List.pairwise_cons.mp htail
    have hafter := hlast (x, y) hxy
    simp only [BlockBefore] at hafter
    omega
  exact ⟨init, by rw [he, hnil]⟩

/-- A loop that completes ran its last body from a state that the bodies before it keep. -/
theorem forBlocks_done_last {P : State → Prop} {body : Nat → Nat → State → BodyResult} {init : List (Nat × Nat)}
    {x y : Nat} (hkeep : ∀ x' y', (x', y') ∈ init → ∀ t, P t → P (body x' y' t).state) {s u : State} (hs : P s)
    (h : forBlocks body (init ++ [(x, y)]) s = .done u) : ∃ t, P t ∧ body x y t = .done u := by
  have hbefore := forBlocks_invariant init hkeep s hs
  rw [forBlocks_append] at h
  cases hi : forBlocks body init s with
  | busError t =>
    rw [hi] at h
    cases h
  | done t =>
    rw [hi] at h hbefore
    change (body x y t).andThen .done = .done u at h
    refine ⟨t, hbefore, ?_⟩
    cases hb : body x y t <;> rw [hb] at h <;> exact h

theorem blocksRead_eq_blocks {reads : State → List Nat} {s : State}
    (h : ∀ x y, (x, y) ∈ s.blocks → readsFault s.platform (reads (s.setCursor x y)) = false) :
    blocksRead reads s = s.blocks :=
  takeWhile_eq_self_of_all _ _ (List.all_eq_true.mpr fun ⟨x, y⟩ hxy => by simp [h x y hxy])

/-- The blocks read whole are those before the first that meets a faulting read (R222). -/
theorem mem_blocksRead_iff_before {reads : State → List Nat} {s : State} {x y : Nat} (hxy : (x, y) ∈ s.blocks)
    (hfault : readsFault s.platform (reads (s.setCursor x y)) = true)
    (hanswer : ∀ x' y', (x', y') ∈ s.blocks → BlockBefore x' y' x y →
      readsFault s.platform (reads (s.setCursor x' y')) = false) (c : Nat × Nat) :
    c ∈ blocksRead reads s ↔ c ∈ s.blocks ∧ BlockBefore c.1 c.2 x y :=
  mem_takeWhile_iff_before (a := (x, y)) (q := fun c : Nat × Nat => !readsFault s.platform (reads (s.setCursor c.1 c.2)))
    (blocks_pairwise s) (fun _ _ => blockBefore_asymm) hxy (by simp [hfault])
    (fun d hd hb => by simp [hanswer d.1 d.2 hd hb]) c

/-- A block is read whole when no read of it or of a block before it faults. -/
theorem mem_blocksRead_of_before {reads : State → List Nat} {s : State} {x y : Nat} (hxy : (x, y) ∈ s.blocks)
    (hanswer : ∀ x' y', (x', y') ∈ s.blocks → ((x', y') = (x, y) ∨ BlockBefore x' y' x y) →
      readsFault s.platform (reads (s.setCursor x' y')) = false) : (x, y) ∈ blocksRead reads s :=
  mem_takeWhile_of_before (blocks_pairwise s) hxy (by simp [hanswer x y hxy (.inl rfl)])
    fun d hd hb => by simp [hanswer d.1 d.2 hd (.inr hb)]

theorem readsFault_tileReads_setCursor {s : State} {x y : Nat} (hx : x < gx s) (hy : y < gy s) :
    readsFault s.platform (tileReads (s.setCursor x y)) = false ↔ TileAnswers s .read x y := by
  obtain ⟨ex, ey⟩ := setCursor_toNat s hx hy
  have h := readsFault_tileReads_iff (s.setCursor x y)
  rwa [ex, ey, (setCursor_frame s x y).tileAnswers] at h

theorem readsFault_blockReads_setCursor {f : Format} {s : State} {x y : Nat} (hx : x < gx s) (hy : y < gy s) :
    readsFault s.platform (blockReads f (s.setCursor x y)) = false ↔ BlockAnswers f s .read x y := by
  obtain ⟨ex, ey⟩ := setCursor_toNat s hx hy
  have h := readsFault_blockReads_iff f (s.setCursor x y)
  rwa [ex, ey, (setCursor_frame s x y).blockAnswers] at h

/-! ### An image command that ends -/

@[simp] theorem writesUntilFault_compressOf (f : Format) (s : State) :
    writesUntilFault (compressOf f) s = untilFault s.platform (compressWrites f s) := by cases f <;> rfl

@[simp] theorem writesUntilFault_decompressOf (f : Format) (s : State) :
    writesUntilFault (decompressOf f) s = untilFault s.platform (decompressWrites f s) := by cases f <;> rfl

/-- A command stopped by a bus error: code 7, and memory holds the writes before its first faulting access (R222). -/
theorem Launches.stops {i : Instr} {s : State} (h : Launches i s) (hstop : ¬ (bodyOf i s).Completes) :
    ∃ t, exec i s = .next t ∧ t.errcode = 7#4 ∧ t.mem = s.mem.writeAll (writesUntilFault i s) := by
  obtain ⟨u, hu⟩ := BodyResult.exists_busError hstop
  refine ⟨_, h.exec_busError hu, rfl, ?_⟩
  rw [← bodyOf_mem i s h.checks, hu]
  rfl

theorem storeBytes_draws (cells : List Host.Cell) (s : State) : (storeBytes cells s).state.draws = s.draws := by
  rw [storeBytes_registers cells s]

/-- Only the end of a command draws free values: COMPRESS draws none in its body. -/
theorem compress_draws (f : Format) (s : State) : (compress f s).state.draws = s.draws := by
  refine forBlocks_invariant (P := fun t => t.draws = s.draws) s.blocks (fun x y _ t ht => ?_) s rfl
  refine andThen_invariant (P := fun u => u.draws = s.draws) ?_ fun u hu => (storeBytes_draws _ _).trans ?_
  · rcases loadTile_cases (t.setCursor x y) with ⟨-, h⟩ | ⟨-, h⟩ <;> rw [h] <;> exact ht
  · cases f <;> exact hu

/-- DECOMPRESS draws no free value in its body. -/
theorem decompress_draws (f : Format) (s : State) : (decompress f s).state.draws = s.draws := by
  refine andThen_invariant (P := fun t => t.draws = s.draws) (storeBytes_draws _ s) fun c hc => ?_
  refine forBlocks_invariant (P := fun t => t.draws = s.draws) s.blocks (fun x y _ t ht => ?_) c hc
  refine andThen_invariant (P := fun u => u.draws = s.draws) ?_ fun u hu => (storeBytes_draws _ _).trans ?_
  · rcases getBlock_cases f (t.setCursor x y) with ⟨-, h⟩ | ⟨-, h⟩ <;> rw [h]
    · exact ht
    · cases f <;> exact ht
  · cases f <;> exact hu

/-- COMPRESS stores to the compressed buffer only, however it ends (R50). -/
theorem exec_compressOf_read_other {f : Format} {s t : State} (h : exec (compressOf f) s = .next t) {a : Nat}
    (ha : ¬ InCmp s a) : t.mem.read a = s.mem.read a := by
  obtain ⟨⟨-, hread, -⟩, -⟩ := exec_within _ s t h
  refine hread a ?_
  rintro (⟨hraw, -⟩ | ⟨-, hin⟩)
  · cases f <;> simp [StoresRaw, compressOf] at hraw
  · exact ha hin

/-- DECOMPRESS stores to the raw buffer only, however it ends (R50). -/
theorem exec_decompressOf_read_other {f : Format} {s t : State} (h : exec (decompressOf f) s = .next t) {a : Nat}
    (ha : ¬ InRaw s a) : t.mem.read a = s.mem.read a := by
  obtain ⟨⟨-, hread, -⟩, -⟩ := exec_within _ s t h
  refine hread a ?_
  rintro (⟨-, hin⟩ | ⟨hcmp, -⟩)
  · exact ha hin
  · cases f <;> simp [StoresCmp, decompressOf] at hcmp

/-- A state that is ready for an image command and has an empty grid has an empty image (R180, R194). -/
theorem emptyImage_of_ready {f : Format} {s : State} (h : ImageReady f s) (hgrid : gx s * gy s = 0) : EmptyImage s := by
  obtain ⟨⟨hdim, hraw, -⟩, ⟨-, hcmp, -⟩, -⟩ := h
  have hpix : s.width.toNat = 0 ∨ s.height.toNat = 0 := by
    unfold gx gy at hgrid
    rcases Nat.mul_eq_zero.mp hgrid with h | h <;> omega
  refine ⟨hdim, hpix.imp BitVec.eq_of_toNat_eq BitVec.eq_of_toNat_eq, BitVec.eq_of_toNat_eq ?_,
    BitVec.eq_of_toNat_eq ?_⟩
  · rw [not_not.mp hraw]
    rcases hpix with h | h <;> simp [h]
  · rw [not_not.mp hcmp, hgrid, Nat.zero_mul]
    rfl

theorem exec_compressOf_empty {f : Format} {s : State} (h : EmptyImage s) :
    exec (compressOf f) s = .next { s with errcode := 0#4 } :=
  (emptyImageCommands s h.dim h.noPixel h.rawLen h.cmpLen).1 _ (by cases f <;> simp [compressOf])

theorem exec_decompressOf_empty {f : Format} {s : State} (h : EmptyImage s) :
    exec (decompressOf f) s = .next { s with errcode := 0#4 } :=
  (emptyImageCommands s h.dim h.noPixel h.rawLen h.cmpLen).1 _ (by cases f <;> simp [decompressOf])

/-! ### The bytes COMPRESS writes -/

/-- The tile of block `(x, y)`, as LOAD_TILE leaves it in PIX (R184). -/
def tileOf (s : State) (x y : Nat) : Vector Pixel 16 := (loadedTile (s.setCursor x y)).pix

theorem isTile_tileOf {s : State} {x y : Nat} (hx : x < gx s) (hy : y < gy s) : IsTile s x y (tileOf s x y) := by
  obtain ⟨ex, ey⟩ := setCursor_toNat s hx hy
  have h := loadedTile_spec (s.setCursor x y)
  rwa [ex, ey] at h

/-- A tile is the same in every state with the frame and the raw bytes (R182, R184). -/
theorem SameFrame.isTile {s t : State} (h : SameFrame s t) (hr : ¬ RawSizeFails s)
    (hm : ∀ a, InRaw s a → t.mem.read a = s.mem.read a) {x y : Nat} {p : Vector Pixel 16} (ht : IsTile t x y p) :
    IsTile s x y p := by
  intro k hk
  obtain ⟨hpixel, hpad⟩ := ht k hk
  rw [h.inImage] at hpixel hpad
  refine ⟨fun hin c hc => ?_, hpad⟩
  rw [hpixel hin c hc, h.pixelByte, hm _ (pixelByte_inRaw hr hin hc)]

/-- Byte `j` of the encoding of the tile of block `(x, y)` (R189). -/
def encodedByte (f : Format) (s : State) (x y j : Nat) : Byte :=
  blockImage f (alphaEncode (tileOf s x y)) (colourEncode (tileOf s x y)) j

theorem compressedBlockWrites_eq {f : Format} {s : State} {x y : Nat} (hx : x < gx s) (hy : y < gy s) :
    compressedBlockWrites f s (x, y) =
      (List.range (stride f)).map fun j => (blockByte f s x y j, encodedByte f s x y j) := by
  obtain ⟨ex, ey⟩ := setCursor_toNat s hx hy
  have hframe : SameFrame s (encodeBlock f (loadedTile (s.setCursor x y))) :=
    ((setCursor_frame s x y).trans (loadedTile_frame _)).trans (encodeBlock_frame f _)
  obtain ⟨cx, cy⟩ := encodeBlock_cursor f (loadedTile (s.setCursor x y))
  rw [compressedBlockWrites, blockWrites_eq, cx, cy, loadedTile_blkX, loadedTile_blkY, ex, ey]
  simp only [hframe.blockByte]
  cases f <;> rfl

/-- A byte of a block: the block's column and row, and the number of the byte. -/
abbrev StreamByte := (Nat × Nat) × Nat

/-- The block lies in the grid and the byte in its stride. -/
def InStream (f : Format) (s : State) (b : StreamByte) : Prop := b.1.1 < gx s ∧ b.1.2 < gy s ∧ b.2 < stride f

/-- The write COMPRESS makes for a byte of a block. -/
def encodedCell (f : Format) (s : State) (b : StreamByte) : Host.Cell :=
  (blockByte f s b.1.1 b.1.2 b.2, encodedByte f s b.1.1 b.1.2 b.2)

/-- The bytes COMPRESS writes, in order (R186, R189). -/
def streamBytes (f : Format) (s : State) : List StreamByte := blocksRead tileReads s ×ˢ List.range (stride f)

theorem mem_streamBytes {f : Format} {s : State} {b : StreamByte} :
    b ∈ streamBytes f s ↔ b.1 ∈ blocksRead tileReads s ∧ b.2 < stride f := by
  obtain ⟨c, j⟩ := b
  simp [streamBytes]

theorem inStream_of_mem {f : Format} {s : State} {b : StreamByte} (h : b ∈ streamBytes f s) : InStream f s b := by
  obtain ⟨hc, hj⟩ := mem_streamBytes.mp h
  obtain ⟨hx, hy⟩ := (mem_blocks s b.1.1 b.1.2).mp (mem_blocksRead hc)
  exact ⟨hx, hy, hj⟩

theorem compressWrites_eq_map (f : Format) (s : State) :
    compressWrites f s = (streamBytes f s).map (encodedCell f s) := by
  have hproduct : streamBytes f s =
      (blocksRead tileReads s).flatMap fun c => (List.range (stride f)).map fun j => (c, j) := rfl
  rw [hproduct, compressWrites, List.map_flatMap]
  refine List.flatMap_congr fun ⟨x, y⟩ hxy => ?_
  obtain ⟨hx, hy⟩ := (mem_blocks s x y).mp (mem_blocksRead hxy)
  rw [compressedBlockWrites_eq hx hy, List.map_map]
  rfl

theorem streamBytes_pairwise (f : Format) (s : State) :
    (streamBytes f s).Pairwise fun b d => ByteBefore b.1.1 b.1.2 b.2 d.1.1 d.1.2 d.2 := by
  have hblocks := (blocks_pairwise s).sublist (List.takeWhile_sublist
    fun c => !readsFault s.platform (tileReads (s.setCursor c.1 c.2)))
  refine List.pairwise_flatMap.mpr ⟨fun c _ => ?_, hblocks.imp fun hbefore b hb d hd => ?_⟩
  · exact List.pairwise_map.mpr (List.pairwise_lt_range.imp fun h => .inr ⟨rfl, rfl, h⟩)
  · obtain ⟨j, -, rfl⟩ := List.mem_map.mp hb
    obtain ⟨j', -, rfl⟩ := List.mem_map.mp hd
    exact .inl hbefore

/-- What the writes of some bytes of the stream leave in memory: those bytes hold the encoding of their tiles, and every
other address reads as before. -/
theorem read_writeAll_encoded {f : Format} {s : State} {cells : List Host.Cell} {B : StreamByte → Prop}
    (hw : s.mem.wf = true) (hc : CmpReady f s)
    (hcells : ∀ d, d ∈ cells ↔ ∃ b, (InStream f s b ∧ B b) ∧ d = encodedCell f s b) :
    (∀ x y j, x < gx s → y < gy s → j < stride f → B ((x, y), j) →
        (s.mem.writeAll cells).read (blockByte f s x y j) = encodedByte f s x y j) ∧
      ∀ a, (∀ x y j, x < gx s → y < gy s → j < stride f → B ((x, y), j) → a ≠ blockByte f s x y j) →
        (s.mem.writeAll cells).read a = s.mem.read a := by
  obtain ⟨hheld, hother⟩ := Memory.read_writeAll_places hw hcells
    (fun b ⟨⟨hx, hy, hj⟩, _⟩ => inCmp_lt hc (blockByte_inCmp (cmpSize_passes hc) hx hy hj))
    fun ⟨⟨x, y⟩, j⟩ ⟨⟨x', y'⟩, j'⟩ ⟨⟨hx, _, hj⟩, _⟩ ⟨⟨hx', _, hj'⟩, _⟩ he => by
      obtain ⟨rfl, rfl, rfl⟩ := blockByte_inj hx hx' hj hj' he
      rfl
  exact ⟨fun x y j hx hy hj hB => hheld ((x, y), j) ⟨⟨hx, hy, hj⟩, hB⟩,
    fun a ha => hother a fun ⟨⟨x, y⟩, j⟩ ⟨⟨hx, hy, hj⟩, hB⟩ => ha x y j hx hy hj hB⟩

/-! ### COMPRESS -/

/-- One block of COMPRESS that completes leaves its cursor, its tile and the encodings of the tile in the registers
(R189). -/
theorem compressBlock_done {f : Format} {x y : Nat} {t u : State} (h : compressBlock f x y t = .done u) :
    u.blkX = (t.setCursor x y).blkX ∧ u.blkY = (t.setCursor x y).blkY ∧ u.pix = tileOf t x y ∧
      u.cblk = colourEncode u.pix ∧ (f = .bc3 → u.ablk = alphaEncode u.pix) := by
  unfold compressBlock at h
  rcases loadTile_cases (t.setCursor x y) with ⟨-, hl⟩ | ⟨-, hl⟩
  · rw [hl] at h
    cases h
  · rw [hl] at h
    have hreg := storeBytes_registers (blockWrites f (encodeBlock f (loadedTile (t.setCursor x y))))
      (encodeBlock f (loadedTile (t.setCursor x y)))
    change storeBytes _ _ = _ at h
    rw [h] at hreg
    change u = _ at hreg
    rw [hreg]
    cases f with
    | bc1 => exact ⟨rfl, rfl, rfl, rfl, nofun⟩
    | bc3 => exact ⟨rfl, rfl, rfl, rfl, fun _ => rfl⟩

/-- COMPRESS that completes on a grid that is not empty leaves the values of the last block in the registers (R189). -/
theorem compress_done_last {f : Format} {s u : State} (h : ImageReady f s) (hgrid : 0 < gx s * gy s)
    (hu : compress f s = .done u) :
    u.blkX.toNat = gx s - 1 ∧ u.blkY.toNat = gy s - 1 ∧ IsTile s (gx s - 1) (gy s - 1) u.pix ∧
      IsColourEncoding u.pix u.cblk ∧ (f = .bc3 → IsAlphaEncoding u.pix u.ablk) := by
  obtain ⟨⟨-, hraw, -⟩, ⟨-, hcmp, -⟩, hoverlap, -⟩ := h
  obtain ⟨init, hblocks⟩ := blocks_eq_append_last hgrid
  have hx : gx s - 1 < gx s := Nat.sub_lt (Nat.pos_of_mul_pos_right hgrid) Nat.one_pos
  have hy : gy s - 1 < gy s := Nat.sub_lt (Nat.pos_of_mul_pos_left hgrid) Nat.one_pos
  rw [compress, hblocks] at hu
  obtain ⟨t, ht, hlast⟩ := forBlocks_done_last (P := Within (InCmp s) s)
    (fun x y hxy => compressBlock_keeps_within hcmp x y (by simp [hblocks, hxy])) (.refl _ s) hu
  have hx' : gx s - 1 < gx t := by rwa [ht.frame.gx]
  have hy' : gy s - 1 < gy t := by rwa [ht.frame.gy]
  obtain ⟨ex, ey⟩ := setCursor_toNat t hx' hy'
  obtain ⟨hcx, hcy, hpix, hcblk, hablk⟩ := compressBlock_done hlast
  have htile := isTile_tileOf hx' hy'
  refine ⟨hcx ▸ ex, hcy ▸ ey, ?_, ?_, fun hf => ?_⟩
  · rw [hpix]
    exact ht.frame.isTile hraw (fun a ha => ht.read a fun hin => hoverlap ⟨a, ha, hin⟩) htile
  · rw [hcblk]
    exact colourEncode_spec u.pix
  · rw [hablk hf]
    exact alphaEncode_spec u.pix

/-- COMPRESS that completes has written the encoding of every tile of the grid (R189). -/
theorem read_compress_done {f : Format} {s u : State} (hw : s.mem.wf = true) (h : ImageReady f s)
    (hu : compress f s = .done u) {x y j : Nat} (hx : x < gx s) (hy : y < gy s) (hj : j < stride f) :
    u.mem.read (blockByte f s x y j) = encodedByte f s x y j := by
  obtain ⟨hread, hwrite⟩ := (compress_completes_iff h).mp ⟨u, hu⟩
  obtain ⟨hr, hc, ho, -⟩ := h
  have hblocks : blocksRead tileReads s = s.blocks := blocksRead_eq_blocks fun x y hxy => by
    obtain ⟨hx, hy⟩ := (mem_blocks s x y).mp hxy
    exact (readsFault_tileReads_setCursor hx hy).mpr ((forall_tileAnswers_iff hr .read).mpr hread x y hx hy)
  have hcells : ∀ d, d ∈ compressWrites f s ↔ ∃ b, (InStream f s b ∧ True) ∧ d = encodedCell f s b := fun d => by
    rw [compressWrites_eq_map, List.mem_map]
    refine exists_congr fun b => and_congr ?_ eq_comm
    rw [mem_streamBytes, hblocks, mem_blocks, InStream, and_true, and_assoc]
  have hmem := compress_mem f s (rawSize_passes hr) (cmpSize_passes hc) ho
  rw [untilFault_eq_self fun d hd => hwrite _ (compressWrites_inCmp f s (cmpSize_passes hc) d hd), hu] at hmem
  obtain ⟨hheld, -⟩ := read_writeAll_encoded hw hc hcells
  exact (congrArg (Memory.read · _) hmem).trans (hheld x y j hx hy hj trivial)

/-- Settles O45: no access faults, so every byte of the stream is written (`read_compress_done`), and the registers are
those of the last block (`compress_done_last`). -/
theorem compressEncodesEveryBlock : Obligations.CompressEncodesEveryBlock := by
  unfold Obligations.CompressEncodesEveryBlock
  intro f s hw h hread hwrite
  obtain ⟨u, hu⟩ := (compress_completes_iff h).mpr ⟨hread, hwrite⟩
  have hexec := (launches_compressOf_iff.mpr h).exec_done ((congrFun (bodyOf_compressOf f) s).trans hu)
  have hdraws : u.draws = s.draws := by
    have hbody := compress_draws f s
    rwa [hu] at hbody
  refine ⟨_, hexec, exec_eq_update_of_draws hexec hdraws rfl, fun x y hx hy => ?_, fun a ha => ?_, fun hgrid => ?_,
    fun hgrid => ?_, fun hf => ?_⟩
  · exact ⟨tileOf s x y, _, _, isTile_tileOf hx hy, colourEncode_spec _, fun _ => alphaEncode_spec _,
      fun j hj => read_compress_done hw h hu hx hy hj⟩
  · exact exec_compressOf_read_other hexec ha
  · have hempty := exec_compressOf_empty (f := f) (emptyImage_of_ready h hgrid)
    rw [hexec] at hempty
    exact Host.Outcome.next.inj hempty
  · have hlast := compress_done_last h hgrid hu
    exact hlast
  · exact (exec_keepsUntouched hexec).ablk (hf ▸ rfl)

/-! ### COMPRESS stopped -/

/-- The writes COMPRESS makes when its first faulting access is a read of the tile of `(x, y)`: those of the blocks before
it (R189, R222). -/
theorem mem_untilFault_compressWrites_of_read_fault {f : Format} {s : State} {x y : Nat} (hx : x < gx s) (hy : y < gy s)
    (hbefore : ∀ x' y', x' < gx s → y' < gy s → BlockBefore x' y' x y →
      TileAnswers s .read x' y' ∧ BlockAnswers f s .write x' y')
    (hfault : ¬ TileAnswers s .read x y) (d : Host.Cell) :
    d ∈ untilFault s.platform (compressWrites f s) ↔
      ∃ b, (InStream f s b ∧ BlockBefore b.1.1 b.1.2 x y) ∧ d = encodedCell f s b := by
  rw [← readsFault_tileReads_setCursor hx hy, Bool.not_eq_false] at hfault
  have hread := mem_blocksRead_iff_before ((mem_blocks s x y).mpr ⟨hx, hy⟩) hfault fun x' y' hb hlt => by
    obtain ⟨hx', hy'⟩ := (mem_blocks s x' y').mp hb
    exact (readsFault_tileReads_setCursor hx' hy').mpr (hbefore x' y' hx' hy' hlt).1
  have hbytes : ∀ b, b ∈ streamBytes f s ↔ InStream f s b ∧ BlockBefore b.1.1 b.1.2 x y := fun b => by
    rw [mem_streamBytes, hread, mem_blocks, InStream]
    tauto
  rw [compressWrites_eq_map, untilFault_eq_self fun d hd => ?_, List.mem_map]
  · exact exists_congr fun b => and_congr (hbytes b) eq_comm
  · obtain ⟨b, hb, rfl⟩ := List.mem_map.mp hd
    obtain ⟨⟨hbx, hby, hj⟩, hlt⟩ := (hbytes b).mp hb
    exact (hbefore _ _ hbx hby hlt).2 _ hj

/-- The writes COMPRESS makes when its first faulting access is the write of byte `n` of block `(x, y)`: those of the
bytes before it (R186, R189, R222). -/
theorem mem_untilFault_compressWrites_of_write_fault {f : Format} {s : State} {x y n : Nat} (hx : x < gx s)
    (hy : y < gy s)
    (hbefore : ∀ x' y', x' < gx s → y' < gy s → BlockBefore x' y' x y →
      TileAnswers s .read x' y' ∧ BlockAnswers f s .write x' y')
    (htile : TileAnswers s .read x y) (hn : n < stride f)
    (hfault : s.platform.busFault (blockByte f s x y n) .write = true)
    (hanswer : ∀ j, j < n → s.platform.busFault (blockByte f s x y j) .write = false) (d : Host.Cell) :
    d ∈ untilFault s.platform (compressWrites f s) ↔
      ∃ b, (InStream f s b ∧ ByteBefore b.1.1 b.1.2 b.2 x y n) ∧ d = encodedCell f s b := by
  have htiles : ∀ x' y', (x', y') ∈ s.blocks → ((x', y') = (x, y) ∨ BlockBefore x' y' x y) →
      readsFault s.platform (tileReads (s.setCursor x' y')) = false := fun x' y' hb hxy => by
    obtain ⟨hx', hy'⟩ := (mem_blocks s x' y').mp hb
    refine (readsFault_tileReads_setCursor hx' hy').mpr ?_
    rcases hxy with he | hlt
    · cases he
      exact htile
    · exact (hbefore x' y' hx' hy' hlt).1
  have hread : ∀ x' y', (x', y') ∈ s.blocks → ((x', y') = (x, y) ∨ BlockBefore x' y' x y) →
      (x', y') ∈ blocksRead tileReads s := fun x' y' hb hxy =>
    mem_blocksRead_of_before hb fun x'' y'' hb' hxy' => htiles x'' y'' hb' <| by
      rcases hxy' with he | hlt'
      · cases he
        exact hxy
      · rcases hxy with he | hlt
        · cases he
          exact .inr hlt'
        · exact .inr (blockBefore_trans hlt' hlt)
  rw [compressWrites_eq_map, mem_untilFault_iff (i := ((x, y), n)) (streamBytes_pairwise f s)
    (fun _ _ => byteBefore_asymm)
    (mem_streamBytes.mpr ⟨hread x y ((mem_blocks s x y).mpr ⟨hx, hy⟩) (.inl rfl), hn⟩) hfault fun b hb hlt => ?_]
  · refine exists_congr fun b => and_congr_left fun _ => and_congr_left fun hlt => ⟨inStream_of_mem, ?_⟩
    rintro ⟨hbx, hby, hj⟩
    refine mem_streamBytes.mpr ⟨hread _ _ ((mem_blocks s _ _).mpr ⟨hbx, hby⟩) ?_, hj⟩
    rcases hlt with hlt | ⟨hbx, hby, -⟩
    · exact .inr hlt
    · exact .inl (by rw [hbx, hby])
  · obtain ⟨hbx, hby, hj⟩ := inStream_of_mem hb
    rcases hlt with hlt | ⟨hbx', hby', hj'⟩
    · exact (hbefore _ _ hbx hby hlt).2 _ hj
    · simp only [encodedCell, hbx', hby']
      exact hanswer _ hj'

/-- Settles O53: memory holds the writes before the first faulting access, which are the bytes before byte `n` of block
`(x, y)`. -/
theorem faultingCompressKeepsEarlierWrites : Obligations.FaultingCompressKeepsEarlierWrites := by
  unfold Obligations.FaultingCompressKeepsEarlierWrites
  intro f s x y n hw h hx hy hbefore hstop
  obtain ⟨hr, hc, -⟩ := id h
  have hincomplete : ¬ (compress f s).Completes := by
    rw [compress_completes_iff h, ← forall_tileAnswers_iff hr, ← forall_blockAnswers_iff hc]
    rintro ⟨htiles, hblocks⟩
    rcases hstop with ⟨hfault, -⟩ | ⟨-, hn, hfault, -⟩
    · exact hfault (htiles x y hx hy)
    · rw [hblocks x y hx hy n hn] at hfault
      cases hfault
  have hmade : ∀ d, d ∈ untilFault s.platform (compressWrites f s) ↔
      ∃ b, (InStream f s b ∧ ByteBefore b.1.1 b.1.2 b.2 x y n) ∧ d = encodedCell f s b := by
    rcases hstop with ⟨hfault, rfl⟩ | ⟨htile, hn, hfault, hanswer⟩
    · simpa only [byteBefore_zero_iff] using mem_untilFault_compressWrites_of_read_fault hx hy hbefore hfault
    · exact mem_untilFault_compressWrites_of_write_fault hx hy hbefore htile hn hfault hanswer
  obtain ⟨t, ht, hcode, hmem⟩ := (launches_compressOf_iff.mpr h).stops (by rwa [bodyOf_compressOf])
  rw [writesUntilFault_compressOf] at hmem
  obtain ⟨hheld, hother⟩ := read_writeAll_encoded hw hc hmade
  rw [← hmem] at hheld hother
  exact ⟨t, ht, exec_eq_update ht hcode, fun hf => (exec_keepsUntouched ht).ablk (hf ▸ rfl), fun x' y' hx' hy' =>
    ⟨tileOf s x' y', _, _, isTile_tileOf hx' hy', colourEncode_spec _, fun _ => alphaEncode_spec _,
      fun j hj hlt => hheld x' y' j hx' hy' hj hlt⟩, hother⟩

end Sys2Proof.Machine
end

section
/-! PROOFS. DECOMPRESS (43_tiler.md R190): the pixels that hold the decoding of their block, what the last block leaves in
the registers, and two runs on the same stream (R195): the statements O46, O48 and O54. -/

namespace Sys2Proof.Machine

open Sys2Proof.Spec

/-! ### The pixels DECOMPRESS writes -/

/-- The decoders of a block leave the sub-block registers. -/
theorem decodeBlock_subBlocks (f : Format) (s : State) :
    (decodeBlock f s).ablk = s.ablk ∧ (decodeBlock f s).cblk = s.cblk := by cases f <;> exact ⟨rfl, rfl⟩

/-- Sub-block registers that hold block `(x, y)` decode to its pixels (R129, R154, R158, R190). -/
theorem isDecodedPixel_decodeBlock {f : Format} {s t : State} {x y : Nat}
    (h : ∀ j, j < stride f → blockImage f t.ablk t.cblk j = s.mem.read (blockByte f s x y j)) {k : Nat} (hk : k < 16) :
    IsDecodedPixel f s x y k (pixAt (decodeBlock f t).pix k) := by
  cases f with
  | bc1 => exact ⟨t.cblk, h, colourDecode_spec t.cblk k hk⟩
  | bc3 =>
    refine ⟨t.ablk, t.cblk, fun j hj => ?_, fun j hj => ?_, fun c hc => ?_, ?_⟩
    · have hj16 : j < 16 := by omega
      have hbyte := h j hj16
      rw [blockImage, if_pos hj] at hbyte
      exact hbyte
    · have hj16 : 8 + j < 16 := by omega
      have hbyte := h (8 + j) hj16
      rw [blockImage, if_neg (by omega), Nat.add_sub_cancel_left] at hbyte
      rw [hbyte]
      simp only [blockByte, Nat.add_assoc]
    · exact (congrArg BitVec.toNat (channel_overrideAlpha _ _ hk hc)).trans (colourDecode_spec t.cblk k hk c (by omega))
    · exact overrideAlpha_alphaDecode_a _ t.ablk hk

/-- Entry `k` of the decoding of block `(x, y)` (R190). -/
def decodedPixel (f : Format) (s : State) (x y k : Nat) : Pixel :=
  pixAt (decodeBlock f (gottenBlock f (s.setCursor x y))).pix k

theorem isDecodedPixel_decodedPixel {f : Format} {s : State} {x y k : Nat} (hx : x < gx s) (hy : y < gy s)
    (hk : k < 16) : IsDecodedPixel f s x y k (decodedPixel f s x y k) := by
  obtain ⟨ex, ey⟩ := setCursor_toNat s hx hy
  refine isDecodedPixel_decodeBlock (fun j hj => ?_) hk
  have h := gottenBlock_spec f (s.setCursor x y) j hj
  rwa [ex, ey] at h

/-- The writes of DECOMPRESS for a block are the decoded channels of its entries in bounds (R185, R190). -/
theorem mem_decompressedTileWrites {f : Format} {s : State} {x y : Nat} (hx : x < gx s) (hy : y < gy s) (d : Host.Cell) :
    d ∈ decompressedTileWrites f s (x, y) ↔ ∃ k c, k < 16 ∧ c < 4 ∧ InImage s x y k ∧
      d = (pixelByte s x y k c, channel (decodedPixel f s x y k) c) := by
  obtain ⟨ex, ey⟩ := setCursor_toNat s hx hy
  have hframe : SameFrame s (decodeBlock f (gottenBlock f (s.setCursor x y))) :=
    ((setCursor_frame s x y).trans (gottenBlock_frame f _)).trans (decodeBlock_frame f _)
  obtain ⟨cx, cy⟩ := decodeBlock_cursor f (gottenBlock f (s.setCursor x y))
  obtain ⟨cx', cy'⟩ := gottenBlock_cursor f (s.setCursor x y)
  rw [decompressedTileWrites, mem_tileWrites, cx, cy, cx', cy', ex, ey]
  simp only [hframe.pixelByte, hframe.inImage, decodedPixel]

/-- A channel of an entry of a block: the block's column and row, the entry and the channel. -/
abbrev ImageByte := (Nat × Nat) × Nat × Nat

/-- The entry is one of the sixteen, in bounds, and the channel one of the four. -/
def InTile (s : State) (b : ImageByte) : Prop := b.2.1 < 16 ∧ b.2.2 < 4 ∧ InImage s b.1.1 b.1.2 b.2.1

/-- What DECOMPRESS leaves in memory when its clear meets no fault and it stores the tiles of some blocks of the grid:
their pixels hold their decodings, and every other raw byte is 0. -/
theorem read_writeAll_decoded {f : Format} {s : State} {l : List (Nat × Nat)} (hw : s.mem.wf = true) (hr : RawReady s)
    (hl : ∀ c, c ∈ l → c ∈ s.blocks) :
    let m := s.mem.writeAll (clearWrites s ++ l.flatMap (decompressedTileWrites f s))
    (∀ x y k c, (x, y) ∈ l → k < 16 → c < 4 → InImage s x y k →
        m.read (pixelByte s x y k c) = channel (decodedPixel f s x y k) c) ∧
      ∀ a, InRaw s a → (∀ x y k c, (x, y) ∈ l → k < 16 → c < 4 → InImage s x y k → a ≠ pixelByte s x y k c) →
        m.read a = 0#8 := by
  intro m
  have hcells : ∀ d, d ∈ l.flatMap (decompressedTileWrites f s) ↔ ∃ b : ImageByte, (b.1 ∈ l ∧ InTile s b) ∧
      d = (pixelByte s b.1.1 b.1.2 b.2.1 b.2.2, channel (decodedPixel f s b.1.1 b.1.2 b.2.1) b.2.2) := by
    intro d
    rw [List.mem_flatMap]
    constructor
    · rintro ⟨⟨x, y⟩, hxy, hd⟩
      obtain ⟨hx, hy⟩ := (mem_blocks s x y).mp (hl _ hxy)
      obtain ⟨k, c, hk, hc, hin, rfl⟩ := (mem_decompressedTileWrites hx hy d).mp hd
      exact ⟨((x, y), k, c), ⟨hxy, hk, hc, hin⟩, rfl⟩
    · rintro ⟨⟨⟨x, y⟩, k, c⟩, ⟨hxy, hk, hc, hin⟩, rfl⟩
      obtain ⟨hx, hy⟩ := (mem_blocks s x y).mp (hl _ hxy)
      exact ⟨(x, y), hxy, (mem_decompressedTileWrites hx hy _).mpr ⟨k, c, hk, hc, hin, rfl⟩⟩
  obtain ⟨hheld, hother⟩ := Memory.read_writeAll_places (Memory.wf_writeAll _ _ hw (clearWrites_lt hr)) hcells
    (fun b ⟨_, _, hc, hin⟩ => inRaw_lt hr (pixelByte_inRaw (rawSize_passes hr) hin hc))
    fun ⟨⟨x, y⟩, k, c⟩ ⟨⟨x', y'⟩, k', c'⟩ ⟨_, hk, hc, hin⟩ ⟨_, hk', hc', hin'⟩ he => by
      obtain ⟨rfl, rfl, rfl, rfl⟩ := pixelByte_inj hin hin' hk hk' hc hc' he
      rfl
  rw [← Memory.writeAll_append] at hheld hother
  refine ⟨fun x y k c hxy hk hc hin => hheld ((x, y), k, c) ⟨hxy, hk, hc, hin⟩, fun a ha hne => ?_⟩
  rw [hother a fun ⟨⟨x, y⟩, k, c⟩ ⟨hxy, hk, hc, hin⟩ => hne x y k c hxy hk hc hin]
  exact Memory.read_writeAll_mem _ _ _ _ hw (clearWrites_lt hr) ((mem_clearWrites s _).mpr ⟨ha, rfl⟩)
    fun d hd _ => ((mem_clearWrites s d).mp hd).2

/-! ### DECOMPRESS -/

/-- One block of DECOMPRESS that completes leaves its cursor, the block it read and the decoding of it in the registers
(R190). -/
theorem decompressBlock_done {f : Format} {x y : Nat} {t u : State} (h : decompressBlock f x y t = .done u) :
    u.blkX = (t.setCursor x y).blkX ∧ u.blkY = (t.setCursor x y).blkY ∧
      u.ablk = (gottenBlock f (t.setCursor x y)).ablk ∧ u.cblk = (gottenBlock f (t.setCursor x y)).cblk ∧
      u.pix = (decodeBlock f u).pix := by
  unfold decompressBlock at h
  rcases getBlock_cases f (t.setCursor x y) with ⟨-, hl⟩ | ⟨-, hl⟩
  · rw [hl] at h
    cases h
  · rw [hl] at h
    have hreg := storeBytes_registers (tileWrites (decodeBlock f (gottenBlock f (t.setCursor x y))))
      (decodeBlock f (gottenBlock f (t.setCursor x y)))
    change storeBytes _ _ = _ at h
    rw [h] at hreg
    change u = _ at hreg
    rw [hreg]
    cases f <;> exact ⟨rfl, rfl, rfl, rfl, rfl⟩

/-- DECOMPRESS that completes on a grid that is not empty leaves the values of the last block in the registers (R190). -/
theorem decompress_done_last {f : Format} {s u : State} (h : ImageReady f s) (hgrid : 0 < gx s * gy s)
    (hu : decompress f s = .done u) :
    u.blkX.toNat = gx s - 1 ∧ u.blkY.toNat = gy s - 1 ∧
      (∀ k, k < 16 → IsDecodedPixel f s (gx s - 1) (gy s - 1) k (pixAt u.pix k)) ∧
      ∀ j, j < stride f → blockImage f u.ablk u.cblk j = s.mem.read (blockByte f s (gx s - 1) (gy s - 1) j) := by
  obtain ⟨⟨-, hraw, -⟩, ⟨-, hcmp, -⟩, hoverlap, -⟩ := h
  obtain ⟨init, hblocks⟩ := blocks_eq_append_last hgrid
  have hx : gx s - 1 < gx s := Nat.sub_lt (Nat.pos_of_mul_pos_right hgrid) Nat.one_pos
  have hy : gy s - 1 < gy s := Nat.sub_lt (Nat.pos_of_mul_pos_left hgrid) Nat.one_pos
  obtain ⟨v, hclear, hloop⟩ := BodyResult.andThen_eq_done hu
  rw [hblocks] at hloop
  have hwithin := clearRaw_within s
  rw [hclear] at hwithin
  obtain ⟨t, ht, hlast⟩ := forBlocks_done_last (P := Within (InRaw s) s)
    (fun x y _ => decompressBlock_keeps_within hraw x y) hwithin hloop
  have hx' : gx s - 1 < gx t := by rwa [ht.frame.gx]
  have hy' : gy s - 1 < gy t := by rwa [ht.frame.gy]
  obtain ⟨ex, ey⟩ := setCursor_toNat t hx' hy'
  obtain ⟨hcx, hcy, hablk, hcblk, hpix⟩ := decompressBlock_done hlast
  have hbytes : ∀ j, j < stride f →
      blockImage f u.ablk u.cblk j = s.mem.read (blockByte f s (gx s - 1) (gy s - 1) j) := fun j hj => by
    have hread := gottenBlock_spec f (t.setCursor (gx s - 1) (gy s - 1)) j hj
    rw [ex, ey, ← hablk, ← hcblk, (ht.frame.trans (setCursor_frame t _ _)).blockByte] at hread
    exact hread.trans (ht.read _ fun hin => hoverlap ⟨_, hin, blockByte_inCmp hcmp hx hy hj⟩)
  refine ⟨hcx ▸ ex, hcy ▸ ey, fun k hk => ?_, hbytes⟩
  rw [hpix]
  exact isDecodedPixel_decodeBlock hbytes hk

/-- With no faulting write in the raw buffer DECOMPRESS makes all its writes up to its first faulting read. -/
theorem untilFault_decompressWrites {f : Format} {s : State} (hr : RawReady s)
    (hwrite : ∀ a, InRaw s a → s.platform.busFault a .write = false) :
    untilFault s.platform (decompressWrites f s) =
      clearWrites s ++ (blocksRead (blockReads f) s).flatMap (decompressedTileWrites f s) :=
  untilFault_eq_self fun d hd => hwrite _ (decompressWrites_inRaw f s (rawSize_passes hr) d hd)

/-- DECOMPRESS that completes has written the decoding of every pixel of the image (R190). -/
theorem read_decompress_done {f : Format} {s u : State} (hw : s.mem.wf = true) (h : ImageReady f s)
    (hu : decompress f s = .done u) {x y k c : Nat} (hx : x < gx s) (hy : y < gy s) (hk : k < 16) (hc : c < 4)
    (hin : InImage s x y k) : u.mem.read (pixelByte s x y k c) = channel (decodedPixel f s x y k) c := by
  obtain ⟨hwrite, hread⟩ := (decompress_completes_iff h).mp ⟨u, hu⟩
  obtain ⟨hr, hcmp, ho, -⟩ := h
  have hblocks : blocksRead (blockReads f) s = s.blocks := blocksRead_eq_blocks fun x y hxy => by
    obtain ⟨hx, hy⟩ := (mem_blocks s x y).mp hxy
    exact (readsFault_blockReads_setCursor hx hy).mpr ((forall_blockAnswers_iff hcmp .read).mpr hread x y hx hy)
  have hmem := decompress_mem f s (rawSize_passes hr) (cmpSize_passes hcmp) ho
  rw [untilFault_decompressWrites hr hwrite, hblocks, hu] at hmem
  obtain ⟨hheld, -⟩ := read_writeAll_decoded (f := f) hw hr (l := s.blocks) fun _ hb => hb
  exact (congrArg (Memory.read · _) hmem).trans (hheld x y k c ((mem_blocks s x y).mpr ⟨hx, hy⟩) hk hc hin)

/-- Settles O46: no access faults, so the tile of every block is stored (`read_decompress_done`), and the registers are
those of the last block (`decompress_done_last`). -/
theorem decompressDecodesEveryPixel : Obligations.DecompressDecodesEveryPixel := by
  unfold Obligations.DecompressDecodesEveryPixel
  intro f s hw h hwrite hread
  obtain ⟨u, hu⟩ := (decompress_completes_iff h).mpr ⟨hwrite, hread⟩
  have hexec := (launches_decompressOf_iff.mpr h).exec_done ((congrFun (bodyOf_decompressOf f) s).trans hu)
  have hdraws : u.draws = s.draws := by
    have hbody := decompress_draws f s
    rwa [hu] at hbody
  refine ⟨_, hexec, exec_eq_update_of_draws hexec hdraws rfl, fun x y k hx hy hk hin => ?_, fun a ha => ?_,
    fun hgrid => ?_, fun hgrid => ?_, fun hf => ?_⟩
  · exact ⟨_, isDecodedPixel_decodedPixel hx hy hk, fun c hc => read_decompress_done hw h hu hx hy hk hc hin⟩
  · exact exec_decompressOf_read_other hexec ha
  · have hempty := exec_decompressOf_empty (f := f) (emptyImage_of_ready h hgrid)
    rw [hexec] at hempty
    exact Host.Outcome.next.inj hempty
  · have hlast := decompress_done_last h hgrid hu
    exact hlast
  · exact (exec_keepsUntouched hexec).ablk (hf ▸ rfl)

/-! ### DECOMPRESS stopped -/

/-- DECOMPRESS stopped in its clear has made the writes of CLEAR_RAW before the first that faults (R188, R190, R222). -/
theorem untilFault_decompressWrites_of_clear_fault {f : Format} {s : State} {a : Nat} (ha : InRaw s a)
    (hfault : s.platform.busFault a .write = true) :
    untilFault s.platform (decompressWrites f s) = untilFault s.platform (clearWrites s) :=
  untilFault_append_of_fault ⟨(a, 0#8), (mem_clearWrites s _).mpr ⟨ha, rfl⟩, hfault⟩

/-- The blocks DECOMPRESS reads whole when `(x, y)` is the first with a faulting read (R190, R222). -/
theorem mem_blocksRead_of_block_fault {f : Format} {s : State} {x y : Nat} (hx : x < gx s) (hy : y < gy s)
    (hbefore : ∀ x' y', x' < gx s → y' < gy s → BlockBefore x' y' x y → BlockAnswers f s .read x' y')
    (hfault : ¬ BlockAnswers f s .read x y) (x' y' : Nat) :
    (x', y') ∈ blocksRead (blockReads f) s ↔ (x', y') ∈ s.blocks ∧ BlockBefore x' y' x y := by
  rw [← readsFault_blockReads_setCursor hx hy, Bool.not_eq_false] at hfault
  refine mem_blocksRead_iff_before ((mem_blocks s x y).mpr ⟨hx, hy⟩) hfault (fun x₁ y₁ hb hlt => ?_) (x', y')
  obtain ⟨hx₁, hy₁⟩ := (mem_blocks s x₁ y₁).mp hb
  exact (readsFault_blockReads_setCursor hx₁ hy₁).mpr (hbefore x₁ y₁ hx₁ hy₁ hlt)

/-- Settles O54: memory holds the writes before the first faulting access: a part of the clear, or all of it and the tiles
of the blocks before `(x, y)` (`read_writeAll_decoded`). -/
theorem faultingDecompressKeepsEarlierWrites : Obligations.FaultingDecompressKeepsEarlierWrites := by
  unfold Obligations.FaultingDecompressKeepsEarlierWrites
  constructor
  · intro f s n hw h hn hfault hanswer
    obtain ⟨hr, -⟩ := id h
    have hraw : InRaw s (s.rawBase.toNat + n) := ⟨Nat.le_add_right _ _, Nat.add_lt_add_left hn _⟩
    have hincomplete : ¬ (decompress f s).Completes := fun hcomplete => by
      obtain ⟨hwrite, -⟩ := (decompress_completes_iff h).mp hcomplete
      rw [hwrite _ hraw] at hfault
      cases hfault
    obtain ⟨t, ht, hcode, hmem⟩ := (launches_decompressOf_iff.mpr h).stops (by rwa [bodyOf_decompressOf])
    rw [writesUntilFault_decompressOf, untilFault_decompressWrites_of_clear_fault hraw hfault] at hmem
    have hheld := read_writeAll_cleared hw hr hn.le (mem_untilFault_clearWrites_iff hn hfault hanswer)
    rw [← hmem] at hheld
    exact ⟨t, ht, exec_eq_update ht hcode, fun hf => (exec_keepsUntouched ht).ablk (hf ▸ rfl), hheld⟩
  · intro f s x y hw h hx hy hwrite hbefore hfault
    obtain ⟨hr, hc, -⟩ := id h
    have hincomplete : ¬ (decompress f s).Completes := by
      rw [decompress_completes_iff h, ← forall_blockAnswers_iff hc]
      exact fun ⟨_, hread⟩ => hfault (hread x y hx hy)
    obtain ⟨t, ht, hcode, hmem⟩ := (launches_decompressOf_iff.mpr h).stops (by rwa [bodyOf_decompressOf])
    rw [writesUntilFault_decompressOf, untilFault_decompressWrites hr hwrite] at hmem
    have hread := mem_blocksRead_of_block_fault hx hy hbefore hfault
    obtain ⟨hheld, hzero⟩ := read_writeAll_decoded (f := f) hw hr (l := blocksRead (blockReads f) s)
      fun _ => mem_blocksRead
    rw [← hmem] at hheld hzero
    refine ⟨t, ht, exec_eq_update ht hcode, fun hf => (exec_keepsUntouched ht).ablk (hf ▸ rfl),
      fun x' y' k hx' hy' hk hin hlt => ?_, fun x' y' k c hx' hy' hk hc hin hlt => ?_,
      fun a ha => exec_decompressOf_read_other ht ha⟩
    · exact ⟨_, isDecodedPixel_decodedPixel hx' hy' hk, fun c hc =>
        hheld x' y' k c ((hread x' y').mpr ⟨(mem_blocks s x' y').mpr ⟨hx', hy'⟩, hlt⟩) hk hc hin⟩
    · refine hzero _ (pixelByte_inRaw (rawSize_passes hr) hin hc) fun x₁ y₁ k₁ c₁ hread₁ hk₁ hc₁ hin₁ he => ?_
      obtain ⟨rfl, rfl, -, -⟩ := pixelByte_inj hin hin₁ hk hk₁ hc hc₁ he
      exact hlt ((hread x' y').mp hread₁).2

/-! ### The same stream twice -/

theorem holdsBytes_unique {m m' : Memory} {a a' : Nat} {b b' : Vector Byte 8} (h : HoldsBytes m a b)
    (h' : HoldsBytes m' a' b') (hm : ∀ j, j < 8 → m'.read (a' + j) = m.read (a + j)) : b' = b :=
  vector_ext_byteAt fun j hj => by rw [h j hj, h' j hj, hm j hj]

/-- The same bytes of a block decode to the same pixel (R195). -/
theorem isDecodedPixel_unique {f : Format} {s s' : State} {x y k : Nat} {q q' : Pixel} (h : IsDecodedPixel f s x y k q)
    (h' : IsDecodedPixel f s' x y k q')
    (hm : ∀ j, j < stride f → s'.mem.read (blockByte f s' x y j) = s.mem.read (blockByte f s x y j)) : q' = q := by
  cases f with
  | bc1 =>
    obtain ⟨b, hb, hq⟩ := h
    obtain ⟨b', hb', hq'⟩ := h'
    obtain rfl := holdsBytes_unique hb hb' hm
    exact pixel_ext_channel fun c hc => BitVec.eq_of_toNat_eq ((hq' c hc).trans (hq c hc).symm)
  | bc3 =>
    obtain ⟨a, b, ha, hb, hq, halpha⟩ := h
    obtain ⟨a', b', ha', hb', hq', halpha'⟩ := h'
    obtain rfl := holdsBytes_unique ha ha' fun j hj => hm j (show j < 16 by omega)
    obtain rfl := holdsBytes_unique hb hb' fun j hj => by
      have hbyte := hm (8 + j) (show 8 + j < 16 by omega)
      simpa only [blockByte, Nat.add_assoc] using hbyte
    refine pixel_ext_channel fun c hc => BitVec.eq_of_toNat_eq ?_
    rcases Nat.lt_or_ge c 3 with hc3 | hc3
    · exact (hq' c hc3).trans (hq c hc3).symm
    · obtain rfl : c = 3 := by omega
      exact halpha'.trans halpha.symm

/-- Settles O48: both runs meet no fault, so every raw byte is a channel of a pixel decoded from the same bytes (O46,
`isDecodedPixel_unique`). -/
theorem decompressReadsNoRawByte : Obligations.DecompressReadsNoRawByte := by
  unfold Obligations.DecompressReadsNoRawByte
  intro f s s' t t' hw hw' hwidth hheight hrawBase hrawLen hcmpBase hcmpLen hplatform hm ht ht' h0
  have hready := launches_decompressOf_iff.mp (launches_of_ok ht h0)
  obtain ⟨hr, hcmp, -⟩ := id hready
  obtain ⟨u, hu, -⟩ := exec_ok_body ht h0
  rw [bodyOf_decompressOf] at hu
  obtain ⟨hwrite, hread⟩ := (decompress_completes_iff hready).mp ⟨u, hu⟩
  obtain ⟨t₁, ht₁, -, hpixels, -⟩ := decompressDecodesEveryPixel f s hw hready hwrite hread
  cases ht₁.symm.trans ht
  cases s'
  dsimp only at hwidth hheight hrawBase hrawLen hcmpBase hcmpLen hplatform
  subst hwidth hheight hrawBase hrawLen hcmpBase hcmpLen hplatform
  obtain ⟨t₁', ht₁', hcode', hpixels', -⟩ := decompressDecodesEveryPixel f _ hw' hready hwrite hread
  cases ht₁'.symm.trans ht'
  refine ⟨by rw [hcode'], fun a ha => ?_⟩
  obtain ⟨x, y, k, c, hx, hy, hk, hc, hin, rfl⟩ := exists_pixelByte hr ha
  obtain ⟨q, hq, hbytes⟩ := hpixels x y k hx hy hk hin
  obtain ⟨q', hq', hbytes'⟩ := hpixels' x y k hx hy hk hin
  obtain rfl := isDecodedPixel_unique hq hq' fun j hj => hm _ (blockByte_inCmp (cmpSize_passes hcmp) hx hy hj)
  exact (hbytes' c hc).trans (hbytes c hc).symm

end Sys2Proof.Machine
end

section
/-! PROOFS. Reset during a command after its last write (70_reset_and_hazards.md R241, 60_exceptions.md R222): what the
reset answers, case by case, and the memory it leaves: the statement O19. -/

namespace Sys2Proof.Machine

open Sys2Proof.Spec

/-! ### Reset during a command -/

/-- Reset gives every register its value of R42, from every state and whatever is answered (R240). -/
theorem registersReset_applyReset_respond (s : State) (r : Response) : RegistersReset (s.applyReset.respond r) :=
  resetRegistersAreZero

/-- A command that fails a check has written nothing when reset comes (R223, R241). -/
theorem resetDuring_of_firstFailure {w : Word} {i : Instr} {s : State} {c : ErrCode} (hw : decode w = .ok i)
    (hf : firstFailure (formatOf i) s (checksOf i) = some c) (k : Nat) :
    resetDuring w k s = .next (s.applyReset.respond .aborted) := by
  simp only [resetDuring, hw, hf]

/-- A command that runs its body is stopped after `k` of its writes (R241; log 10). -/
theorem Launches.resetDuring {w : Word} {i : Instr} {s : State} (h : Launches i s) (hw : decode w = .ok i) (k : Nat) :
    resetDuring w k s = .next ((stoppedMemory i k s).applyReset.respond .aborted) := by
  simp [Machine.resetDuring, hw, h.checks, h.offDevice]

/-- The step that takes a reset during a command serves it. -/
theorem step_resetDuring {s : State} {w : Word} {k : Nat} {rest : List HostAction}
    (h : s.pending = .resetDuring w k :: rest) : step s = resetDuring w k { s with pending := rest } :=
  step_pending h

/-! ### The memory at the end of a command -/

/-- A command answers by its first failing check, or it runs its body: no other way leads to a next state (R104). -/
theorem exec_next_cases {i : Instr} {s t : State} (h : exec i s = .next t) :
    (∃ c, firstFailure (formatOf i) s (checksOf i) = some c ∧ t = s.endCommand c) ∨ Launches i s := by
  cases hf : firstFailure (formatOf i) s (checksOf i) with
  | some c =>
    rw [exec_of_firstFailure hf] at h
    cases h
    exact .inl ⟨c, rfl, rfl⟩
  | none =>
    cases hd : usesDevice i s with
    | true =>
      rw [exec_over_device hf hd] at h
      cases h
    | false => exact .inr ⟨hf, hd⟩

/-- A command that runs its body leaves in memory the writes before its first faulting access, whether it completes or
stops on a bus error (R222). -/
theorem Launches.exec_mem {i : Instr} {s t : State} (h : Launches i s) (ht : exec i s = .next t) :
    t.mem = s.mem.writeAll (writesUntilFault i s) := by
  rw [← bodyOf_mem i s h.checks]
  cases hb : bodyOf i s with
  | done u =>
    cases (h.exec_done hb).symm.trans ht
    exact endCommand_mem u .ok
  | busError u =>
    cases (h.exec_busError hb).symm.trans ht
    exact (endCommand_mem _ .busError).trans (freeRegisters_mem u _)

/-- No byte is left unwritten after the last write. -/
theorem unwrittenAddrs_of_length_le {i : Instr} {s : State} {k : Nat} (hk : (writesUntilFault i s).length ≤ k) :
    unwrittenAddrs i k s = [] := by
  rw [unwrittenAddrs, List.drop_of_length_le hk, List.map_nil, List.filter_nil]

/-- A command stopped after its last write has made all its writes, and no byte becomes a free value. -/
theorem stoppedMemory_mem_of_length_le {i : Instr} {s : State} {k : Nat} (hk : (writesUntilFault i s).length ≤ k) :
    (stoppedMemory i k s).mem = s.mem.writeAll (writesUntilFault i s) := by
  simp only [stoppedMemory, unwrittenAddrs_of_length_le hk, List.take_of_length_le hk, scramble]

/-! ### The statement -/

/-- Settles O19: the count is the number of writes before the first faulting access; a command that fails a check makes
none. -/
theorem resetAfterLastWriteLeavesCommandMemory : Obligations.ResetAfterLastWriteLeavesCommandMemory := by
  unfold Obligations.ResetAfterLastWriteLeavesCommandMemory
  intro i s t rest ht
  have hw : decode (encode i) = .ok i := (decodeEncodeAgree _ i).mpr rfl
  refine ⟨(writesUntilFault i { s with pending := rest }).length, fun k hk => ?_⟩
  rw [step_resetDuring rfl]
  rcases exec_next_cases ht with ⟨c, hf, rfl⟩ | hl
  · exact ⟨_, resetDuring_of_firstFailure hw hf k, registersReset_applyReset_respond _ _, rfl⟩
  · refine ⟨_, hl.resetDuring hw k, registersReset_applyReset_respond _ _, ?_⟩
    rw [hl.exec_mem ht, respond_mem, applyReset_mem, stoppedMemory_mem_of_length_le hk]

end Sys2Proof.Machine
end

section
/-! PROOFS. Reset, the idle engine, and reset during a command at any count (70_reset_and_hazards.md R240 to R242): every
way a reset during a command answers, and what the stopped command leaves in memory: the statements O6, O16, O17, O18
and O20. -/

namespace Sys2Proof.Machine

open Sys2Proof.Spec

/-! ### Every register reset -/

/-- Settles O6: with no action to take, the step serves none (log 8). -/
theorem idleEngineWaits : Obligations.IdleEngineWaits := by
  unfold Obligations.IdleEngineWaits
  intro s hidle
  simp only [step, serveNext, hidle]

/-- Settles O16: reset puts the registers of R42 beside what lies outside the engine, which stays (log 9). -/
theorem resetActionResetsRegisters : Obligations.ResetActionResetsRegisters := by
  unfold Obligations.ResetActionResetsRegisters
  intro s rest hpend
  have hstep : step s = .next (State.applyReset { s with pending := rest }) := step_pending hpend
  exact ⟨_, hstep, applyReset_mem _, applyReset_pending _, applyReset_platform _, resetRegistersAreZero⟩

/-! ### What a reset during a command answers -/

/-- Reset during the command of `w` finds nothing written, or stops a command that runs its body, or is refused with a
launch over a device (R241, R247; log 6). -/
theorem resetDuring_cases (w : Word) (k : Nat) (s : State) :
    resetDuring w k s = .next (s.applyReset.respond .aborted) ∨
      ∃ i, decode w = .ok i ∧
        ((Launches i s ∧ resetDuring w k s = .next ((stoppedMemory i k s).applyReset.respond .aborted)) ∨
          (firstFailure (formatOf i) s (checksOf i) = none ∧ usesDevice i s = true ∧
            resetDuring w k s = .refused .bufferOverDevice)) := by
  cases hw : decode w with
  | error e => exact .inl (by simp only [resetDuring, hw])
  | ok i =>
    cases hf : firstFailure (formatOf i) s (checksOf i) with
    | some c => exact .inl (resetDuring_of_firstFailure hw hf k)
    | none =>
      refine .inr ⟨i, rfl, ?_⟩
      cases hd : usesDevice i s with
      | true => exact .inr ⟨hf, rfl, by simp [resetDuring, hw, hf, hd]⟩
      | false => exact .inl ⟨⟨hf, hd⟩, Launches.resetDuring ⟨hf, hd⟩ hw k⟩

/-- Settles O17: every answer is a reset state (`resetDuring_next`), and past its checks only a launch over a device is
refused (`resetDuring_cases`). -/
theorem resetDuringResetsRegisters : Obligations.ResetDuringResetsRegisters := by
  unfold Obligations.ResetDuringResetsRegisters
  intro s rest w k hpend
  rw [step_resetDuring hpend]
  refine ⟨fun t ht => ?_, fun h => ?_⟩
  · rcases resetDuring_next ht with rfl | ⟨i, -, rfl⟩ <;> exact registersReset_applyReset_respond _ _
  · rcases resetDuring_cases w k { s with pending := rest } with hr | ⟨i, hw, ⟨-, hr⟩ | ⟨hf, hd, -⟩⟩
    · exact ⟨_, hr⟩
    · exact ⟨_, hr⟩
    · rw [firstFailure_pending] at hf
      rcases h i hw with ⟨c, hc⟩ | hover
      · exact absurd hc ((no_firstFails_iff i s).mpr hf c)
      · exact absurd ((launchOverDevice_iff i s).mpr hd) hover

/-! ### What a stopped command leaves in memory -/

/-- A command stopped by reset changes no byte outside the buffer it stores to (R50, R241). -/
theorem stoppedMemory_read_other {i : Instr} {s : State} (k : Nat) {a : Nat}
    (h : firstFailure (formatOf i) s (checksOf i) = none) (ha : ¬ destination i s a) :
    (stoppedMemory i k s).mem.read a = s.mem.read a := by
  have hne : ∀ d, d ∈ commandWrites i s → d.1 ≠ a := fun d hd he => ha (he ▸ commandWrites_destination i s h d hd)
  refine (Memory.read_scramble_other _ _ _ a fun hfree => ?_).trans
    (Memory.read_writeAll_other _ _ a fun d hd => hne d (writesUntilFault_subset i s d (List.mem_of_mem_take hd)))
  obtain ⟨⟨d, hd, he⟩, -⟩ := unwrittenAddrs_subset i k s a hfree
  exact hne d hd he

/-- A byte written before reset keeps what the command wrote (R241). -/
theorem stoppedMemory_read_written {i : Instr} {s : State} {k : Nat} {d : Host.Cell}
    (hd : d ∈ (writesUntilFault i s).take k) :
    (stoppedMemory i k s).mem.read d.1 = (s.mem.writeAll ((writesUntilFault i s).take k)).read d.1 :=
  Memory.read_scramble_other _ _ _ d.1 fun hfree => (unwrittenAddrs_subset i k s d.1 hfree).2 d hd rfl

/-- Settles O20: a byte that changes was a write of a command past its checks, so it lies in that command's destination
(`stoppedMemory_read_other`). -/
theorem resetDuringStaysInDestination : Obligations.ResetDuringStaysInDestination := by
  unfold Obligations.ResetDuringStaysInDestination
  intro s t rest w k a hpend ht hchange
  rw [step_resetDuring hpend] at ht
  rcases resetDuring_cases w k { s with pending := rest } with hr | ⟨i, hw, ⟨hl, hr⟩ | ⟨-, -, hr⟩⟩
  · cases hr.symm.trans ht
    exact absurd rfl hchange
  · cases hr.symm.trans ht
    refine ⟨i, hw, ?_⟩
    by_contra hout
    exact hchange (stoppedMemory_read_other k hl.checks hout)
  · cases hr.symm.trans ht

/-! ### CLEAR_RAW stopped -/

/-- The first `k` writes of the clear are those to the first `k` raw bytes, or to all of them (R188). -/
theorem mem_take_clearWrites_iff (s : State) (k : Nat) (d : Host.Cell) :
    d ∈ (clearWrites s).take k ↔ ∃ o, o < min k s.rawLen.toNat ∧ d = (s.rawBase.toNat + o, 0#8) := by
  simp only [clearWrites, ← List.map_take, List.take_range, List.mem_map, List.mem_range, eq_comm]

/-- A clear that meets no fault and is stopped after `k` writes leaves 0 in the first `k` raw bytes (R188, R241). -/
theorem stoppedMemory_clearRaw_read {s : State} {k n : Nat} (hw : s.mem.wf = true) (hr : RawReady s)
    (hanswer : ∀ a, InRaw s a → s.platform.busFault a .write = false) (hnk : n < k) (hn : n < s.rawLen.toNat) :
    (stoppedMemory .clearRaw k s).mem.read (s.rawBase.toNat + n) = 0#8 := by
  have hwrites : writesUntilFault .clearRaw s = clearWrites s :=
    untilFault_eq_self fun d hd => hanswer d.1 ((mem_clearWrites s d).mp hd).1
  have hmade := mem_take_clearWrites_iff s k
  have hnmin : n < min k s.rawLen.toNat := lt_min hnk hn
  rw [← hwrites] at hmade
  obtain ⟨hzero, -⟩ := read_writeAll_cleared hw hr (min_le_right _ _) hmade
  exact (stoppedMemory_read_written ((hmade _).mpr ⟨n, hnmin, rfl⟩)).trans (hzero n hnmin)

/-- Settles O18: the launch is stopped (`Launches.resetDuring`), its first writes stay (`stoppedMemory_clearRaw_read`), and
its destination is the raw buffer. -/
theorem resetDuringClearRaw : Obligations.ResetDuringClearRaw := by
  unfold Obligations.ResetDuringClearRaw
  intro s rest k hpend hw hr hd hanswer
  have hword : decode 0x0000000C#32 = .ok .clearRaw := (decodeEncodeAgree _ .clearRaw).mpr rfl
  have hl : Launches .clearRaw { s with pending := rest } := launches_clearRaw hr hd
  refine ⟨_, (step_resetDuring hpend).trans (hl.resetDuring hword k), registersReset_applyReset_respond _ _,
    fun n hnk hn => stoppedMemory_clearRaw_read (s := { s with pending := rest }) hw hr hanswer hnk hn, fun a ha => ?_⟩
  have hout : ¬ destination .clearRaw { s with pending := rest } a := by
    rintro (⟨-, hraw⟩ | ⟨hcmp, -⟩)
    · exact ha hraw
    · simp [StoresCmp] at hcmp
  exact stoppedMemory_read_other k hl.checks hout

end Sys2Proof.Machine
end
